-- ==== Sys2Proof/Word.lean ====
section
/-! DEFINITION. The word types of the unit: data registers of 128 bits, command words of 32 bits, register
numbers 0 to 7. -/

namespace Sys2Proof

/-- A data register, `wdata` or a response's `data`: 128 bits (`XLEN`, 00_scope.md R10, 10_state.md R20). -/
abbrev Word := BitVec 128

/-- A command word: 32 bits (`CMDLEN`, 30_encoding.md R70). -/
abbrev CmdWord := BitVec 32

/-- A data register number, 0 to 7, all valid; its addition is modulo 8 (20_memory.md R51). -/
abbrev RegNum := Fin 8

end Sys2Proof
end

