-- ==== Sys2Proof/Syntax.lean ====
section
/-! DEFINITION. The commands of the unit as syntax: one constructor of Instr per row of spec/opcode_table.json
(30_encoding.md R74, R75). -/

namespace Sys2Proof

/-- The four float formats; for `BRNEW` and `MODSHL` the word width N = W (30_encoding.md R73). -/
inductive Fmt where
  | f16
  | f32
  | f64
  | f128
  deriving DecidableEq, Repr

/-- A command with the fields it uses (30_encoding.md R75). The write data of `WR` is not part of the command
(30_encoding.md R81); the shift count of `BRSHR` is the unsigned `imm12` (30_encoding.md R76). -/
inductive Instr where
  | nop
  | wr (rd : RegNum)
  | rd (ra : RegNum)
  | mov (rd ra : RegNum)
  | rdst
  | clrst
  | ceil (fmt : Fmt) (rd ra : RegNum)
  | floor (fmt : Fmt) (rd ra : RegNum)
  | trunc (fmt : Fmt) (rd ra : RegNum)
  | round (fmt : Fmt) (rd ra : RegNum)
  | roundeven (fmt : Fmt) (rd ra : RegNum)
  | mul (fmt : Fmt) (rd ra rb : RegNum)
  | div (fmt : Fmt) (rd ra rb : RegNum)
  | brnew (fmt : Fmt) (ra rb : RegNum)
  | brwrd
  | brshr (k : Nat)
  | brrem (rd : RegNum)
  | modshl (fmt : Fmt) (rd ra rb rc : RegNum)
  | fmod (fmt : Fmt) (rd ra rb : RegNum)
  | rempio2 (rd ra : RegNum)
  deriving DecidableEq, Repr

end Sys2Proof
end

