-- ==== Sys2Proof/Machine/Format.lean ====
section
/-! DEFINITION. The float format descriptor: widths, masks, fields, categories, the exact magnitude of a pattern, and
rounding to a format (40_format_and_integer_primitives.md R100 to R107, R112). A pattern of format F is a bit vector of
`F.width` bits. -/

namespace Sys2Proof

/-- W, the total width (R100). -/
abbrev Fmt.width : Fmt → Nat
  | .f16 => 16
  | .f32 => 32
  | .f64 => 64
  | .f128 => 128

/-- S, the stored significand width (R100). -/
abbrev Fmt.sigBits : Fmt → Nat
  | .f16 => 10
  | .f32 => 23
  | .f64 => 52
  | .f128 => 112

/-- E = W − S − 1, the exponent width (R100). -/
abbrev Fmt.expBits (F : Fmt) : Nat := F.width - F.sigBits - 1

/-- B = 2^(E−1) − 1, the bias (R100). -/
def Fmt.bias (F : Fmt) : Nat := 2 ^ (F.expBits - 1) - 1

/-- `EXP_SAT` = 2^E − 1, the all-ones exponent field (R100). -/
def Fmt.expSat (F : Fmt) : Nat := 2 ^ F.expBits - 1

/-- emin = 1 − B (R100). -/
def Fmt.emin (F : Fmt) : Int := 1 - (F.bias : Int)

/-- emax = B (R100). -/
def Fmt.emax (F : Fmt) : Int := F.bias

/-- A bit pattern of format F (00_scope.md R12: the operand `x[i].W`). -/
abbrev Pat (F : Fmt) := BitVec F.width

/-- `SIGN_MASK` = 2^(W−1) (R102). -/
def signMask (F : Fmt) : Pat F := BitVec.ofNat F.width (2 ^ (F.width - 1))

/-- `ABS_MASK` = 2^(W−1) − 1 (R102). -/
def absMask (F : Fmt) : Pat F := BitVec.ofNat F.width (2 ^ (F.width - 1) - 1)

/-- `SIG_MASK` = 2^S − 1 (R102). -/
def sigMask (F : Fmt) : Pat F := BitVec.ofNat F.width (2 ^ F.sigBits - 1)

/-- `EXP_MASK` = (2^E − 1)·2^S (R102). -/
def expMask (F : Fmt) : Pat F := BitVec.ofNat F.width ((2 ^ F.expBits - 1) * 2 ^ F.sigBits)

/-- `IMPLICIT` = 2^S (R102). -/
def implicitBit (F : Fmt) : Pat F := BitVec.ofNat F.width (2 ^ F.sigBits)

/-- `QUIET` = 2^(S−1) (R102). -/
def quietBit (F : Fmt) : Pat F := BitVec.ofNat F.width (2 ^ (F.sigBits - 1))

/-- `INF` = `EXP_MASK` (R102). -/
def infPat (F : Fmt) : Pat F := expMask F

/-- `ONE_F` = B·2^S, the pattern of +1.0 (R102). -/
def onePat (F : Fmt) : Pat F := BitVec.ofNat F.width (F.bias * 2 ^ F.sigBits)

/-- `QNAN_F` = `EXP_MASK | QUIET`, the canonical quiet NaN (R107). -/
def qnan (F : Fmt) : Pat F := expMask F ||| quietBit F

/-- The signed zero `s << (W−1)` (40_format_and_integer_primitives.md R102, 42_multiply.md R172). -/
def signedZero (F : Fmt) (s : Bool) : Pat F := if s then signMask F else 0

/-- The signed infinity `INF | (s << (W−1))` (42_multiply.md R172). -/
def signedInf (F : Fmt) (s : Bool) : Pat F := infPat F ||| signedZero F s

/-- `sign(p)` = p[W−1] (R101). -/
def signOf {F : Fmt} (p : Pat F) : Bool := p.msb

/-- `expf(p)` = p[W−2:S], the biased exponent (R101). -/
def expf {F : Fmt} (p : Pat F) : Nat := (p.extractLsb' F.sigBits F.expBits).toNat

/-- `sig(p)` = p[S−1:0], the stored significand (R101). -/
def sig {F : Fmt} (p : Pat F) : Nat := (p.extractLsb' 0 F.sigBits).toNat

/-- `a` = p & `ABS_MASK` as an unsigned integer (R103). -/
def absOf {F : Fmt} (p : Pat F) : Nat := (p &&& absMask F).toNat

/-- The five categories of a pattern (R103). -/
inductive Category where
  | zero
  | subnormal
  | normal
  | infinity
  | nan
  deriving DecidableEq, Repr

/-- The category of a pattern, by comparing `a` with `IMPLICIT` and `INF` (R103). -/
def categoryOf {F : Fmt} (p : Pat F) : Category :=
  if absOf p = 0 then .zero
  else if absOf p < (implicitBit F).toNat then .subnormal
  else if absOf p < (infPat F).toNat then .normal
  else if absOf p = (infPat F).toNat then .infinity
  else .nan

/-- p is a NaN: `a > INF` (R103). -/
def isNaN {F : Fmt} (p : Pat F) : Bool := decide ((infPat F).toNat < absOf p)

/-- p is an infinity: `a = INF` (R103). -/
def isInf {F : Fmt} (p : Pat F) : Bool := decide (absOf p = (infPat F).toNat)

/-- p is a zero: `a = 0` (R103). -/
def isZero {F : Fmt} (p : Pat F) : Bool := decide (absOf p = 0)

/-- p is finite: zero, subnormal or normal (R105). -/
def isFinite {F : Fmt} (p : Pat F) : Bool := decide (absOf p < (infPat F).toNat)

/-- A NaN is quiet when its quiet bit is set (R106). -/
def isQuiet {F : Fmt} (p : Pat F) : Bool := (p &&& quietBit F) != 0

/-- `quiet_F(p)` = p | `QUIET`: sign and payload kept (R106). -/
def quiet {F : Fmt} (p : Pat F) : Pat F := p ||| quietBit F

/-- |val_F(p)| of a finite pattern, counted in units of the smallest subnormal 2^(1−B−S): the stored significand when
the exponent field is 0, else `(2^S + sig)·2^(expf−1)` (R105). It is a whole number for every finite pattern. -/
def units {F : Fmt} (p : Pat F) : Nat :=
  if expf p = 0 then sig p else (2 ^ F.sigBits + sig p) * 2 ^ (expf p - 1)

/-- The number of units in 1, that is 2^(B+S−1): dividing units by it gives the value (R105). -/
def unitsOfOne (F : Fmt) : Nat := 2 ^ (F.bias + F.sigBits - 1)

/-- The integer nearest to n/d, the even one when n/d lies half-way between two (R112). -/
def nearestEven (n d : Nat) : Nat :=
  if d < 2 * (n % d) ∨ (2 * (n % d) = d ∧ n / d % 2 = 1) then n / d + 1 else n / d

/-- `RNE_F(s, q)` for the exact positive rational q = (n/d)·2^(1−B−S), n and d positive (R112). In these units
e − emin = max(⌊log2 (n/d)⌋ − S, 0) = t, the unit in the last place is 2^t, m is the nearest integer to n/(d·2^t),
and `(e + B − 1)·2^S + m` is `t·2^S + m`; from `INF` on it is `INF`. -/
def rne (F : Fmt) (s : Bool) (n d : Nat) : Pat F :=
  let t := Nat.log2 (n / d) - F.sigBits
  let bits := t * 2 ^ F.sigBits + nearestEven n (d * 2 ^ t)
  signedZero F s ||| BitVec.ofNat F.width (min bits (infPat F).toNat)

end Sys2Proof
end

