-- ==== Sys2Proof/Machine/Integer.lean ====
section
/-! DEFINITION. The integer primitives on N-bit words, on exact integers with the range stated (R108 to R117 of
40_format_and_integer_primitives.md): widening multiply, split and combine, narrowing division, leading zeros, normalize,
unpack. -/

namespace Sys2Proof

/-- `lo_N(v)` = v mod 2^N (00_scope.md R11, R110). -/
def loPart (N v : Nat) : Nat := v % 2 ^ N

/-- `hi_N(v)` = v[2N−1:N] (R110). -/
def hiPart (N v : Nat) : Nat := v / 2 ^ N % 2 ^ N

/-- `combine_N(h, l)` = h·2^N + l (R110). -/
def combine (N h l : Nat) : Nat := h * 2 ^ N + l

/-- `wmul_N(a, b)`: the exact product of two N-bit words, below 2^(2N) (R109). -/
def wmul (a b : Nat) : Nat := a * b

/-- `ndiv_N(v, d)` = (⌊v/d⌋, v mod d), defined when `hi_N(v) < d`: the quotient then fits N bits (R111). None outside
that domain: the rule gives no result there, and no command reaches it. -/
def ndiv (N v d : Nat) : Option (Nat × Nat) :=
  if v / 2 ^ N < d then some (v / d, v % d) else none

/-- `clz_N(v)`: N minus the bit length of v (R116). -/
def clz (N v : Nat) : Nat := if v = 0 then N else N - 1 - Nat.log2 v

/-- `normalize_F(g)`: shift a subnormal significand g, 0 < g < 2^S, left until bit S is set (R113). -/
def normalize (F : Fmt) (g : Nat) : Nat × Nat :=
  let shift := clz F.width g - F.expBits
  (shift, g * 2 ^ shift)

/-- `unpack_F(p)` = (ex, m) for a finite non-zero p, with |val_F(p)| = m·2^(ex−B−S) and 2^S ≤ m < 2^(S+1) (R114). -/
def unpack {F : Fmt} (p : Pat F) : Int × Nat :=
  if expf p = 0 then
    let r := normalize F (sig p)
    (1 - (r.1 : Int), r.2)
  else (expf p, 2 ^ F.sigBits + sig p)

end Sys2Proof
end

