-- ==== Sys2Proof/WellFormed.lean ====
section
/-! DEFINITION. Which terms of Instr a command word can hold. Register numbers and formats are in range by their types;
the one field that needs a check is the 12-bit shift count of `BRSHR`. -/

namespace Sys2Proof

/-- An instruction is well formed when each of its fields fits the command word: `imm12` is unsigned, 0 to 4095
(30_encoding.md R71, R76). A count k ≥ N is well formed: it is a contract fault, not a reserved encoding (R76). -/
def Instr.wf : Instr → Bool
  | .nop => true
  | .wr _ => true
  | .rd _ => true
  | .mov _ _ => true
  | .rdst => true
  | .clrst => true
  | .ceil _ _ _ => true
  | .floor _ _ _ => true
  | .trunc _ _ _ => true
  | .round _ _ _ => true
  | .roundeven _ _ _ => true
  | .mul _ _ _ _ => true
  | .div _ _ _ _ => true
  | .brnew _ _ _ => true
  | .brwrd => true
  | .brshr k => decide (k < 4096)
  | .brrem _ => true
  | .modshl _ _ _ _ _ => true
  | .fmod _ _ _ _ => true
  | .rempio2 _ _ => true

end Sys2Proof
end

