-- ==== Sys2Proof/Decode.lean ====
section
/-! DEFINITION. Decoding a command word, total on every 32-bit word, with a named reason for every reserved encoding
(30_encoding.md R70 to R83), and after it the encoder and the assembler's spelling of a command. -/

namespace Sys2Proof

/-- The seven fields of a command word (30_encoding.md R71). -/
structure Fields where
  opcode : BitVec 6
  fmt    : BitVec 2
  rd     : BitVec 3
  ra     : BitVec 3
  rb     : BitVec 3
  rc     : BitVec 3
  imm12  : BitVec 12
  deriving DecidableEq, Repr

/-- The field positions of 30_encoding.md R71. -/
def fieldsOf (w : CmdWord) : Fields :=
  { opcode := w.extractLsb' 26 6
    fmt := w.extractLsb' 24 2
    rd := w.extractLsb' 21 3
    ra := w.extractLsb' 18 3
    rb := w.extractLsb' 15 3
    rc := w.extractLsb' 12 3
    imm12 := w.extractLsb' 0 12 }

/-- The commands by mnemonic, without operands (30_encoding.md R74). -/
inductive Op where
  | nop | wr | rd | mov | rdst | clrst
  | ceil | floor | trunc | round | roundeven
  | mul | div
  | brnew | brwrd | brshr | brrem | modshl | fmod
  | rempio2
  deriving DecidableEq, Repr

/-- Every command, in the order of 30_encoding.md R74. -/
def Op.all : List Op :=
  [.nop, .wr, .rd, .mov, .rdst, .clrst, .ceil, .floor, .trunc, .round, .roundeven, .mul, .div,
   .brnew, .brwrd, .brshr, .brrem, .modshl, .fmod, .rempio2]

/-- The opcode map (30_encoding.md R74). -/
def Op.code : Op → BitVec 6
  | .nop => 0x00
  | .wr => 0x01
  | .rd => 0x02
  | .mov => 0x03
  | .rdst => 0x04
  | .clrst => 0x05
  | .ceil => 0x10
  | .floor => 0x11
  | .trunc => 0x12
  | .round => 0x13
  | .roundeven => 0x14
  | .mul => 0x18
  | .div => 0x19
  | .brnew => 0x20
  | .brwrd => 0x21
  | .brshr => 0x22
  | .brrem => 0x23
  | .modshl => 0x28
  | .fmod => 0x29
  | .rempio2 => 0x30

/-- The command an opcode selects, none for an unassigned opcode (30_encoding.md R74). -/
def Op.ofCode (c : BitVec 6) : Option Op :=
  Op.all.find? (fun op => op.code == c)

/-- The name held for the reducer operation without a contract: opcode 0x24 is reserved (30_encoding.md R78). -/
def brsqsCode : BitVec 6 := 0x24

/-- Which fields a command uses; an unused field must be zero (30_encoding.md R72). -/
structure Uses where
  fmt : Bool
  rd  : Bool
  ra  : Bool
  rb  : Bool
  rc  : Bool
  imm : Bool
  deriving DecidableEq, Repr

/-- The table of 30_encoding.md R75. `REMPIO2` uses its `fmt` field: it must hold binary 10 there. -/
def Op.uses : Op → Uses
  | .nop       => ⟨false, false, false, false, false, false⟩
  | .wr        => ⟨false, true,  false, false, false, false⟩
  | .rd        => ⟨false, false, true,  false, false, false⟩
  | .mov       => ⟨false, true,  true,  false, false, false⟩
  | .rdst      => ⟨false, false, false, false, false, false⟩
  | .clrst     => ⟨false, false, false, false, false, false⟩
  | .ceil      => ⟨true,  true,  true,  false, false, false⟩
  | .floor     => ⟨true,  true,  true,  false, false, false⟩
  | .trunc     => ⟨true,  true,  true,  false, false, false⟩
  | .round     => ⟨true,  true,  true,  false, false, false⟩
  | .roundeven => ⟨true,  true,  true,  false, false, false⟩
  | .mul       => ⟨true,  true,  true,  true,  false, false⟩
  | .div       => ⟨true,  true,  true,  true,  false, false⟩
  | .brnew     => ⟨true,  false, true,  true,  false, false⟩
  | .brwrd     => ⟨false, false, false, false, false, false⟩
  | .brshr     => ⟨false, false, false, false, false, true⟩
  | .brrem     => ⟨false, true,  false, false, false, false⟩
  | .modshl    => ⟨true,  true,  true,  true,  true,  false⟩
  | .fmod      => ⟨true,  true,  true,  true,  false, false⟩
  | .rempio2   => ⟨true,  true,  true,  false, false, false⟩

/-- Every field a command does not use is zero (30_encoding.md R72, R77 (b)). -/
def Uses.unusedZero (u : Uses) (f : Fields) : Bool :=
  (u.fmt || f.fmt == 0) && (u.rd || f.rd == 0) && (u.ra || f.ra == 0) && (u.rb || f.rb == 0) &&
    (u.rc || f.rc == 0) && (u.imm || f.imm12 == 0)

/-- The format codes (30_encoding.md R73). -/
def Fmt.code : Fmt → BitVec 2
  | .f16 => 0
  | .f32 => 1
  | .f64 => 2
  | .f128 => 3

/-- The format a code names; every code names one (30_encoding.md R73). -/
def Fmt.ofCode (c : BitVec 2) : Fmt :=
  if c = 0 then .f16 else if c = 1 then .f32 else if c = 2 then .f64 else .f128

/-- A 3-bit field as a register number (20_memory.md R51). -/
def regOf (r : BitVec 3) : RegNum := r.toFin

/-- A register number as its 3-bit field. -/
def regField (r : RegNum) : BitVec 3 := BitVec.ofFin r

/-- The instruction of a command and its fields. -/
def Op.build (f : Fields) : Op → Instr
  | .nop => .nop
  | .wr => .wr (regOf f.rd)
  | .rd => .rd (regOf f.ra)
  | .mov => .mov (regOf f.rd) (regOf f.ra)
  | .rdst => .rdst
  | .clrst => .clrst
  | .ceil => .ceil (Fmt.ofCode f.fmt) (regOf f.rd) (regOf f.ra)
  | .floor => .floor (Fmt.ofCode f.fmt) (regOf f.rd) (regOf f.ra)
  | .trunc => .trunc (Fmt.ofCode f.fmt) (regOf f.rd) (regOf f.ra)
  | .round => .round (Fmt.ofCode f.fmt) (regOf f.rd) (regOf f.ra)
  | .roundeven => .roundeven (Fmt.ofCode f.fmt) (regOf f.rd) (regOf f.ra)
  | .mul => .mul (Fmt.ofCode f.fmt) (regOf f.rd) (regOf f.ra) (regOf f.rb)
  | .div => .div (Fmt.ofCode f.fmt) (regOf f.rd) (regOf f.ra) (regOf f.rb)
  | .brnew => .brnew (Fmt.ofCode f.fmt) (regOf f.ra) (regOf f.rb)
  | .brwrd => .brwrd
  | .brshr => .brshr f.imm12.toNat
  | .brrem => .brrem (regOf f.rd)
  | .modshl => .modshl (Fmt.ofCode f.fmt) (regOf f.rd) (regOf f.ra) (regOf f.rb) (regOf f.rc)
  | .fmod => .fmod (Fmt.ofCode f.fmt) (regOf f.rd) (regOf f.ra) (regOf f.rb)
  | .rempio2 => .rempio2 (regOf f.rd) (regOf f.ra)

/-- Why a word is a reserved encoding (30_encoding.md R77, R78). Each raises `Fault(ILLEGAL)`. -/
inductive Reserved where
  /-- the opcode is not in the map of R74 -/
  | unassignedOpcode
  /-- opcode 0x24, held for `BRSQS` (R78) -/
  | brsqsOpcode
  /-- a must-be-zero field is not zero (R77 (b)) -/
  | fieldNotZero
  /-- `REMPIO2` with `fmt` other than binary 10 (R77 (c), R79) -/
  | formatNotF64
  deriving DecidableEq, Repr

/-- Decoding from the fields: the opcode first, then the must-be-zero fields, then the format of `REMPIO2`. -/
def decodeFields (f : Fields) : Except Reserved Instr :=
  match Op.ofCode f.opcode with
  | none => if f.opcode = brsqsCode then .error .brsqsOpcode else .error .unassignedOpcode
  | some op =>
    if op.uses.unusedZero f = false then .error .fieldNotZero
    else if op = .rempio2 ∧ f.fmt ≠ Fmt.f64.code then .error .formatNotF64
    else .ok (op.build f)

/-- Decoding is total: a word is one command or a reserved encoding (30_encoding.md R83). -/
def decode (w : CmdWord) : Except Reserved Instr := decodeFields (fieldsOf w)

/-- The instruction the decoder reads from the word `w` of `nbits` bits, numbered as spec/opcode_table.json numbers
them; every bit above `nbits` is 0. A command word is one 32-bit unit (30_encoding.md R70). -/
def decodeTableWord (nbits w : Nat) : Option Instr :=
  (decode (BitVec.ofNat 32 (w % 2 ^ nbits))).toOption

/-! The encoder. -/

/-- The seven fields at their positions: `opcode` in the top bits, `imm12` in the low ones (30_encoding.md R71). -/
def packFields (f : Fields) : CmdWord :=
  f.opcode ++ f.fmt ++ f.rd ++ f.ra ++ f.rb ++ f.rc ++ f.imm12

/-- The command of an instruction. -/
def Instr.op : Instr → Op
  | .nop => .nop
  | .wr _ => .wr
  | .rd _ => .rd
  | .mov _ _ => .mov
  | .rdst => .rdst
  | .clrst => .clrst
  | .ceil _ _ _ => .ceil
  | .floor _ _ _ => .floor
  | .trunc _ _ _ => .trunc
  | .round _ _ _ => .round
  | .roundeven _ _ _ => .roundeven
  | .mul _ _ _ _ => .mul
  | .div _ _ _ _ => .div
  | .brnew _ _ _ => .brnew
  | .brwrd => .brwrd
  | .brshr _ => .brshr
  | .brrem _ => .brrem
  | .modshl _ _ _ _ _ => .modshl
  | .fmod _ _ _ _ => .fmod
  | .rempio2 _ _ => .rempio2

/-- The fields of an instruction, the unused ones zero (30_encoding.md R72, R75). -/
def Instr.fields : Instr → Fields
  | .nop => ⟨Op.nop.code, 0, 0, 0, 0, 0, 0⟩
  | .wr xd => ⟨Op.wr.code, 0, regField xd, 0, 0, 0, 0⟩
  | .rd xa => ⟨Op.rd.code, 0, 0, regField xa, 0, 0, 0⟩
  | .mov xd xa => ⟨Op.mov.code, 0, regField xd, regField xa, 0, 0, 0⟩
  | .rdst => ⟨Op.rdst.code, 0, 0, 0, 0, 0, 0⟩
  | .clrst => ⟨Op.clrst.code, 0, 0, 0, 0, 0, 0⟩
  | .ceil fmt xd xa => ⟨Op.ceil.code, fmt.code, regField xd, regField xa, 0, 0, 0⟩
  | .floor fmt xd xa => ⟨Op.floor.code, fmt.code, regField xd, regField xa, 0, 0, 0⟩
  | .trunc fmt xd xa => ⟨Op.trunc.code, fmt.code, regField xd, regField xa, 0, 0, 0⟩
  | .round fmt xd xa => ⟨Op.round.code, fmt.code, regField xd, regField xa, 0, 0, 0⟩
  | .roundeven fmt xd xa => ⟨Op.roundeven.code, fmt.code, regField xd, regField xa, 0, 0, 0⟩
  | .mul fmt xd xa xb => ⟨Op.mul.code, fmt.code, regField xd, regField xa, regField xb, 0, 0⟩
  | .div fmt xd xa xb => ⟨Op.div.code, fmt.code, regField xd, regField xa, regField xb, 0, 0⟩
  | .brnew fmt xa xb => ⟨Op.brnew.code, fmt.code, 0, regField xa, regField xb, 0, 0⟩
  | .brwrd => ⟨Op.brwrd.code, 0, 0, 0, 0, 0, 0⟩
  | .brshr k => ⟨Op.brshr.code, 0, 0, 0, 0, 0, BitVec.ofNat 12 k⟩
  | .brrem xd => ⟨Op.brrem.code, 0, regField xd, 0, 0, 0, 0⟩
  | .modshl fmt xd xa xb xc =>
    ⟨Op.modshl.code, fmt.code, regField xd, regField xa, regField xb, regField xc, 0⟩
  | .fmod fmt xd xa xb => ⟨Op.fmod.code, fmt.code, regField xd, regField xa, regField xb, 0, 0⟩
  | .rempio2 xd xa => ⟨Op.rempio2.code, Fmt.f64.code, regField xd, regField xa, 0, 0, 0⟩

/-- The one command word of a well-formed instruction (30_encoding.md R72). -/
def encode (i : Instr) : CmdWord := packFields i.fields

/-! The match and mask table, transcribed on its own from 30_encoding.md R80. -/

/-- The `match` column of 30_encoding.md R80. -/
def Op.matchBits : Op → CmdWord
  | .nop => 0x00000000
  | .wr => 0x04000000
  | .rd => 0x08000000
  | .mov => 0x0C000000
  | .rdst => 0x10000000
  | .clrst => 0x14000000
  | .ceil => 0x40000000
  | .floor => 0x44000000
  | .trunc => 0x48000000
  | .round => 0x4C000000
  | .roundeven => 0x50000000
  | .mul => 0x60000000
  | .div => 0x64000000
  | .brnew => 0x80000000
  | .brwrd => 0x84000000
  | .brshr => 0x88000000
  | .brrem => 0x8C000000
  | .modshl => 0xA0000000
  | .fmod => 0xA4000000
  | .rempio2 => 0xC2000000

/-- The `mask` column of 30_encoding.md R80. -/
def Op.maskBits : Op → CmdWord
  | .nop => 0xFFFFFFFF
  | .wr => 0xFF1FFFFF
  | .rd => 0xFFE3FFFF
  | .mov => 0xFF03FFFF
  | .rdst => 0xFFFFFFFF
  | .clrst => 0xFFFFFFFF
  | .ceil => 0xFC03FFFF
  | .floor => 0xFC03FFFF
  | .trunc => 0xFC03FFFF
  | .round => 0xFC03FFFF
  | .roundeven => 0xFC03FFFF
  | .mul => 0xFC007FFF
  | .div => 0xFC007FFF
  | .brnew => 0xFCE07FFF
  | .brwrd => 0xFFFFFFFF
  | .brshr => 0xFFFFF000
  | .brrem => 0xFF1FFFFF
  | .modshl => 0xFC000FFF
  | .fmod => 0xFC007FFF
  | .rempio2 => 0xFF03FFFF

/-- The word `w` is a word of the command `op` by the match and mask table (30_encoding.md R80). -/
def Op.matchesWord (op : Op) (w : CmdWord) : Bool := (w &&& op.maskBits) == op.matchBits

/-! The written form of a command (30_encoding.md R81). -/

/-- The mnemonic of a command, as spec/opcode_table.json spells it. -/
def Op.mnemonic : Op → String
  | .nop => "NOP"
  | .wr => "WR"
  | .rd => "RD"
  | .mov => "MOV"
  | .rdst => "RDST"
  | .clrst => "CLRST"
  | .ceil => "CEIL"
  | .floor => "FLOOR"
  | .trunc => "TRUNC"
  | .round => "ROUND"
  | .roundeven => "ROUNDEVEN"
  | .mul => "MUL"
  | .div => "DIV"
  | .brnew => "BRNEW"
  | .brwrd => "BRWRD"
  | .brshr => "BRSHR"
  | .brrem => "BRREM"
  | .modshl => "MODSHL"
  | .fmod => "FMOD"
  | .rempio2 => "REMPIO2"

/-- The format suffix (30_encoding.md R81). -/
def Fmt.suffix : Fmt → String
  | .f16 => ".f16"
  | .f32 => ".f32"
  | .f64 => ".f64"
  | .f128 => ".f128"

/-- A register in assembler syntax. -/
def regName (r : RegNum) : String := "x" ++ toString r.val

/-- The command in assembler syntax (30_encoding.md R81); the literal after `WR xd,` is the request's `wdata`, which is
no part of the command word, so it is not written here. -/
def Instr.asm : Instr → String
  | .nop => "NOP"
  | .wr xd => "WR " ++ regName xd
  | .rd xa => "RD " ++ regName xa
  | .mov xd xa => "MOV " ++ regName xd ++ ", " ++ regName xa
  | .rdst => "RDST"
  | .clrst => "CLRST"
  | .ceil fmt xd xa => "CEIL" ++ fmt.suffix ++ " " ++ regName xd ++ ", " ++ regName xa
  | .floor fmt xd xa => "FLOOR" ++ fmt.suffix ++ " " ++ regName xd ++ ", " ++ regName xa
  | .trunc fmt xd xa => "TRUNC" ++ fmt.suffix ++ " " ++ regName xd ++ ", " ++ regName xa
  | .round fmt xd xa => "ROUND" ++ fmt.suffix ++ " " ++ regName xd ++ ", " ++ regName xa
  | .roundeven fmt xd xa => "ROUNDEVEN" ++ fmt.suffix ++ " " ++ regName xd ++ ", " ++ regName xa
  | .mul fmt xd xa xb =>
    "MUL" ++ fmt.suffix ++ " " ++ regName xd ++ ", " ++ regName xa ++ ", " ++ regName xb
  | .div fmt xd xa xb =>
    "DIV" ++ fmt.suffix ++ " " ++ regName xd ++ ", " ++ regName xa ++ ", " ++ regName xb
  | .brnew fmt xa xb => "BRNEW" ++ fmt.suffix ++ " " ++ regName xa ++ ", " ++ regName xb
  | .brwrd => "BRWRD"
  | .brshr k => "BRSHR " ++ toString k
  | .brrem xd => "BRREM " ++ regName xd
  | .modshl fmt xd xa xb xc =>
    "MODSHL" ++ fmt.suffix ++ " " ++ regName xd ++ ", " ++ regName xa ++ ", " ++ regName xb ++ ", " ++ regName xc
  | .fmod fmt xd xa xb =>
    "FMOD" ++ fmt.suffix ++ " " ++ regName xd ++ ", " ++ regName xa ++ ", " ++ regName xb
  | .rempio2 xd xa => "REMPIO2 " ++ regName xd ++ ", " ++ regName xa

end Sys2Proof
end

