-- ==== Sys2Proof/Config.lean ====
section
/-! DEFINITION. What is fixed for one machine and is not state: the record types of the OPEN parameters of 00_scope.md
R10 (their values stand in Machine/Params.lean), the LRR collaborator as an uninterpreted function, and the free
values. Nothing in Lean can evaluate an opaque constant of this file or prove a value of it. -/

namespace Sys2Proof

/-- A request on the LRR port: `nx` digits used (1 to 3), three 24-bit digits, a signed 12-bit exponent offset
(10_state.md R31). -/
structure LrrRequest where
  nx  : Nat
  tx0 : BitVec 24
  tx1 : BitVec 24
  tx2 : BitVec 24
  e0  : BitVec 12
  deriving DecidableEq, Repr

/-- A response on the LRR port: a signed 32-bit quadrant count and two binary64 patterns (10_state.md R31). -/
structure LrrResponse where
  n   : BitVec 32
  ty0 : BitVec 64
  ty1 : BitVec 64
  deriving DecidableEq, Repr, Inhabited

/-- The parameters of the `DIV` datapath for one format: `DIV_HALF`, `DIV_FULL`, `DIV_P`, `DIV_K` (00_scope.md R10). -/
structure DivParams where
  half  : Nat
  full  : Nat
  bound : Nat
  passes : Nat
  deriving DecidableEq, Repr

/-- The parameters `TRG_*` and `TRG_FUSED` of `REMPIO2` (00_scope.md R10): seven binary64 constants of π/2, the rounding
constant `TOINT`, eight high-word thresholds named by the multiple of π/4 each stands for, and whether the quadrant multiply
is fused. -/
structure TrigParams where
  invPio2 : BitVec 64
  pio2_1  : BitVec 64
  pio2_1t : BitVec 64
  pio2_2  : BitVec 64
  pio2_2t : BitVec 64
  pio2_3  : BitVec 64
  pio2_3t : BitVec 64
  toInt   : BitVec 64
  quarter1 : Nat
  quarter3 : Nat
  quarter5 : Nat
  quarter6 : Nat
  quarter7 : Nat
  quarter8 : Nat
  quarter9 : Nat
  largeMin : Nat
  fused : Bool
  deriving DecidableEq, Repr

namespace Config

/-- FREE VALUE. The external large-reduction routine (`LRR`, 00_scope.md R10, 45_rem_pio2.md R292, R294): a total
function, equal requests get equal answers, nothing else is assumed of it. DESIGN CHOICE, log 4. -/
opaque lrr : LrrRequest → LrrResponse

/-- FREE VALUE. What `BR.NUM` holds after the k-th event that leaves it unspecified (10_state.md R27). Log 5. -/
opaque freeNum : Nat → BitVec 256

/-- FREE VALUE. The same for `BR.DIV`. Log 5. -/
opaque freeDiv : Nat → BitVec 128

/-- FREE VALUE. The same for `BR.QUO`. Log 5. -/
opaque freeQuo : Nat → BitVec 129

/-- FREE VALUE. The same for `BR.REM`. Log 5. -/
opaque freeRem : Nat → BitVec 128

end Config

end Sys2Proof
end

