-- ==== Sys2Proof/Machine/Params.lean ====
section
/-! DEFINITION. The values 00_scope.md R10 gives the parameters: the FIXED ones, and the defaults of the OPEN ones. No
meaning names a default: the OPEN parameters of `REMPIO2` stand in State (field `trig`, log 7), and those of the `DIV` datapath
are an argument of it (log 6). -/

namespace Sys2Proof

/-- `DIV_HALF`, `DIV_FULL` (43_divide.md R203), `DIV_P` (R205), `DIV_K` (R213): the defaults of 00_scope.md R10. -/
def divDefaults : Fmt → DivParams
  | .f16 => { half := 0, full := 2, bound := 3, passes := 1 }
  | .f32 => { half := 0, full := 3, bound := 10, passes := 1 }
  | .f64 => { half := 3, full := 1, bound := 220, passes := 1 }
  | .f128 => { half := 4, full := 1, bound := 13922, passes := 3 }

/-- `DIV_C` = ⌊(3/4 + 1/√2 − 1)·2^128⌋, FIXED (43_divide.md R199). -/
def divC : Nat := 0x7504F333F9DE6484597D89B3754ABE9F

/-- `TRG_*` and `TRG_FUSED`: the constants of 45_rem_pio2.md R272, the thresholds of R273, fused as R283 has it: the defaults
of 00_scope.md R10. -/
def trigDefaults : TrigParams :=
  { invPio2 := 0x3FE45F306DC9C883
    pio2_1 := 0x3FF921FB54400000
    pio2_1t := 0x3DD0B4611A626331
    pio2_2 := 0x3DD0B4611A600000
    pio2_2t := 0x3BA3198A2E037073
    pio2_3 := 0x3BA3198A2E000000
    pio2_3t := 0x397B839A252049C1
    toInt := 0x4338000000000000
    quarter1 := 0x3FE921FB
    quarter3 := 0x4002D97C
    quarter5 := 0x400F6A7A
    quarter6 := 0x4012D97C
    quarter7 := 0x4015FDBC
    quarter8 := 0x401921FB
    quarter9 := 0x401C463B
    largeMin := 0x413921FB
    fused := true }

end Sys2Proof
end

