-- ==== Sys2Proof/Machine/State.lean ====
section
/-! DEFINITION. The state of the unit: the record of 10_state.md R34, the two ports of R30 and R31, the OPEN parameters of
`REMPIO2` (00_scope.md R10), which no step changes, and two fields that are the model's own (`written`, `fresh`). Plain data. INVENTORY.md lists every field with its rule and reset value. -/

namespace Sys2Proof.Machine

/-- The rounding status: exact, or the returned value differs from the mathematical input (00_scope.md R15). -/
inductive Status where
  | ok
  | inexact
  deriving DecidableEq, Repr

/-- The reducer register group `BR` (10_state.md R27). -/
structure Reducer where
  num   : BitVec 256
  div   : BitVec 128
  quo   : BitVec 129
  rem   : BitVec 128
  fmt   : Fmt
  valid : Bool
  deriving DecidableEq, Repr

/-- A request on the command port (10_state.md R30). -/
structure Request where
  cmd   : CmdWord
  wdata : Word
  deriving DecidableEq, Repr

/-- A response on the command port (10_state.md R30). -/
structure Response where
  fc   : BitVec 4
  st   : Status
  data : Word
  deriving DecidableEq, Repr

/-- What the host does to the unit: a request, the reset input, or a request whose command a reset cuts
(10_state.md R30, R32; 70_reset_and_hazards.md R361). -/
inductive HostEvent where
  | request (q : Request)
  | reset
  | requestCutByReset (q : Request)
  deriving DecidableEq, Repr

/-- The reasons the machine stops with a fault: none. Both faults of the unit (60_exceptions.md R331, R332) are TAKEN as
60_exceptions.md R334 describes, a next state with `FSR.FC` set and the response sent, and the FAULTED unit still answers every
request (R335). No constructor: nobody raises a stopping fault. -/
inductive Fault where
  deriving DecidableEq, Repr

/-- The reasons a step has no meaning. -/
inductive Refusal where
  /-- Raised by an arm of exec whose instruction has no meaning yet; safe (the model stops where the hardware goes on).
  No arm raises it. -/
  | notModelled (mnemonic : String)
  deriving DecidableEq, Repr

/-- The state of the unit. -/
structure State where
  /-- the data registers (10_state.md R20) -/
  x : Vector Word 8
  /-- `FSR.NX`, sticky inexact (10_state.md R24) -/
  nx : Bool
  /-- `FSR.FC`, the fault code (10_state.md R24, 60_exceptions.md R334) -/
  fc : BitVec 4
  /-- the reducer register group (10_state.md R27) -/
  br : Reducer
  /-- what the host will still do, oldest first (10_state.md R30, 20_memory.md R59; log 3) -/
  inputs : List HostEvent
  /-- the write data of the request being served (10_state.md R30) -/
  wdata : Word
  /-- the last response sent (10_state.md R30) -/
  resp : Option Response
  /-- the request the last command put on the LRR port (10_state.md R31) -/
  lrrReq : Option LrrRequest
  /-- the parameters `TRG_*` and `TRG_FUSED` the unit is built with (00_scope.md R10; log 7) -/
  trig : TrigParams
  /-- MODEL'S OWN: the data registers a command has written since reset (10_state.md R36; log 1) -/
  written : Vector Bool 8
  /-- MODEL'S OWN: the index of the next free value (log 5) -/
  fresh : Nat
  deriving DecidableEq, Repr

/-- The reducer group after reset: `VALID` = 0 and `FMT` = 0 (10_state.md R35); the other four registers are
unspecified there, DESIGN CHOICE 0 (log 2). -/
def Reducer.reset : Reducer :=
  { num := 0, div := 0, quo := 0, rem := 0, fmt := .f16, valid := false }

/-- The machine right after reset (10_state.md R35, 70_reset_and_hazards.md R360). The data registers are unspecified
there, DESIGN CHOICE 0 (log 1). The unit is built with the default parameters (00_scope.md R10; log 7). -/
def State.reset : State :=
  { x := Vector.replicate 8 0
    nx := false
    fc := 0
    br := Reducer.reset
    inputs := []
    wdata := 0
    resp := none
    lrrReq := none
    trig := trigDefaults
    written := Vector.replicate 8 false
    fresh := 0 }

end Sys2Proof.Machine
end

