-- ==== Sys2Proof/Machine/Flags.lean ====
section
/-! DEFINITION. The status register `FSR` and the rounding status (10_state.md R24, R25; 00_scope.md R15). The unit has no
other flag: no condition codes, no carry, zero, negative or overflow (R25). -/

namespace Sys2Proof.Machine

/-- The numeric coding of a status: `OK` = 0, `INEXACT` = 1 (00_scope.md R15). -/
def statusBit : Status → BitVec 1
  | .ok => 0
  | .inexact => 1

/-- `FSR` as `RDST` reads it: `NX | (BR.VALID << 1) | (BR.FMT << 2) | (FC << 4)`, bits 31:8 zero
(10_state.md R24, 46_system_commands.md R314). -/
def fsr (s : State) : BitVec 32 :=
  (BitVec.ofBool s.nx).setWidth 32 ||| ((BitVec.ofBool s.br.valid).setWidth 32 <<< 1) |||
    (s.br.fmt.code.setWidth 32 <<< 2) ||| (s.fc.setWidth 32 <<< 4)

/-- `FSR.NX <- FSR.NX | status`: the bit is sticky (10_state.md R24, 41_rounding.md R140). -/
def accrue (st : Status) (s : State) : State :=
  { s with nx := s.nx || decide (st = .inexact) }

/-- `FSR.NX <- 0` (46_system_commands.md R316). -/
def clearNx (s : State) : State := { s with nx := false }

end Sys2Proof.Machine
end

