-- ==== Sys2Proof/Machine/Operands.lean ====
section
/-! DEFINITION. Operand forms: the low W bits of a source register, the zero- and sign-extension of results, the 32-bit
shift operand, and the byte lanes of the data buses (10_state.md R22; 30_encoding.md R76; 20_memory.md R55). -/

namespace Sys2Proof.Machine

/-- `x[r]`, all 128 bits (00_scope.md R12). -/
def readX (s : State) (r : RegNum) : Word := s.x[r]

/-- `x[r].W`, the operand of a command of format F: bits W−1 down to 0, the rest ignored (10_state.md R22). -/
def operand (F : Fmt) (s : State) (r : RegNum) : Pat F := (readX s r).setWidth F.width

/-- The shift operand of `MODSHL`: `x[r][31:0]`, unsigned (30_encoding.md R76). -/
def shiftOperand (s : State) (r : RegNum) : Nat := ((readX s r).extractLsb' 0 32).toNat

/-- `zext_128(v)` (10_state.md R22). -/
def zext128 {n : Nat} (v : BitVec n) : Word := v.setWidth 128

/-- `sext_128(n)` of a signed 32-bit integer (45_rem_pio2.md R271). -/
def sext128 (n : BitVec 32) : Word := n.signExtend 128

/-- Byte lane i of `wdata` or `data`: bits 8i+7 down to 8i, lane 0 the least significant byte (20_memory.md R55). -/
def byteLane (v : Word) (i : Fin 16) : BitVec 8 := v.extractLsb' (8 * i.val) 8

/-- The bus value whose byte lanes are given, lane 0 first (20_memory.md R55). -/
def ofByteLanes (lanes : List (BitVec 8)) : Word :=
  lanes.foldr (fun b acc => (acc <<< 8) ||| b.setWidth 128) 0

end Sys2Proof.Machine
end

