-- ==== Sys2Proof/Machine/Ops.lean ====
section
/-! DEFINITION. The shared operations: writing a register, responding, taking a fault, the FAULTED answer, reset (the only
return from a fault), and serving a command (00_scope.md R12, R13; 60_exceptions.md R334 to R336). -/

namespace Sys2Proof.Machine

/-- What a meaning answers. -/
abbrev Out := Host.Outcome State Fault Refusal

/-- The code of `ILLEGAL` (60_exceptions.md R331). -/
def illegalCode : BitVec 4 := 1

/-- The code of `CONTRACT` (60_exceptions.md R332). -/
def contractCode : BitVec 4 := 2

/-- `x[r] <- v`, all 128 bits at once (00_scope.md R12, 20_memory.md R53). -/
def writeX (r : RegNum) (v : Word) (s : State) : State :=
  { s with x := s.x.set r v, written := s.written.set r true }

/-- `respond(data, st)`: end a command normally, `fc` = 0 (00_scope.md R13, 10_state.md R30). -/
def respond (data : Word) (st : Status) (s : State) : State :=
  { s with resp := some { fc := 0, st := st, data := data } }

/-- `x[r] <- v; respond(v, st)`: how every command that writes `x[rd]` ends (10_state.md R30). -/
def finish (r : RegNum) (v : Word) (st : Status) (s : State) : State :=
  respond v st (writeX r v s)

/-- TAKING A FAULT, `raise Fault(code)`: `FSR.FC <- code`, the response is `(code, 0, 0)`, and nothing else
(60_exceptions.md R334). No program counter, no vector and no saved register exist. -/
def raiseFault (code : BitVec 4) (s : State) : State :=
  { s with fc := code, resp := some { fc := code, st := .ok, data := 0 } }

/-- The answer of a FAULTED unit to every request: `(FSR.FC, 0, 0)`, no state changes (60_exceptions.md R335). -/
def answerFaulted (s : State) : State :=
  { s with resp := some { fc := s.fc, st := .ok, data := 0 } }

/-- Serve one command: a FAULTED unit executes nothing and answers with the stored code, else the command's effect
happens (60_exceptions.md R334, R335). -/
def serve (s : State) (effect : State) : Out :=
  .next (if s.fc = 0 then effect else answerFaulted s)

/-- A command with a precondition: when it fails `Fault(CONTRACT)` is raised, all checks before all writes
(60_exceptions.md R332, R334). -/
def checked (ok : Bool) (s : State) (effect : State) : State :=
  if ok then effect else raiseFault contractCode s

/-- THE RETURN FROM A FAULT is the reset input alone (60_exceptions.md R336, 70_reset_and_hazards.md R361): the state of
R360. What the host will do next, the parameters the unit is built with and the index of free values are not the reset's to change. -/
def resetUnit (s : State) : State :=
  { State.reset with inputs := s.inputs, trig := s.trig, fresh := s.fresh }

end Sys2Proof.Machine
end

