-- ==== Sys2Proof/Machine/Barrett.lean ====
section
/-! DEFINITION. The Barrett reducer: its formulas, the four commands on the BR group BRNEW, BRWRD, BRSHR, BRREM, and its
users MODSHL and FMOD, each by its contract with the datapath beside it (44_barrett.md R230 to R261). -/

namespace Sys2Proof.Machine

/-- R/8 < n < R/4, R = 2^N (R230, R234). -/
def modulusInRange (N n : Nat) : Bool := decide (2 ^ N < 8 * n) && decide (4 * n < 2 ^ N)

/-- The precondition of construction: the modulus range and x < 2n (R234). -/
def brnewOk (N x n : Nat) : Bool := modulusInRange N n && decide (x < 2 * n)

/-- q = ⌊(R²/2) / m⌋ (R233). -/
def barrettQ (N m : Nat) : Nat := 2 ^ (2 * N - 1) / m

/-- r = (R²/2) mod m (R233). -/
def barrettR (N m : Nat) : Nat := 2 ^ (2 * N - 1) % m

/-- The same construction by the narrowing division, `(q − R, r) = ndiv_N((R/2 − m)·R, m)` (R233). -/
def barrettByNdiv (N m : Nat) : Option (Nat × Nat) :=
  (ndiv N ((2 ^ (N - 1) - m) * 2 ^ N) m).map (fun p => (p.1 + 2 ^ N, p.2))

/-- The estimate u of a step: the top k+1 bits of the accumulator (R242). -/
def stepEstimate (N k num : Nat) : Nat := num / 2 ^ (2 * N - k - 1)

/-- The reduction step, 0 ≤ k < N: `((lo_2N(NUM << (k+1))) >> 1) + u·r` (R242). -/
def reduceStep (N k num r : Nat) : Nat :=
  loPart (2 * N) (num * 2 ^ (k + 1)) / 2 + stepEstimate N k num * r

/-- The partial remainder `(m·u + R − 1) >> N` with `u = hi_N(NUM)` (R237). -/
def partialRemainder (N m num : Nat) : Nat := (m * hiPart N num + 2 ^ N - 1) / 2 ^ N

/-- The reducer constructed from the format, the start value and the modulus (R234). -/
def newReducer (F : Fmt) (x n : Nat) : Reducer :=
  let m := 2 * n
  let q := barrettQ F.width m
  { num := BitVec.ofNat 256 (2 * x * q)
    div := BitVec.ofNat 128 m
    quo := BitVec.ofNat 129 q
    rem := BitVec.ofNat 128 (barrettR F.width m)
    fmt := F
    valid := true }

/-- The reducer after a step by k bits: only `NUM` changes (R242, R243). -/
def stepReducer (k : Nat) (b : Reducer) : Reducer :=
  { b with num := BitVec.ofNat 256 (reduceStep b.fmt.width k b.num.toNat b.rem.toNat) }

/-- The value extraction returns (R237, R245). -/
def extractRemainder (b : Reducer) : Word :=
  BitVec.ofNat 128 (partialRemainder b.fmt.width b.div.toNat b.num.toNat)

/-- The reducer after extraction: `BR.VALID <- 0`, `FMT` keeps its value (R245); the contents of the other four are
unspecified while `VALID` = 0 (10_state.md R27), free values, log 5. -/
def discardReducer (k : Nat) (b : Reducer) : Reducer :=
  { num := Config.freeNum k
    div := Config.freeDiv k
    quo := Config.freeQuo k
    rem := Config.freeRem k
    fmt := b.fmt
    valid := false }

/-- `BR <- b`. -/
def setBr (b : Reducer) (s : State) : State := { s with br := b }

/-- Discard the reducer of a state and use one index of free values (log 5). -/
def discardBr (s : State) : State :=
  { s with br := discardReducer s.fresh s.br, fresh := s.fresh + 1 }

/-- `BRNEW.fmt xa, xb` (R234): `CONTRACT` outside the range, else construct; a live reducer is replaced. -/
def execBrnew (F : Fmt) (ra rb : RegNum) (s : State) : Out :=
  let x := (operand F s ra).toNat
  let n := (operand F s rb).toNat
  serve s (checked (brnewOk F.width x n) s (respond 0 .ok (setBr (newReducer F x n) s)))

/-- `BRWRD`: the step with k = N − 1; `CONTRACT` when no reducer is valid (R240). -/
def execBrwrd (s : State) : Out :=
  serve s (checked s.br.valid s (respond 0 .ok (setBr (stepReducer (s.br.fmt.width - 1) s.br) s)))

/-- `BRSHR k`: the step with k; `CONTRACT` when no reducer is valid or k ≥ N (R241). -/
def execBrshr (k : Nat) (s : State) : Out :=
  serve s (checked (s.br.valid && decide (k < s.br.fmt.width)) s
    (respond 0 .ok (setBr (stepReducer k s.br) s)))

/-- `BRREM xd`: extract the partial remainder and end the reducer's life; `CONTRACT` when no reducer is valid (R245). -/
def execBrrem (rd : RegNum) (s : State) : Out :=
  serve s (checked s.br.valid s (finish rd (extractRemainder s.br) .ok (discardBr s)))

/-! MODSHL. -/

/-- The precondition of `MODSHL`: y ≠ 0, y ≤ (R−1) >> 2 and x < 2y (R250). -/
def modshlOk (N x y : Nat) : Bool := decide (y ≠ 0) && decide (y ≤ (2 ^ N - 1) / 4) && decide (x < 2 * y)

/-- 2^e mod y, by halving the exponent; `fuel` bounds its number of bits. -/
def powTwoMod (y : Nat) : Nat → Nat → Nat
  | 0, _ => 1 % y
  | fuel + 1, e =>
    let h := powTwoMod y fuel (e / 2)
    if e % 2 = 1 then h * h * 2 % y else h * h % y

/-- The result contract of `MODSHL`: (x·2^e) mod y for a 32-bit e (R250). Written so that it can be evaluated for the
largest e; Laws/Barrett.lean proves it is (x·2^e) mod y. -/
def modshl (x e y : Nat) : Nat := x * powTwoMod y 32 e % y

/-- The `word_reduce` loop on the exponent and the accumulator, `while e' ≥ N − 1` (R253); `fuel` bounds the passes. -/
def wordReduceLoop (N r : Nat) : Nat → Nat → Nat → Nat × Nat
  | 0, e, num => (e, num)
  | fuel + 1, e, num =>
    if N - 1 ≤ e then wordReduceLoop N r fuel (e - (N - 1)) (reduceStep N (N - 1) num r) else (e, num)

/-- The number of `word_reduce` steps of the loop (R253, R254). -/
def wordReduceCount (N : Nat) : Nat → Nat → Nat
  | 0, _ => 0
  | fuel + 1, e => if N - 1 ≤ e then wordReduceCount N fuel (e - (N - 1)) + 1 else 0

/-- The datapath of the public entry point (R251 to R253): the mask for a power-of-two modulus, else the normalization
shift, a private reducer, `word_reduce` steps, one `shift_reduce`, extraction, one conditional subtraction, the shift
undone. -/
def modshlDatapath (N x e y : Nat) : Nat :=
  if y &&& (y - 1) = 0 then
    if e < N then loPart N (x * 2 ^ e) &&& (y - 1) else 0
  else
    let s := clz N y - 2
    let y' := y * 2 ^ s
    let m := 2 * y'
    let r := barrettR N m
    let w := wordReduceLoop N r (e + s) (e + s) (2 * x * barrettQ N m)
    let p := partialRemainder N m (reduceStep N w.1 w.2 r)
    (if y' ≤ p then p - y' else p) / 2 ^ s

/-- `MODSHL.fmt xd, xa, xb, xc` (R250): `CONTRACT` when the precondition fails; `BR` is neither read nor written. -/
def execModshl (F : Fmt) (rd ra rb rc : RegNum) (s : State) : Out :=
  let x := (operand F s ra).toNat
  let y := (operand F s rb).toNat
  let e := shiftOperand s rc
  serve s (checked (modshlOk F.width x y) s (finish rd (BitVec.ofNat 128 (modshl x e y)) .ok s))

/-! FMOD. -/

/-- Rows 1 to 6 of R257, in order; none for row 7. -/
def fmodSpecial {F : Fmt} (a b : Pat F) : Option (Pat F) :=
  if isNaN a then some (quiet a)
  else if isNaN b then some (quiet b)
  else if isInf a || isZero b then some (qnan F)
  else if isInf b then some a
  else if isZero a then some a
  else if units a < units b then some a
  else none

/-- `fmod_F(a, b)` (R257). Row 7: ρ = |a| − ⌊|a|/|b|⌋·|b| in units, the zero with the sign of a when ρ = 0, else the pattern
of value ρ with that sign, which needs no rounding. -/
def fmodPat {F : Fmt} (a b : Pat F) : Pat F :=
  match fmodSpecial a b with
  | some r => r
  | none =>
    let rho := units a % units b
    if rho = 0 then signedZero F (signOf a) else rne F (signOf a) rho 1

/-- `sigexp(u)` = (g, h) with value g·2^h·2^(1−B−S) (R258). -/
def sigExp {F : Fmt} (p : Pat F) : Nat × Nat :=
  if expf p = 0 then (sig p, 0) else (2 ^ F.sigBits + sig p, expf p - 1)

/-- The pattern of `rem·2^ey` units with sign s (R259). -/
def packRemainder (F : Fmt) (s : Bool) (rem ey : Nat) : Pat F :=
  if rem = 0 then signedZero F s
  else
    let z := min (clz F.width rem - F.expBits) ey
    signedZero F s ||| BitVec.ofNat F.width ((ey - z) * 2 ^ F.sigBits + rem * 2 ^ z)

/-- The datapath of row 7 (R258, R259): both operands decomposed without renormalizing, the integer remainder by the
datapath of `MODSHL`, the remainder packed. -/
def fmodDatapath {F : Fmt} (a b : Pat F) : Pat F :=
  let na := sigExp a
  let nb := sigExp b
  packRemainder F (signOf a) (modshlDatapath F.width (na.1 % nb.1) (na.2 - nb.2) nb.1) nb.2

/-- `FMOD.fmt xd, xa, xb` (R256): no flag, no fault, `BR` is not touched. -/
def execFmod (F : Fmt) (rd ra rb : RegNum) (s : State) : Out :=
  serve s (finish rd (zext128 (fmodPat (operand F s ra) (operand F s rb))) .ok s)

end Sys2Proof.Machine
end

