-- ==== Sys2Proof/Machine/Divide.lean ====
section
/-! DEFINITION. The division kernel DIV: the result contract the machine runs (43_divide.md R190 to R193; R194 makes it the
architectural definition) and, beside it, the Newton-Raphson datapath with its parameters as an argument (R195 to R213). -/

namespace Sys2Proof.Machine

/-- The special categories, in priority order; none for finite non-zero operands (R192). -/
def divSpecial {F : Fmt} (a b : Pat F) : Option (Pat F) :=
  let qs := signOf a != signOf b
  if isNaN a then some (quiet a)
  else if isNaN b then some (quiet b)
  else if isInf a && isInf b then some (qnan F)
  else if isInf a then some (signedInf F qs)
  else if isInf b then some (signedZero F qs)
  else if isZero a && isZero b then some (qnan F)
  else if isZero a then some (signedZero F qs)
  else if isZero b then some (signedInf F qs)
  else none

/-- `div_F(a, b)` (R191): the special categories, else `RNE_F(qs, |val(a)| / |val(b)|)`. The quotient of two numbers of
units is a value, which is that many times the number of units in 1. -/
def divPat {F : Fmt} (a b : Pat F) : Pat F :=
  match divSpecial a b with
  | some r => r
  | none => rne F (signOf a != signOf b) (units a * unitsOfOne F) (units b)

/-- One Newton-Raphson iteration at width V with divisor word d: `corr = 2^V − ((x·d) >> V)`,
`x <- min((x·corr) >> (V−1), 2^V − 1)` (R200, R202). -/
def newtonStep (V d x : Nat) : Nat :=
  let corr := 2 ^ V - wmul x d / 2 ^ V
  min (wmul x corr / 2 ^ (V - 1)) (2 ^ V - 1)

/-- k iterations at width V (R203). -/
def newtonSteps (V d : Nat) : Nat → Nat → Nat
  | 0, x => x
  | k + 1, x => newtonSteps V d k (newtonStep V d x)

/-- The initial estimate at width V: `lo_V((DIV_C >> (128−V)) − d)`, the one intended wrap (R199). -/
def initialEstimate (V d : Nat) : Nat := (divC / 2 ^ (128 - V) + 2 ^ V - d) % 2 ^ V

/-- The reciprocal word x after the schedule: the estimate at the starting width, the half-width iterations, the
widening if there were any, the full-width iterations (R196, R197, R199 to R203). -/
def reciprocal (F : Fmt) (P : DivParams) (sb : Nat) : Nat :=
  let W := F.width
  let HW := W / 2
  let b := sb * 2 ^ (W - F.sigBits - 1)
  let x :=
    if P.half = 0 then initialEstimate W b
    else newtonSteps HW (b / 2 ^ HW) P.half (initialEstimate HW (b / 2 ^ HW)) * 2 ^ HW
  newtonSteps W b P.full x

/-- The quotient estimate ⌊x·2·sa / 2^W⌋ from the decremented reciprocal (R206, R207). -/
def quotientEstimate (F : Fmt) (P : DivParams) (sa sb : Nat) : Nat :=
  wmul (reciprocal F P sb - P.bound) (sa * 2) / 2 ^ F.width

/-- The correction loop: while `rem2 + (res & 1) > cmp` and `res < INF`, `res + 1` and `rem2 − 2·cmp` (R212, R213). The
fuel is a number of passes that suffices, since rem2 falls by 2·cmp in each. -/
def correct (F : Fmt) (cmp : Int) : Nat → Nat → Int → Nat
  | 0, res, _ => res
  | fuel + 1, res, rem2 =>
    if cmp < rem2 + (res % 2 : Nat) ∧ res < (infPat F).toNat then correct F cmp fuel (res + 1) (rem2 - 2 * cmp)
    else res

/-- The number of passes the correction loop takes (R213: at most `DIV_K`). -/
def correctionPasses (F : Fmt) (cmp : Int) : Nat → Nat → Int → Nat
  | 0, _, _ => 0
  | fuel + 1, res, rem2 =>
    if cmp < rem2 + (res % 2 : Nat) ∧ res < (infPat F).toNat then
      correctionPasses F cmp fuel (res + 1) (rem2 - 2 * cmp) + 1
    else 0

/-- What the correction loop starts from (R208 to R211): a result that needs no loop, or `res`, `rem2` and `cmp`. -/
inductive DivStage (F : Fmt) where
  | done (r : Pat F)
  | loop (res : Nat) (rem2 cmp : Int)
  deriving DecidableEq, Repr

/-- Normalization, overflow, the normal range and underflow (R195, R208 to R211). -/
def divStage {F : Fmt} (P : DivParams) (a b : Pat F) : DivStage F :=
  let S := F.sigBits
  let qs := signOf a != signOf b
  let ua := unpack a
  let ub := unpack b
  let sa := ua.2
  let sb := ub.2
  let q0 := quotientEstimate F P sa sb
  let low := decide (q0 < 2 ^ (S + 1))
  let re : Int := if low then ua.1 - ub.1 + F.bias - 1 else ua.1 - ub.1 + F.bias
  let num := if low then sa * 2 ^ (S + 1) else sa * 2 ^ S
  let q := if low then q0 else q0 / 2
  if (F.expSat : Int) ≤ re then .done (signedInf F qs)
  else if 0 < re then
    .loop (q % 2 ^ S + re.toNat * 2 ^ S) (2 * ((num : Int) - (q : Int) * sb)) sb
  else if (S : Int) + re < 0 then .done (signedZero F qs)
  else
    let sh := (1 - re).toNat
    let res := q / 2 ^ sh
    .loop res (2 * (num : Int) - (res : Int) * sb * 2 ^ (sh + 1)) ((sb : Int) * 2 ^ sh)

/-- The Newton-Raphson datapath on finite non-zero operands (R195 to R213): the corrected result with the quotient's
sign. -/
def divDatapath {F : Fmt} (P : DivParams) (a b : Pat F) : Pat F :=
  match divStage P a b with
  | .done r => r
  | .loop res rem2 cmp =>
    signedZero F (signOf a != signOf b) ||| BitVec.ofNat F.width (correct F cmp (rem2.toNat + 1) res rem2)

/-- The datapath with its correction loop unrolled: at most `DIV_K` passes are built (R213). It is the datapath where
`DIV_K` bounds the passes of the loop, the constraint 92_eei_decisions.md D19 puts on the parameter. -/
def divDatapathUnrolled {F : Fmt} (P : DivParams) (a b : Pat F) : Pat F :=
  match divStage P a b with
  | .done r => r
  | .loop res rem2 cmp => signedZero F (signOf a != signOf b) ||| BitVec.ofNat F.width (correct F cmp P.passes res rem2)

/-- The correction passes the datapath takes (R213). -/
def divPasses {F : Fmt} (P : DivParams) (a b : Pat F) : Nat :=
  match divStage P a b with
  | .done _ => 0
  | .loop res rem2 cmp => correctionPasses F cmp (rem2.toNat + 1) res rem2

/-- `DIV.fmt xd, xa, xb` (R190): no status, `FSR.NX` is not written, no fault on a zero divisor. -/
def execDiv (F : Fmt) (rd ra rb : RegNum) (s : State) : Out :=
  serve s (finish rd (zext128 (divPat (operand F s ra) (operand F s rb))) .ok s)

end Sys2Proof.Machine
end

