-- ==== Sys2Proof/Machine/Multiply.lean ====
section
/-! DEFINITION. The multiplication kernel MUL: the result contract the machine runs (42_multiply.md R170 to R173) and,
beside it, the datapath (R174 to R181). -/

namespace Sys2Proof.Machine

/-- The special categories, in priority order, the first row that holds; none for finite non-zero operands (R172). -/
def mulSpecial {F : Fmt} (a b : Pat F) : Option (Pat F) :=
  let ps := signOf a != signOf b
  if isNaN a then some (quiet a)
  else if isNaN b then some (quiet b)
  else if (isInf a && isZero b) || (isZero a && isInf b) then some (qnan F)
  else if isInf a || isInf b then some (signedInf F ps)
  else if isZero a || isZero b then some (signedZero F ps)
  else none

/-- `mul_F(a, b)` (R171): the special categories, else `RNE_F(ps, |val(a)|·|val(b)|)`. The exact product of two numbers of
units is that many units divided by the number of units in 1. -/
def mulPat {F : Fmt} (a b : Pat F) : Pat F :=
  match mulSpecial a b with
  | some r => r
  | none => rne F (signOf a != signOf b) (units a * units b) (unitsOfOne F)

/-- Step 8, round on the discarded fraction `lo` in units of 2^-W of the last place (R181). -/
def roundLow (F : Fmt) (hi lo : Nat) : Nat :=
  if 2 ^ (F.width - 1) < lo then hi + 1
  else if lo = 2 ^ (F.width - 1) then hi + hi % 2
  else hi

/-- The datapath on finite non-zero operands (R174 to R181): unpack, widening multiply with b pre-shifted by E, combined
exponent, normalize by one bit, overflow, underflow with one sticky bit, pack, round. -/
def mulDatapath {F : Fmt} (a b : Pat F) : Pat F :=
  let W := F.width
  let S := F.sigBits
  let ps := signOf a != signOf b
  let ua := unpack a
  let ub := unpack b
  let prod := wmul ua.2 (ub.2 * 2 ^ F.expBits)
  let hi0 := hiPart W prod
  let lo0 := loPart W prod
  let pe0 : Int := ua.1 + ub.1 - F.bias
  let top := hi0.testBit S
  let pe : Int := if top then pe0 + 1 else pe0
  let hi := if top then hi0 else loPart W (hi0 * 2 ||| lo0 / 2 ^ (W - 1))
  let lo := if top then lo0 else loPart W (lo0 * 2)
  if (F.expSat : Int) ≤ pe then signedInf F ps
  else if pe ≤ 0 then
    let shift := (1 - pe).toNat
    if W ≤ shift then signedZero F ps
    else
      let sticky := if lo % 2 ^ shift ≠ 0 then 1 else 0
      let lo' := loPart W (hi * 2 ^ (W - shift)) ||| lo / 2 ^ shift ||| sticky
      signedZero F ps ||| BitVec.ofNat W (roundLow F (hi / 2 ^ shift) lo')
  else
    let packed := hi % 2 ^ S + pe.toNat * 2 ^ S
    signedZero F ps ||| BitVec.ofNat W (roundLow F packed lo)

/-- `MUL.fmt xd, xa, xb` (R170): no status, `FSR.NX` is not written. -/
def execMul (F : Fmt) (rd ra rb : RegNum) (s : State) : Out :=
  serve s (finish rd (zext128 (mulPat (operand F s ra) (operand F s rb))) .ok s)

end Sys2Proof.Machine
end

