-- ==== Sys2Proof/Machine/Binary64.lean ====
section
/-! DEFINITION. The binary64 operations inside `REMPIO2`, each the exact result rounded once to nearest even
(40_format_and_integer_primitives.md R118, R119). They are applied to finite patterns only (45_rem_pio2.md R296). -/

namespace Sys2Proof

/-- The signed value of a finite binary64 pattern in units of 2^(1−B−S) (R105). -/
def signedUnits (p : Pat .f64) : Int := if signOf p then -(units p : Int) else units p

/-- The exact non-zero value t/d units rounded to binary64, with the sign of t (R118). -/
def roundSigned (t : Int) (d : Nat) : Pat .f64 := rne .f64 (decide (t < 0)) t.natAbs d

/-- `fmul64(a, b)` (R118). -/
def fmul64 (a b : Pat .f64) : Pat .f64 :=
  let s := signOf a != signOf b
  if units a * units b = 0 then signedZero .f64 s
  else rne .f64 s (units a * units b) (unitsOfOne .f64)

/-- `fadd64(a, b)`: an exact zero sum is −0 when both addends have sign 1, and +0 otherwise (R118). -/
def fadd64 (a b : Pat .f64) : Pat .f64 :=
  let t := signedUnits a + signedUnits b
  if t = 0 then signedZero .f64 (signOf a && signOf b) else roundSigned t 1

/-- Flip the sign bit. -/
def negate64 (a : Pat .f64) : Pat .f64 := a ^^^ signMask .f64

/-- `fsub64(a, b)` = `fadd64(a, b xor SIGN_MASK)` (R118). -/
def fsub64 (a b : Pat .f64) : Pat .f64 := fadd64 a (negate64 b)

/-- `fma64(a, b, c)`: val(a)·val(b) + val(c) exactly, rounded once (R118). -/
def fma64 (a b c : Pat .f64) : Pat .f64 :=
  let t := signedUnits a * signedUnits b + signedUnits c * unitsOfOne .f64
  if t = 0 then signedZero .f64 ((signOf a != signOf b) && signOf c)
  else roundSigned t (unitsOfOne .f64)

/-- `f64_of_int(k)`: the pattern of value k, exact for |k| ≤ 2^53, +0 for k = 0 (R119). -/
def f64OfInt (k : Int) : Pat .f64 :=
  if k = 0 then 0 else roundSigned (k * unitsOfOne .f64) 1

/-- `int_of_f64(p)`: the integer that is the value of p, used only on integer values below 2^31 in magnitude (R119). -/
def intOfF64 (p : Pat .f64) : Int := (signedUnits p).tdiv (unitsOfOne .f64)

end Sys2Proof
end

