-- ==== Sys2Proof/Machine/RemPio2.lean ====
section
/-! DEFINITION. Trigonometric argument reduction REMPIO2, binary64 only (45_rem_pio2.md R270 to R298). The parameters `TRG_*`
and the collaborator `LRR` are arguments of the functions. -/

namespace Sys2Proof.Machine

/-- The three results `(n, y0, y1)`: n a signed 32-bit integer (R270, R271). -/
structure Reduction where
  n  : BitVec 32
  y0 : BitVec 64
  y1 : BitVec 64
  deriving DecidableEq, Repr

/-- `ix` = p[62:32], the high word without the sign, as an unsigned integer (R273). -/
def highWord (p : Pat .f64) : Nat := (p.extractLsb' 32 31).toNat

/-- The regimes of R273. -/
inductive Regime where
  | nonFinite
  | small
  | direct (k : Nat)
  | medium
  | large
  deriving DecidableEq, Repr

/-- Regime selection: the first row of R273 that holds. -/
def regimeOf (T : TrigParams) (ix : Nat) : Regime :=
  if 0x7FF00000 ≤ ix then .nonFinite
  else if ix ≤ T.quarter1 then .small
  else if ix ≤ T.quarter5 ∧ ix % 2 ^ 20 = 0x921FB then .medium
  else if ix ≤ T.quarter3 then .direct 1
  else if ix ≤ T.quarter5 then .direct 2
  else if ix = T.quarter6 then .medium
  else if ix ≤ T.quarter7 then .direct 3
  else if ix = T.quarter8 then .medium
  else if ix ≤ T.quarter9 then .direct 4
  else if ix < T.largeMin then .medium
  else .large

/-- Infinity and NaN (R275). -/
def reduceNonFinite (p : Pat .f64) : Reduction :=
  let y := if isNaN p then quiet p else qnan .f64
  { n := 0, y0 := y, y1 := y }

/-- Small regime: x itself, y1 = +0 (R274). -/
def reduceSmall (p : Pat .f64) : Reduction := { n := 0, y0 := p, y1 := 0 }

/-- Direct regime for k in 1 to 4 (R277). -/
def reduceDirect (T : TrigParams) (k : Nat) (p : Pat .f64) : Reduction :=
  let k1 := fmul64 (f64OfInt k) T.pio2_1
  let k1t := fmul64 (f64OfInt k) T.pio2_1t
  if signOf p then
    let z := fadd64 p k1
    let y0 := fadd64 z k1t
    { n := BitVec.ofInt 32 (-(k : Int)), y0 := y0, y1 := fadd64 (fsub64 z y0) k1t }
  else
    let z := fsub64 p k1
    let y0 := fsub64 z k1t
    { n := BitVec.ofInt 32 k, y0 := y0, y1 := fsub64 (fsub64 z y0) k1t }

/-- `fn`, the quadrant as a binary64 integer, fused or not (R283). -/
def quadrant (T : TrigParams) (p : Pat .f64) : Pat .f64 :=
  let tmp := if T.fused then fma64 p T.invPio2 T.toInt else fadd64 (fmul64 p T.invPio2) T.toInt
  fsub64 tmp T.toInt

/-- The working values of the medium regime: r, w and y0 of the last level engaged. -/
structure Level where
  r  : Pat .f64
  w  : Pat .f64
  y0 : Pat .f64
  deriving DecidableEq, Repr

/-- First level (R284). -/
def level1 (T : TrigParams) (p fn : Pat .f64) : Level :=
  let r := fsub64 p (fmul64 fn T.pio2_1)
  let w := fmul64 fn T.pio2_1t
  { r := r, w := w, y0 := fsub64 r w }

/-- The next level from the previous one, with a limb of π/2 and its tail (R285, R286). -/
def nextLevel (limb tail fn : Pat .f64) (l : Level) : Level :=
  let t := l.r
  let w := fmul64 fn limb
  let r := fsub64 t w
  let w' := fsub64 (fmul64 fn tail) (fsub64 (fsub64 t r) w)
  { r := r, w := w', y0 := fsub64 r w' }

/-- `ex − ey > gap`, the signed comparison of R285 and R286. -/
def cancelled (ex gap : Nat) (y0 : Pat .f64) : Bool := decide ((gap : Int) < (ex : Int) - expf y0)

/-- Second level (R285). -/
def level2 (T : TrigParams) (p fn : Pat .f64) : Level := nextLevel T.pio2_2 T.pio2_2t fn (level1 T p fn)

/-- Third level (R286). -/
def level3 (T : TrigParams) (p fn : Pat .f64) : Level := nextLevel T.pio2_3 T.pio2_3t fn (level2 T p fn)

/-- The number of levels engaged: the second when the gap exceeds 16, the third, only inside the second, when it exceeds 49
(R284 to R286). -/
def levelsEngaged (T : TrigParams) (p fn : Pat .f64) : Nat :=
  let ex := highWord p / 2 ^ 20
  if cancelled ex 16 (level1 T p fn).y0 then
    if cancelled ex 49 (level2 T p fn).y0 then 3 else 2
  else 1

/-- The last level engaged (R287). -/
def lastLevel (T : TrigParams) (p fn : Pat .f64) : Level :=
  match levelsEngaged T p fn with
  | 3 => level3 T p fn
  | 2 => level2 T p fn
  | _ => level1 T p fn

/-- Medium regime: quadrant, levels, tail `y1 = (r ⊖ y0) ⊖ w` (R280 to R287). -/
def reduceMedium (T : TrigParams) (p : Pat .f64) : Reduction :=
  let fn := quadrant T p
  let l := lastLevel T p fn
  { n := BitVec.ofInt 32 (intOfF64 fn), y0 := l.y0, y1 := fsub64 (fsub64 l.r l.y0) l.w }

/-- M = sig(p) | `IMPLICIT`, the 53-bit significand (R290). -/
def fullSignificand (p : Pat .f64) : Nat := 2 ^ 52 + sig p

/-- `nx`: trailing zero digits are dropped, the first never is (R291). -/
def digitCount (tx1 tx2 : Nat) : Nat := if tx2 ≠ 0 then 3 else if tx1 ≠ 0 then 2 else 1

/-- The LRR request of a large-regime operand: digits, count, exponent offset `(ix >> 20) − 1046` (R290 to R292). -/
def lrrRequestOf (p : Pat .f64) : LrrRequest :=
  let m := fullSignificand p
  let tx0 := m / 2 ^ 29
  let tx1 := m / 2 ^ 5 % 2 ^ 24
  let tx2 := m % 2 ^ 5 * 2 ^ 19
  { nx := digitCount tx1 tx2
    tx0 := BitVec.ofNat 24 tx0
    tx1 := BitVec.ofNat 24 tx1
    tx2 := BitVec.ofNat 24 tx2
    e0 := BitVec.ofInt 12 ((highWord p / 2 ^ 20 : Nat) - (1046 : Int)) }

/-- The collaborator's answer with the sign of x applied; −nl in signed 32-bit arithmetic (R293). -/
def applySign (s : Bool) (a : LrrResponse) : Reduction :=
  if s then { n := -a.n, y0 := negate64 a.ty0, y1 := negate64 a.ty1 }
  else { n := a.n, y0 := a.ty0, y1 := a.ty1 }

/-- `rem_pio2(p)` with the parameters and the collaborator as arguments: the three results, and the request put on the LRR
port, one in the large regime and none in the others (R271, R273, R292). -/
def remPio2 (T : TrigParams) (lrr : LrrRequest → LrrResponse) (p : Pat .f64) : Reduction × Option LrrRequest :=
  match regimeOf T (highWord p) with
  | .nonFinite => (reduceNonFinite p, none)
  | .small => (reduceSmall p, none)
  | .direct k => (reduceDirect T k p, none)
  | .medium => (reduceMedium T p, none)
  | .large => (applySign (signOf p) (lrr (lrrRequestOf p)), some (lrrRequestOf p))

/-- Put a request on the LRR port, or none (10_state.md R31). -/
def setLrr (q : Option LrrRequest) (s : State) : State := { s with lrrReq := q }

/-- `REMPIO2 xd, xa` (R271): y0 to `x[rd]`, y1 to `x[(rd+1) mod 8]`, n sign-extended to `x[(rd+2) mod 8]`, all after the
operand is read; `respond(zext_128(y0), OK)`. The parameters `TRG_*` are the state's (log 7). -/
def execRempio2 (rd ra : RegNum) (s : State) : Out :=
  let r := remPio2 s.trig Config.lrr (operand .f64 s ra)
  serve s (respond (zext128 r.1.y0) .ok
    (writeX (rd + 2) (sext128 r.1.n) (writeX (rd + 1) (zext128 r.1.y1) (writeX rd (zext128 r.1.y0) (setLrr r.2 s)))))

end Sys2Proof.Machine
end

