-- ==== Sys2Proof/Machine/Rounding.lean ====
section
/-! DEFINITION. The rounding commands CEIL, FLOOR, TRUNC, ROUND, ROUNDEVEN: one mask algorithm with a halfway detection
(41_rounding.md R140 to R154). -/

namespace Sys2Proof.Machine

/-- The five rounding primitives. -/
inductive RoundOp where
  | ceil
  | floor
  | trunc
  | round
  | roundeven
  deriving DecidableEq, Repr

/-- Step 1, `e = expf(p) − B`, whatever the category (R141). -/
def unbiasedExp {F : Fmt} (p : Pat F) : Int := (expf p : Int) - F.bias

/-- +1 or −1 of format F (R143). -/
def signedOne (F : Fmt) (s : Bool) : Pat F := signedZero F s ||| onePat F

/-- The table of R143 for 0 < |val(p)| < 1: does the result have magnitude 1 (else it is the zero of sign s). `half` says
e = −1 (|val| ≥ 1/2), `above` says sig(p) ≠ 0. -/
def oneBelowOne (op : RoundOp) (s half above : Bool) : Bool :=
  match op with
  | .trunc => false
  | .ceil => !s
  | .floor => s
  | .round => half
  | .roundeven => half && above

/-- Step 4, `mask = SIG_MASK >> e` (R144). -/
def fracMask (F : Fmt) (e : Nat) : Pat F := sigMask F >>> e

/-- Step 6, `down = p & ~mask`: the integral value next toward zero (R146). -/
def roundDown {F : Fmt} (p : Pat F) (e : Nat) : Pat F := p &&& ~~~fracMask F e

/-- Step 6, `up = lo_W(p + mask) & ~mask`: the integral value next away from zero (R146). -/
def roundUp {F : Fmt} (p : Pat F) (e : Nat) : Pat F := (p + fracMask F e) &&& ~~~fracMask F e

/-- Which neighbour a command takes in step 6, from the sign, the fraction, one half of R147 and the lowest retained bit
(R150 to R154). -/
def takesUp (op : RoundOp) (s : Bool) (frac half : Nat) (odd : Bool) : Bool :=
  match op with
  | .ceil => !s
  | .floor => s
  | .trunc => false
  | .round => decide (half ≤ frac)
  | .roundeven => decide (half < frac) || (decide (frac = half) && odd)

/-- `op(x) -> (result, status)`: steps 2 to 6 (R142 to R147). -/
def roundPat {F : Fmt} (op : RoundOp) (p : Pat F) : Pat F × Status :=
  let e := unbiasedExp p
  let s := signOf p
  if (F.sigBits : Int) ≤ e then (p, .ok)
  else if e < 0 then
    if isZero p then (p, .ok)
    else if oneBelowOne op s (decide (e = -1)) (decide (sig p ≠ 0)) then (signedOne F s, .inexact)
    else (signedZero F s, .inexact)
  else
    let k := e.toNat
    let frac := (p &&& fracMask F k).toNat
    if frac = 0 then (p, .ok)
    else if takesUp op s frac (2 ^ (F.sigBits - k - 1)) (p.getLsbD (F.sigBits - k)) then (roundUp p k, .inexact)
    else (roundDown p k, .inexact)

/-- How a rounding command ends: `x[rd] <- zext_128(result); FSR.NX <- FSR.NX | status; respond(zext_128(result),
status)` (R140). -/
def execRounding (op : RoundOp) (F : Fmt) (rd ra : RegNum) (s : State) : Out :=
  let r := roundPat op (operand F s ra)
  serve s (finish rd (zext128 r.1) r.2 (accrue r.2 s))

/-- `CEIL.fmt xd, xa` (R150). -/
def execCeil (F : Fmt) (rd ra : RegNum) (s : State) : Out := execRounding .ceil F rd ra s

/-- `FLOOR.fmt xd, xa` (R151). -/
def execFloor (F : Fmt) (rd ra : RegNum) (s : State) : Out := execRounding .floor F rd ra s

/-- `TRUNC.fmt xd, xa` (R152). -/
def execTrunc (F : Fmt) (rd ra : RegNum) (s : State) : Out := execRounding .trunc F rd ra s

/-- `ROUND.fmt xd, xa` (R153). -/
def execRound (F : Fmt) (rd ra : RegNum) (s : State) : Out := execRounding .round F rd ra s

/-- `ROUNDEVEN.fmt xd, xa` (R154). -/
def execRoundeven (F : Fmt) (rd ra : RegNum) (s : State) : Out := execRounding .roundeven F rd ra s

end Sys2Proof.Machine
end

