-- ==== Sys2Proof/Machine/System.lean ====
section
/-! DEFINITION. The system commands NOP, WR, RD, MOV, RDST, CLRST (46_system_commands.md R311 to R316). -/

namespace Sys2Proof.Machine

/-- `NOP`: `respond(0, OK)` (R311). -/
def execNop (s : State) : Out := serve s (respond 0 .ok s)

/-- `WR xd, value`: `x[rd] <- wdata; respond(0, OK)` (R312). -/
def execWr (rd : RegNum) (s : State) : Out := serve s (respond 0 .ok (writeX rd s.wdata s))

/-- `RD xa`: `respond(x[ra], OK)` (R313). -/
def execRd (ra : RegNum) (s : State) : Out := serve s (respond (readX s ra) .ok s)

/-- `MOV xd, xa`: `x[rd] <- x[ra]; respond(x[ra], OK)` (R315). -/
def execMov (rd ra : RegNum) (s : State) : Out := serve s (finish rd (readX s ra) .ok s)

/-- `RDST`: `respond(zext_128(FSR), OK)` (R314). -/
def execRdst (s : State) : Out := serve s (respond (zext128 (fsr s)) .ok s)

/-- `CLRST`: `FSR.NX <- 0; respond(0, OK)` (R316). -/
def execClrst (s : State) : Out := serve s (respond 0 .ok (clearNx s))

end Sys2Proof.Machine
end

