-- ==== Sys2Proof/Machine/Dispatch.lean ====
section
/-! DEFINITION. The meaning of every instruction: one arm per constructor of Instr (30_encoding.md R74). -/

namespace Sys2Proof.Machine

-- The arms follow the order of 30_encoding.md R74.
def exec (i : Instr) (s : State) : Host.Outcome State Fault Refusal :=
  match i with
  | .nop => Sys2Proof.Machine.execNop s
  | .wr rd => Sys2Proof.Machine.execWr rd s
  | .rd ra => Sys2Proof.Machine.execRd ra s
  | .mov rd ra => Sys2Proof.Machine.execMov rd ra s
  | .rdst => Sys2Proof.Machine.execRdst s
  | .clrst => Sys2Proof.Machine.execClrst s
  | .ceil fmt rd ra => Sys2Proof.Machine.execCeil fmt rd ra s
  | .floor fmt rd ra => Sys2Proof.Machine.execFloor fmt rd ra s
  | .trunc fmt rd ra => Sys2Proof.Machine.execTrunc fmt rd ra s
  | .round fmt rd ra => Sys2Proof.Machine.execRound fmt rd ra s
  | .roundeven fmt rd ra => Sys2Proof.Machine.execRoundeven fmt rd ra s
  | .mul fmt rd ra rb => Sys2Proof.Machine.execMul fmt rd ra rb s
  | .div fmt rd ra rb => Sys2Proof.Machine.execDiv fmt rd ra rb s
  | .brnew fmt ra rb => Sys2Proof.Machine.execBrnew fmt ra rb s
  | .brwrd => Sys2Proof.Machine.execBrwrd s
  | .brshr k => Sys2Proof.Machine.execBrshr k s
  | .brrem rd => Sys2Proof.Machine.execBrrem rd s
  | .modshl fmt rd ra rb rc => Sys2Proof.Machine.execModshl fmt rd ra rb rc s
  | .fmod fmt rd ra rb => Sys2Proof.Machine.execFmod fmt rd ra rb s
  | .rempio2 rd ra => Sys2Proof.Machine.execRempio2 rd ra s

end Sys2Proof.Machine
end

