-- ==== Sys2Proof/Machine/Port.lean ====
section
/-! DEFINITION. The command port: taking one request and serving it, and the reset input (10_state.md R30, R32;
30_encoding.md R77, R83; 60_exceptions.md R331, R333; 70_reset_and_hazards.md R361). -/

namespace Sys2Proof.Machine

/-- Take a request: its write data is on the bus, the LRR port is idle (10_state.md R30, R31). -/
def acceptRequest (q : Request) (s : State) : State := { s with wdata := q.wdata, lrrReq := none }

/-- Serve a request: decode the word and run the instruction, or raise `Fault(ILLEGAL)` for a reserved encoding, before any
register is read (60_exceptions.md R331, R333). In the FAULTED state both answer the stored code (R335). -/
def serveRequest (run : Instr → State → Out) (q : Request) (s : State) : Out :=
  match decode q.cmd with
  | .ok i => run i (acceptRequest q s)
  | .error _ => serve (acceptRequest q s) (raiseFault illegalCode (acceptRequest q s))

/-- One event of the host: a request, or the reset input, which abandons a command it cuts (70_reset_and_hazards.md
R361). -/
def handleEvent (run : Instr → State → Out) (e : HostEvent) (s : State) : Out :=
  match e with
  | .request q => serveRequest run q s
  | .reset => .next (resetUnit s)
  | .requestCutByReset _ => .next (resetUnit s)

/-- The request the host presents for a command word numbered as spec/opcode_table.json numbers it, with the write data
that is on the bus. -/
def requestOfWord (nbits w : Nat) (s : State) : Request :=
  { cmd := BitVec.ofNat 32 (w % 2 ^ nbits), wdata := s.wdata }

end Sys2Proof.Machine
end

