-- ==== Sys2Proof/Machine/Step.lean ====
section
/-! DEFINITION. One step of the unit: the next event of the host, served to completion (00_scope.md R16, 20_memory.md R59,
70_reset_and_hazards.md R366). -/

namespace Sys2Proof.Machine

/-- One step. With no event waiting the unit is idle and keeps its whole state (60_exceptions.md R347). -/
def step (s : State) : Host.Outcome State Fault Refusal :=
  match s.inputs with
  | [] => .next s
  | e :: rest => handleEvent exec e { s with inputs := rest }

/-- `s` with the command word `w` as the host's next request, so that the next step runs it (log 3). -/
def State.withFetchWord (s : State) (nbits w : Nat) : State :=
  { s with inputs := .request (requestOfWord nbits w s) :: s.inputs }

end Sys2Proof.Machine
end

