-- ==== Sys2Proof/Machine/Exact.lean ====
section
/-! DEFINITION. The spec's exact arithmetic on rationals: the value of a pattern and rounding to a format, written as
40_format_and_integer_primitives.md R105 and R112 word them. The machine computes with whole numbers of units
(Format.lean); the contracts of the commands are stated with these. -/

namespace Sys2Proof

/-- `val_F(p)` of a finite pattern (R105). -/
def val {F : Fmt} (p : Pat F) : ℚ :=
  let mag : ℚ :=
    if expf p = 0 then (sig p : ℚ) * 2 ^ ((1 : ℤ) - F.bias - F.sigBits)
    else ((2 ^ F.sigBits + sig p : ℕ) : ℚ) * 2 ^ ((expf p : ℤ) - F.bias - F.sigBits)
  if signOf p then -mag else mag

/-- The integer nearest to q, the even one when q lies half-way between two (R112). -/
def nearestEvenRat (q : ℚ) : ℤ :=
  let f := ⌊q⌋
  if 1 / 2 < q - f ∨ (q - f = 1 / 2 ∧ f % 2 = 1) then f + 1 else f

/-- `RNE_F(s, q)` for an exact rational q > 0 (R112). -/
def rneExact (F : Fmt) (s : Bool) (q : ℚ) : Pat F :=
  let e : ℤ := max (Int.log 2 q) F.emin
  let m : ℤ := nearestEvenRat (q / 2 ^ (e - F.sigBits))
  let bits : ℤ := (e + F.bias - 1) * 2 ^ F.sigBits + m
  let bits' : ℤ := if ((infPat F).toNat : ℤ) ≤ bits then (infPat F).toNat else bits
  BitVec.ofInt F.width ((if s then 2 ^ (F.width - 1) else 0) + bits')

/-- `TRUNC`: sign·⌊|v|⌋; `FLOOR`: ⌊v⌋; `CEIL`: ⌈v⌉; `ROUND`: sign·⌊|v| + 1/2⌋; `ROUNDEVEN`: the integer nearest v, the even
one on a tie (41_rounding.md R157): the independent definition of the five rounding commands. -/
def roundedInteger (op : Machine.RoundOp) (v : ℚ) : ℤ :=
  match op with
  | .ceil => ⌈v⌉
  | .floor => ⌊v⌋
  | .trunc => if v < 0 then -⌊|v|⌋ else ⌊|v|⌋
  | .round => if v < 0 then -⌊|v| + 1 / 2⌋ else ⌊|v| + 1 / 2⌋
  | .roundeven => nearestEvenRat v

/-- `mul_F(a, b)` by the table of 42_multiply.md R172 and the exact product of R171. -/
def mulExact {F : Fmt} (a b : Pat F) : Pat F :=
  let ps := signOf a != signOf b
  let inf := (infPat F).toNat
  if inf < absOf a then a ||| quietBit F
  else if inf < absOf b then b ||| quietBit F
  else if (absOf a = inf ∧ absOf b = 0) ∨ (absOf a = 0 ∧ absOf b = inf) then qnan F
  else if absOf a = inf ∨ absOf b = inf then signedInf F ps
  else if absOf a = 0 ∨ absOf b = 0 then signedZero F ps
  else rneExact F ps (|val a| * |val b|)

/-- `div_F(a, b)` by the table of 43_divide.md R192 and the exact quotient of R191. -/
def divExact {F : Fmt} (a b : Pat F) : Pat F :=
  let qs := signOf a != signOf b
  let inf := (infPat F).toNat
  if inf < absOf a then a ||| quietBit F
  else if inf < absOf b then b ||| quietBit F
  else if absOf a = inf ∧ absOf b = inf then qnan F
  else if absOf a = inf then signedInf F qs
  else if absOf b = inf then signedZero F qs
  else if absOf a = 0 ∧ absOf b = 0 then qnan F
  else if absOf a = 0 then signedZero F qs
  else if absOf b = 0 then signedInf F qs
  else rneExact F qs (|val a| / |val b|)

/-- ρ = |val(a)| − t·|val(b)| with t = ⌊|val(a)| / |val(b)|⌋ (44_barrett.md R257). -/
def exactRemainder {F : Fmt} (a b : Pat F) : ℚ := |val a| - ⌊|val a| / |val b|⌋ * |val b|

/-- `fmod_F(a, b)` by the table of 44_barrett.md R257. -/
def fmodExact {F : Fmt} (a b : Pat F) : Pat F :=
  let inf := (infPat F).toNat
  if inf < absOf a then a ||| quietBit F
  else if inf < absOf b then b ||| quietBit F
  else if absOf a = inf ∨ absOf b = 0 then qnan F
  else if absOf b = inf then a
  else if absOf a = 0 then a
  else if |val a| < |val b| then a
  else if exactRemainder a b = 0 then signedZero F (signOf a)
  else rneExact F (signOf a) (exactRemainder a b)

end Sys2Proof
end

