-- ==== Sys2Proof/Machine/TrigConstraint.lean ====
section
/-! DEFINITION. The constraint on the OPEN parameters of `REMPIO2` (92_eei_decisions.md section 4): each constant and threshold is
the function of π that 45_rem_pio2.md R272 and R273 name, and the precision floors of R288. The state's parameters may be any
(log 7); a statement that needs the constraint has it as a premise. -/

namespace Sys2Proof.Machine

/-- p is the real r rounded to 53 bits: r lies in the binade of p and within half a unit in the last place of it. -/
def RoundedTo53 (p : Pat .f64) (r : ℝ) : Prop :=
  signOf p = false ∧ 0 < expf p ∧ expf p < 2047 ∧
    (2 : ℝ) ^ ((expf p : ℤ) - 1023) ≤ r ∧ r < (2 : ℝ) ^ ((expf p : ℤ) - 1022) ∧
    |(val p : ℝ) - r| ≤ (2 : ℝ) ^ ((expf p : ℤ) - 1023 - 53)

/-- h is the high word of the binary64 nearest r (R273). -/
def HighWordOf (h : Nat) (r : ℝ) : Prop := ∃ p : Pat .f64, RoundedTo53 p r ∧ h = highWord p

/-- The constants of R272 as functions of π: 2/π; the first, the second and the third 33 bits of π/2; what is left of π/2 after
each limb; 1.5 · 2^52. -/
def ConstantsOfPi (T : TrigParams) : Prop :=
  let c1 : ℝ := (val (F := .f64) T.pio2_1 : ℝ)
  let c2 : ℝ := (val (F := .f64) T.pio2_2 : ℝ)
  let c3 : ℝ := (val (F := .f64) T.pio2_3 : ℝ)
  RoundedTo53 T.invPio2 (2 / Real.pi) ∧
    c1 = ⌊Real.pi / 2 * 2 ^ 32⌋ / 2 ^ 32 ∧ RoundedTo53 T.pio2_1t (Real.pi / 2 - c1) ∧
    c1 + c2 = ⌊Real.pi / 2 * 2 ^ 65⌋ / 2 ^ 65 ∧ RoundedTo53 T.pio2_2t (Real.pi / 2 - c1 - c2) ∧
    c1 + c2 + c3 = ⌊Real.pi / 2 * 2 ^ 98⌋ / 2 ^ 98 ∧ RoundedTo53 T.pio2_3t (Real.pi / 2 - c1 - c2 - c3) ∧
    val (F := .f64) T.toInt = 3 / 2 * 2 ^ 52

/-- The thresholds of R273: the high word of the named multiple of π/4, that word plus one for 7π/4 and 9π/4, and 2^20·π/2 for
the large regime. -/
def ThresholdsOfPi (T : TrigParams) : Prop :=
  HighWordOf T.quarter1 (Real.pi / 4) ∧ HighWordOf T.quarter3 (3 * (Real.pi / 4)) ∧
    HighWordOf T.quarter5 (5 * (Real.pi / 4)) ∧ HighWordOf T.quarter6 (6 * (Real.pi / 4)) ∧
    (∃ h, T.quarter7 = h + 1 ∧ HighWordOf h (7 * (Real.pi / 4))) ∧ HighWordOf T.quarter8 (8 * (Real.pi / 4)) ∧
    (∃ h, T.quarter9 = h + 1 ∧ HighWordOf h (9 * (Real.pi / 4))) ∧ HighWordOf T.largeMin (2 ^ 20 * (Real.pi / 2))

/-- The floor that applies to an operand, in bits (R288): 85 when the direct regime or the first level alone ran, 118 when the
second level ran, 151 when the third ran; none for the infinite, the NaN and the huge. The small regime, whose result is exact,
falls under the lowest. -/
def floorBits (T : TrigParams) (p : Pat .f64) : Option Nat :=
  match regimeOf T (highWord p) with
  | .nonFinite => none
  | .small => some 85
  | .direct _ => some 85
  | .medium =>
    match levelsEngaged T p (quadrant T p) with
    | 3 => some 151
    | 2 => some 118
    | _ => some 85
  | .large => none

/-- The triple r meets the floor of the operand: |x − (n·π/2 + y0 + y1)| ≤ |x|·2^−bits, y0 and y1 finite (R288, R296). -/
def MeetsFloor (T : TrigParams) (p : Pat .f64) (r : Reduction) : Prop :=
  ∀ bits, floorBits T p = some bits →
    isFinite (F := .f64) r.y0 = true ∧ isFinite (F := .f64) r.y1 = true ∧
      |(val p : ℝ) - (r.n.toInt * (Real.pi / 2) + (val (F := .f64) r.y0 : ℝ) + (val (F := .f64) r.y1 : ℝ))| ≤
        |(val p : ℝ)| / 2 ^ bits

/-- The precision floors of R288, for every operand. -/
def PrecisionFloors (T : TrigParams) : Prop :=
  ∀ (f : LrrRequest → LrrResponse) (p : Pat .f64), MeetsFloor T p (remPio2 T f p).1

/-- The constraint 92_eei_decisions.md section 4 puts on `TRG_*`. -/
def TrigConstraint (T : TrigParams) : Prop := ConstantsOfPi T ∧ ThresholdsOfPi T ∧ PrecisionFloors T

end Sys2Proof.Machine
end

