-- ==== Sys2Proof/Safety.lean ====
section
/-! DEFINITION. What counts as a safe run and what holds of every state a run reaches: the registers a command reads and
writes, runs that read only written registers, the contract violations, the invariant, and what may be assumed of the LRR
collaborator. -/

namespace Sys2Proof.Machine

/-- The data registers a command reads (30_encoding.md R75). -/
def readsOf : Instr → List RegNum
  | .nop => []
  | .wr _ => []
  | .rd ra => [ra]
  | .mov _ ra => [ra]
  | .rdst => []
  | .clrst => []
  | .ceil _ _ ra => [ra]
  | .floor _ _ ra => [ra]
  | .trunc _ _ ra => [ra]
  | .round _ _ ra => [ra]
  | .roundeven _ _ ra => [ra]
  | .mul _ _ ra rb => [ra, rb]
  | .div _ _ ra rb => [ra, rb]
  | .brnew _ ra rb => [ra, rb]
  | .brwrd => []
  | .brshr _ => []
  | .brrem _ => []
  | .modshl _ _ ra rb rc => [ra, rb, rc]
  | .fmod _ _ ra rb => [ra, rb]
  | .rempio2 _ ra => [ra]

/-- The data registers a command writes (30_encoding.md R75). -/
def writesOf : Instr → List RegNum
  | .nop => []
  | .wr rd => [rd]
  | .rd _ => []
  | .mov rd _ => [rd]
  | .rdst => []
  | .clrst => []
  | .ceil _ rd _ => [rd]
  | .floor _ rd _ => [rd]
  | .trunc _ rd _ => [rd]
  | .round _ rd _ => [rd]
  | .roundeven _ rd _ => [rd]
  | .mul _ rd _ _ => [rd]
  | .div _ rd _ _ => [rd]
  | .brnew _ _ _ => []
  | .brwrd => []
  | .brshr _ => []
  | .brrem rd => [rd]
  | .modshl _ rd _ _ _ => [rd]
  | .fmod _ rd _ _ => [rd]
  | .rempio2 rd _ => [rd, rd + 1, rd + 2]

/-- Every register the command reads has been written since reset: the reads 10_state.md R36 allows. -/
def readsWritten (i : Instr) (s : State) : Bool := (readsOf i).all (fun r => s.written[r])

/-- The next step reads no register that nothing has written since reset (10_state.md R36, 70_reset_and_hazards.md R362):
the runs whose values do not rest on log 1. -/
def safeStep (s : State) : Bool :=
  match s.inputs with
  | .request q :: _ =>
    match decode q.cmd with
    | .ok i => decide (s.fc ≠ 0) || readsWritten i s
    | .error _ => true
  | _ => true

/-- Two states that differ at most in data registers nothing has written since reset (10_state.md R36; log 1). -/
def AgreeOnWritten (s s' : State) : Prop :=
  s' = { s with x := s'.x } ∧ ∀ r : RegNum, s.written[r] = true → s'.x[r] = s.x[r]

/-- Run commands one after the other (20_memory.md R59). -/
def runAll : List Instr → State → Out
  | [], s => .next s
  | i :: rest, s =>
    match exec i s with
    | .next t => runAll rest t
    | .fault r => .fault r
    | .refused r => .refused r

/-- The format field of the commands that compute with a format (30_encoding.md R75); for `REMPIO2` it is f64. -/
def fmtOf : Instr → Option Fmt
  | .nop => none
  | .wr _ => none
  | .rd _ => none
  | .mov _ _ => none
  | .rdst => none
  | .clrst => none
  | .ceil fmt _ _ => some fmt
  | .floor fmt _ _ => some fmt
  | .trunc fmt _ _ => some fmt
  | .round fmt _ _ => some fmt
  | .roundeven fmt _ _ => some fmt
  | .mul fmt _ _ _ => some fmt
  | .div fmt _ _ _ => some fmt
  | .brnew fmt _ _ => some fmt
  | .brwrd => none
  | .brshr _ => none
  | .brrem _ => none
  | .modshl fmt _ _ _ _ => some fmt
  | .fmod fmt _ _ _ => some fmt
  | .rempio2 _ _ => some .f64

/-- The rounding command of a rounding primitive (30_encoding.md R74). -/
def roundingInstr : RoundOp → Fmt → RegNum → RegNum → Instr
  | .ceil => .ceil
  | .floor => .floor
  | .trunc => .trunc
  | .round => .round
  | .roundeven => .roundeven

/-- The five commands that may set `FSR.NX` (10_state.md R24). -/
def isRounding : Instr → Bool
  | .ceil _ _ _ => true
  | .floor _ _ _ => true
  | .trunc _ _ _ => true
  | .round _ _ _ => true
  | .roundeven _ _ _ => true
  | .nop => false
  | .wr _ => false
  | .rd _ => false
  | .mov _ _ => false
  | .rdst => false
  | .clrst => false
  | .mul _ _ _ _ => false
  | .div _ _ _ _ => false
  | .brnew _ _ _ => false
  | .brwrd => false
  | .brshr _ => false
  | .brrem _ => false
  | .modshl _ _ _ _ _ => false
  | .fmod _ _ _ _ => false
  | .rempio2 _ _ => false

/-- The conditions that raise `CONTRACT`, the complete list (60_exceptions.md R332). -/
def contractViolated (i : Instr) (s : State) : Bool :=
  match i with
  | .brnew fmt ra rb =>
    let x := (operand fmt s ra).toNat
    let n := (operand fmt s rb).toNat
    !(decide (2 ^ fmt.width < 8 * n ∧ 4 * n < 2 ^ fmt.width)) || !(decide (x < 2 * n))
  | .brwrd => !s.br.valid
  | .brshr k => !s.br.valid || decide (s.br.fmt.width ≤ k)
  | .brrem _ => !s.br.valid
  | .modshl fmt _ ra rb _ =>
    let x := (operand fmt s ra).toNat
    let y := (operand fmt s rb).toNat
    decide (y = 0) || decide ((2 ^ fmt.width - 1) / 4 < y) || decide (2 * y ≤ x)
  | .nop => false
  | .wr _ => false
  | .rd _ => false
  | .mov _ _ => false
  | .rdst => false
  | .clrst => false
  | .ceil _ _ _ => false
  | .floor _ _ _ => false
  | .trunc _ _ _ => false
  | .round _ _ _ => false
  | .roundeven _ _ _ => false
  | .mul _ _ _ _ => false
  | .div _ _ _ _ => false
  | .fmod _ _ _ _ => false
  | .rempio2 _ _ => false

/-- What a valid reducer holds for the abstract triple (N, n, x): 44_barrett.md R231, R233, R236, R243. -/
structure ReducerHolds (b : Reducer) (n x : Nat) : Prop where
  range : modulusInRange b.fmt.width n = true
  below : x < 2 * n
  div_eq : b.div.toNat = 2 * n
  quo_eq : b.quo.toNat = 2 ^ (2 * b.fmt.width - 1) / (2 * n)
  rem_eq : b.rem.toNat = 2 ^ (2 * b.fmt.width - 1) % (2 * n)
  num_eq : b.num.toNat = 2 * x * b.quo.toNat

/-- The invariant of the unit: only the codes 0, 1, 2 (60_exceptions.md R337); a valid reducer holds a triple (44_barrett.md
R243); the last response carries the fault code of the unit, and a fault's response carries no status and no data
(60_exceptions.md R334, R335). -/
structure Inv (s : State) : Prop where
  code_legal : s.fc.toNat ≤ 2
  reducer : s.br.valid = true → ∃ n x, ReducerHolds s.br n x
  resp_code : ∀ r, s.resp = some r → r.fc = s.fc
  resp_fault : ∀ r, s.resp = some r → r.fc ≠ 0 → r.st = .ok ∧ r.data = 0

/-- What 45_rem_pio2.md R294 (c) lets a model assume of the collaborator: 0 ≤ nl ≤ 7. -/
def LrrCountInRange (lrr : LrrRequest → LrrResponse) : Prop := ∀ q, (lrr q).n.toNat ≤ 7

end Sys2Proof.Machine
end

