-- ==== Sys2Proof/Certificates/Slice0/Obligations.lean ====
section
/-! DEFINITION. The statements for the provers, in the order of the spec's files. OBLIGATIONS.json lists them. Where a
statement names a field that is the model's own (`written`, `fresh`, the ports) it says so; none rests on a reset value the
spec does not give nor on the value of a free value. -/

open Sys2Proof Sys2Proof.Machine

/-! Encoding (30_encoding.md). -/

/-- Decoding the command word of a well-formed instruction gives the instruction back, for every command and every
value of every operand (30_encoding.md sections 1 and 2). -/
def Obligations.DecodeEncodeRoundTrip : Prop :=
  ∀ i : Instr, i.wf = true → decode (encode i) = .ok i

/-- 30_encoding.md R72: a word that decodes is the one spelling of its instruction, and a word with a non-zero unused field
is reserved. -/
def Obligations.CommandWordsHaveOneSpelling : Prop :=
  (∀ (w : CmdWord) (i : Instr), decode w = .ok i → i.wf = true ∧ encode i = w) ∧
  (∀ (w : CmdWord) (op : Op), (fieldsOf w).opcode = op.code → op.uses.unusedZero (fieldsOf w) = false →
    ∃ e, decode w = .error e)

/-- 30_encoding.md section 4 (its last sentence is the spec's own inference): a word decodes to a command exactly when it
satisfies the command's match and mask, no word satisfies two, and a word that satisfies none is reserved. -/
def Obligations.DecodeAgreesWithMatchMask : Prop :=
  (∀ (w : CmdWord) (op : Op), op.matchesWord w = true ↔ ∃ i, decode w = .ok i ∧ i.op = op) ∧
  (∀ (w : CmdWord) (op op' : Op), op.matchesWord w = true → op'.matchesWord w = true → op = op') ∧
  (∀ w : CmdWord, (∀ op : Op, op.matchesWord w = false) ↔ ∃ e, decode w = .error e)

/-- 30_encoding.md R77, R78, R79 and 60_exceptions.md R331: which words are reserved, and what serving one does, whatever the
registers and the reducer hold. The request's write data and the idle LRR port are the ports' (10_state.md R30, R31). -/
def Obligations.ReservedWordsRaiseIllegal : Prop :=
  (∀ w : CmdWord, (∃ e, decode w = .error e) ↔
    (fieldsOf w).opcode ∉ ([0x00, 0x01, 0x02, 0x03, 0x04, 0x05, 0x10, 0x11, 0x12, 0x13, 0x14, 0x18, 0x19,
        0x20, 0x21, 0x22, 0x23, 0x28, 0x29, 0x30] : List (BitVec 6)) ∨
    (∃ op : Op, (fieldsOf w).opcode = op.code ∧ op.uses.unusedZero (fieldsOf w) = false) ∨
    ((fieldsOf w).opcode = 0x30 ∧ (fieldsOf w).fmt ≠ 2)) ∧
  (∀ w : CmdWord, (fieldsOf w).opcode = 0x24 → decode w = .error .brsqsOpcode) ∧
  (∀ (s : State) (q : Request) (rest : List HostEvent), s.inputs = .request q :: rest → s.fc = 0 →
    (∃ e, decode q.cmd = .error e) →
    step s = .next { s with
      inputs := rest, wdata := q.wdata, lrrReq := none
      fc := 1, resp := some { fc := 1, st := .ok, data := 0 } })

/-- The fourteen example words of 30_encoding.md section 5 decode to the commands they are written for; a word of the
unassigned opcode 0x24 and one with a non-zero unused field (section 3) do not decode. -/
def Obligations.SampleWordsDecode : Prop :=
  decode 0x00000000 = .ok .nop ∧
  decode 0x04200000 = .ok (.wr 1) ∧
  decode 0x080C0000 = .ok (.rd 3) ∧
  decode 0x0C440000 = .ok (.mov 2 1) ∧
  decode 0x10000000 = .ok .rdst ∧
  decode 0x14000000 = .ok .clrst ∧
  decode 0x42440000 = .ok (.ceil .f64 2 1) ∧
  decode 0x65650000 = .ok (.div .f32 3 1 2) ∧
  decode 0x80050000 = .ok (.brnew .f16 1 2) ∧
  decode 0x84000000 = .ok .brwrd ∧
  decode 0x88000005 = .ok (.brshr 5) ∧
  decode 0x8C600000 = .ok (.brrem 3) ∧
  decode 0xA1853000 = .ok (.modshl .f32 4 1 2 3) ∧
  decode 0xC2840000 = .ok (.rempio2 4 1) ∧
  decode 0x90000000 = .error .brsqsOpcode ∧
  decode 0x84000001 = .error .fieldNotZero

/-! Steps, faults, reset (20_memory.md, 60_exceptions.md, 70_reset_and_hazards.md). -/

/-- A step runs the decoded instruction: when the host's next request holds a command word, the step is the meaning of its
instruction, after the request is taken; the word placed by withFetchWord is what the next step runs (log 3); with no event
waiting the unit keeps its whole state; every step and every meaning answers a next state (the total collaborator is
log 4). -/
def Obligations.StepRunsDecodedInstruction : Prop :=
  (∀ (s : State) (q : Request) (rest : List HostEvent) (i : Instr), s.inputs = .request q :: rest →
    decode q.cmd = .ok i →
    step s = exec i { s with inputs := rest, wdata := q.wdata, lrrReq := none }) ∧
  (∀ (s : State) (w : Nat) (i : Instr), decodeTableWord 32 w = some i →
    step (s.withFetchWord 32 w) = exec i { s with lrrReq := none }) ∧
  (∀ s : State, s.inputs = [] → step s = .next s) ∧
  (∀ s : State, ∃ t, step s = .next t) ∧
  (∀ (i : Instr) (s : State), ∃ t, exec i s = .next t)

/-- 60_exceptions.md R332: the list of contract violations is complete. -/
def Obligations.ContractFaultsExactlyListed : Prop :=
  ∀ (i : Instr) (s : State), s.fc = 0 →
    (contractViolated i s = true →
      exec i s = .next { s with fc := 2, resp := some { fc := 2, st := .ok, data := 0 } }) ∧
    (contractViolated i s = false →
      ∃ t r, exec i s = .next t ∧ t.fc = 0 ∧ t.resp = some r ∧ r.fc = 0)

/-- 60_exceptions.md R334: a command that raises a fault writes `FSR.FC` and the response and nothing else, and no later
command changes the code. -/
def Obligations.FaultChangesNothingElse : Prop :=
  ∀ (s t : State) (q : Request) (rest : List HostEvent), s.inputs = .request q :: rest → step s = .next t →
    (s.fc = 0 → t.fc ≠ 0 → (t.fc = 1 ∨ t.fc = 2) ∧
      t = { s with
        inputs := rest, wdata := q.wdata, lrrReq := none
        fc := t.fc, resp := some { fc := t.fc, st := .ok, data := 0 } }) ∧
    (s.fc ≠ 0 → t.fc = s.fc)

/-- 60_exceptions.md R335: a FAULTED unit answers every request, whatever its word, with the stored code and changes no
state. -/
def Obligations.FaultedUnitAnswersStoredCode : Prop :=
  (∀ (s : State) (q : Request) (rest : List HostEvent), s.inputs = .request q :: rest → s.fc ≠ 0 →
    step s = .next { s with
      inputs := rest, wdata := q.wdata, lrrReq := none
      resp := some { fc := s.fc, st := .ok, data := 0 } }) ∧
  (∀ (i : Instr) (s : State), s.fc ≠ 0 →
    exec i s = .next { s with resp := some { fc := s.fc, st := .ok, data := 0 } })

/-- 70_reset_and_hazards.md R361: only the reset input leaves the FAULTED state, and a reset, also one that cuts a command,
leaves the values the spec gives for reset, with no response sent. Nothing is said of the registers the spec leaves
unspecified. -/
def Obligations.OnlyResetLeavesFaulted : Prop :=
  (∀ s t : State, s.fc ≠ 0 → step s = .next t → t.fc = 0 →
    ∃ e rest, s.inputs = e :: rest ∧ (e = .reset ∨ ∃ q, e = .requestCutByReset q)) ∧
  (∀ (s : State) (e : HostEvent) (rest : List HostEvent), s.inputs = e :: rest →
    (e = .reset ∨ ∃ q, e = .requestCutByReset q) →
    ∃ t, step s = .next t ∧ t.nx = false ∧ t.fc = 0 ∧ t.br.valid = false ∧ t.br.fmt.code = 0 ∧
      t.resp = none ∧ t.lrrReq = none ∧ t.inputs = rest ∧ (∀ r : RegNum, t.written[r] = false))

/-- 10_state.md R35: what reset gives. -/
def Obligations.ResetState : Prop :=
  State.reset.nx = false ∧ State.reset.fc = 0 ∧ State.reset.br.valid = false ∧
    State.reset.br.fmt.code = 0 ∧ fsr State.reset = 0

/-- The invariant of the unit holds at reset. -/
def Obligations.InvHoldsAtReset : Prop := Inv State.reset

/-- Every step keeps the invariant: legal fault codes, a valid reducer that holds an abstract triple, and a response that
agrees with the fault state (60_exceptions.md section 2, 44_barrett.md section 2). And no step, a reset neither, changes the
parameters the unit is built with, in whatever state (00_scope.md section 4; their place in State is log 7's). -/
def Obligations.StepKeepsInv : Prop :=
  ∀ s t : State, step s = .next t → (Inv s → Inv t) ∧ t.trig = s.trig

/-- What one command never writes, data registers (30_encoding.md section 2): every register but its destinations, and none
at all when the unit is faulted after it. -/
def Obligations.FrameOfRegisters : Prop :=
  ∀ (i : Instr) (s t : State), exec i s = .next t →
    (∀ r : RegNum, r ∉ writesOf i → t.x[r] = s.x[r] ∧ t.written[r] = s.written[r]) ∧
    (t.fc ≠ 0 → t.x = s.x ∧ t.written = s.written)

/-- What one command never writes, status (10_state.md section 3): `NX` only by the rounding commands, which never clear it,
and `CLRST`; `FC` only by a contract violation of an unfaulted unit; the reserved bits read zero. -/
def Obligations.FrameOfFlags : Prop :=
  ∀ (i : Instr) (s t : State), exec i s = .next t →
    (isRounding i = false → i ≠ .clrst → t.nx = s.nx) ∧
    (isRounding i = true → s.nx = true → t.nx = true) ∧
    ((s.fc ≠ 0 ∨ contractViolated i s = false) → t.fc = s.fc) ∧
    (fsr t).extractLsb' 8 24 = 0

/-- What one command never writes, the reducer group and the ports (10_state.md sections 4 and 6): `BR` only by the four
reducer commands, of it only `NUM` by `BRWRD` and `BRSHR`, never `FMT` by `BRREM`; the LRR request only by `REMPIO2`; the
host's events and write data by none, nor the parameters the unit is built with (log 7); the index of free values, the model's
own, only by `BRREM`. -/
def Obligations.FrameOfReducerAndPorts : Prop :=
  ∀ (i : Instr) (s t : State), exec i s = .next t →
    t.inputs = s.inputs ∧ t.wdata = s.wdata ∧ t.trig = s.trig ∧
    ((∀ F ra rb, i ≠ .brnew F ra rb) → i ≠ .brwrd → (∀ k, i ≠ .brshr k) → (∀ rd, i ≠ .brrem rd) → t.br = s.br) ∧
    ((i = .brwrd ∨ ∃ k, i = .brshr k) → t.br = { s.br with num := t.br.num }) ∧
    ((∃ rd, i = .brrem rd) → t.br.fmt = s.br.fmt) ∧
    ((∀ rd ra, i ≠ .rempio2 rd ra) → t.lrrReq = s.lrrReq) ∧
    ((∀ rd, i ≠ .brrem rd) → t.fresh = s.fresh)

/-- 10_state.md R22: a command of a format of W bits reads the low W bits of its sources (of the shift operand of `MODSHL` the
low 32, 30_encoding.md R76) and writes a result whose bits from W on are zero. The third result of `REMPIO2` is an
integer, not of the format. -/
def Obligations.NarrowFormats : Prop :=
  ∀ (i : Instr) (F : Fmt) (s : State), fmtOf i = some F → s.fc = 0 →
    (∀ x' : Vector Word 8,
      (∀ r : RegNum, x'[r].setWidth F.width = (s.x[r]).setWidth F.width) →
      (∀ G rd ra rb rc, i = .modshl G rd ra rb rc → x'[rc].setWidth 32 = (s.x[rc]).setWidth 32) →
      ∃ t t', exec i s = .next t ∧ exec i { s with x := x' } = .next t' ∧
        t'.resp = t.resp ∧ t'.nx = t.nx ∧ t'.fc = t.fc ∧ t'.br = t.br ∧ t'.lrrReq = t.lrrReq ∧
        (t.fc = 0 → ∀ r : RegNum, r ∈ writesOf i → t'.x[r] = t.x[r])) ∧
    (∀ t, exec i s = .next t → t.fc = 0 → ∀ r : RegNum, r ∈ writesOf i →
      (∀ rd ra, i = .rempio2 rd ra → r ≠ rd + 2) → (t.x[r]).toNat < 2 ^ F.width)

/-- 20_memory.md R55: lane i carries bits 8i+7 down to 8i, the lanes make up the bus, and a pattern of W bits occupies the
lanes below W/8. -/
def Obligations.ByteLanesLittleEndian : Prop :=
  (∀ (v : Word) (i : Fin 16) (j : Fin 8), (byteLane v i).getLsbD j = v.getLsbD (8 * i + j)) ∧
  (∀ v : Word, ofByteLanes ((List.finRange 16).map (byteLane v)) = v) ∧
  (∀ (F : Fmt) (p : Pat F) (i : Fin 16), F.width / 8 ≤ i.val → byteLane (zext128 p) i = 0)

/-- A run that reads no register nothing has written since reset does not depend on what such registers hold: the values of
log 1 (the model's choice, where 10_state.md section 8 gives none) reach nothing. -/
def Obligations.UnwrittenRegistersReachNothing : Prop :=
  ∀ s s' : State, AgreeOnWritten s s' → safeStep s = true →
    ∃ t t', step s = .next t ∧ step s' = .next t' ∧ AgreeOnWritten t t'

/-! System commands (46_system_commands.md). -/

/-- 46_system_commands.md R311. -/
def Obligations.NopCommand : Prop :=
  encode .nop = 0x00000000 ∧
  (∀ w : CmdWord, (fieldsOf w).opcode = 0 → w ≠ 0 → ∃ e, decode w = .error e) ∧
  (∀ s : State, s.fc = 0 → exec .nop s = .next { s with resp := some { fc := 0, st := .ok, data := 0 } }) ∧
  (∀ s : State, s.fc ≠ 0 → exec .nop s = .next { s with resp := some { fc := s.fc, st := .ok, data := 0 } })

/-- 46_system_commands.md R312, with `wdata` ignored by every other command. `written` is the model's own (log 1). -/
def Obligations.WrCommand : Prop :=
  (∀ rd : RegNum, encode (.wr rd) = 0x01#6 ++ 0#2 ++ regField rd ++ 0#21) ∧
  (∀ (rd : RegNum) (s : State), s.fc = 0 →
    exec (.wr rd) s = .next { s with
      x := s.x.set rd s.wdata, written := s.written.set rd true
      resp := some { fc := 0, st := .ok, data := 0 } }) ∧
  (∀ (i : Instr) (s : State) (v : Word), (∀ rd, i ≠ .wr rd) →
    ∃ t, exec i s = .next t ∧ exec i { s with wdata := v } = .next { t with wdata := v })

/-- `RD` and `MOV` (46_system_commands.md section 2): all 128 bits; and register transport is the identity (section 3). A
register nothing has written since reset reads as the value of log 1, the model's choice; every other value is what the
register holds. -/
def Obligations.RdAndMovCommands : Prop :=
  (∀ ra : RegNum, encode (.rd ra) = 0x02#6 ++ 0#5 ++ regField ra ++ 0#18) ∧
  (∀ rd ra : RegNum, encode (.mov rd ra) = 0x03#6 ++ 0#2 ++ regField rd ++ regField ra ++ 0#18) ∧
  (∀ (ra : RegNum) (s : State), s.fc = 0 →
    exec (.rd ra) s = .next { s with resp := some { fc := 0, st := .ok, data := s.x[ra] } }) ∧
  (∀ (rd ra : RegNum) (s : State), s.fc = 0 →
    exec (.mov rd ra) s = .next { s with
      x := s.x.set rd s.x[ra], written := s.written.set rd true
      resp := some { fc := 0, st := .ok, data := s.x[ra] } }) ∧
  (∀ (s : State) (v : Word), s.fc = 0 →
    (∀ d : RegNum, ∃ t, runAll [.wr d, .rd d] { s with wdata := v } = .next t ∧
      t.resp = some { fc := 0, st := .ok, data := v }) ∧
    (∀ d a : RegNum, ∃ t, runAll [.wr a, .mov d a, .rd d] { s with wdata := v } = .next t ∧
      t.resp = some { fc := 0, st := .ok, data := v }))

/-- 46_system_commands.md R314: `NX + 2·BRV + 4·BRF + 16·FC`, and the refusal in the FAULTED state. -/
def Obligations.RdstCommand : Prop :=
  encode .rdst = 0x10000000 ∧
  (∀ s : State, s.fc = 0 →
    exec .rdst s = .next { s with resp := some { fc := 0, st := .ok, data := BitVec.ofNat 128 (s.nx.toNat + 2 * s.br.valid.toNat + 4 * s.br.fmt.code.toNat) } }) ∧
  (∀ s : State, (fsr s).toNat =
    s.nx.toNat + 2 * s.br.valid.toNat + 4 * s.br.fmt.code.toNat + 16 * s.fc.toNat) ∧
  (∀ s : State, s.fc ≠ 0 → exec .rdst s = .next { s with resp := some { fc := s.fc, st := .ok, data := 0 } })

/-- 46_system_commands.md R316: the only command that clears `NX`, and it changes nothing else. -/
def Obligations.ClrstCommand : Prop :=
  encode .clrst = 0x14000000 ∧
  (∀ s : State, s.fc = 0 →
    exec .clrst s = .next { s with nx := false, resp := some { fc := 0, st := .ok, data := 0 } }) ∧
  (∀ (i : Instr) (s t : State), exec i s = .next t → s.nx = true → t.nx = false → i = .clrst)

/-! Substrate (40_format_and_integer_primitives.md). -/

/-- A pattern is its three fields, and its category is decided by the fields (40_format_and_integer_primitives.md section 1, R103
and R104); that comparing the magnitude with `IMPLICIT` and `INF` decides it too is what the spec itself derives there from the
field definitions. -/
def Obligations.FieldsAndCategories : Prop :=
  ∀ (F : Fmt) (p : Pat F),
    p.toNat = (signOf p).toNat * 2 ^ (F.width - 1) + expf p * 2 ^ F.sigBits + sig p ∧
    (categoryOf p = .zero ↔ expf p = 0 ∧ sig p = 0) ∧ (categoryOf p = .zero ↔ absOf p = 0) ∧
    (categoryOf p = .subnormal ↔ expf p = 0 ∧ sig p ≠ 0) ∧
    (categoryOf p = .subnormal ↔ 0 < absOf p ∧ absOf p < 2 ^ F.sigBits) ∧
    (categoryOf p = .normal ↔ 2 ^ F.sigBits ≤ absOf p ∧ absOf p < F.expSat * 2 ^ F.sigBits) ∧
    (categoryOf p = .infinity ↔ expf p = F.expSat ∧ sig p = 0) ∧
    (categoryOf p = .infinity ↔ absOf p = F.expSat * 2 ^ F.sigBits) ∧
    (categoryOf p = .nan ↔ expf p = F.expSat ∧ sig p ≠ 0) ∧
    (categoryOf p = .nan ↔ F.expSat * 2 ^ F.sigBits < absOf p)

/-- The machine's rounding, on whole numbers of units of the smallest subnormal, is the closed formula of the spec
(40_format_and_integer_primitives.md section 2), and the units are those of the value. -/
def Obligations.RoundingMatchesExactFormula : Prop :=
  (∀ (F : Fmt) (s : Bool) (n d : Nat), 0 < n → 0 < d →
    rne F s n d = rneExact F s ((n : ℚ) / d * 2 ^ ((1 : ℤ) - F.bias - F.sigBits))) ∧
  (∀ (F : Fmt) (p : Pat F), isFinite p = true →
    |val p| = (units p : ℚ) * 2 ^ ((1 : ℤ) - F.bias - F.sigBits))

/-- Unpacking a finite non-zero pattern, and a representable value rounds to itself
(40_format_and_integer_primitives.md sections 2 and 4). -/
def Obligations.UnpackAndRoundToItself : Prop :=
  ∀ (F : Fmt) (p : Pat F), isFinite p = true → isZero p = false →
    2 ^ F.sigBits ≤ (unpack p).2 ∧ (unpack p).2 < 2 ^ (F.sigBits + 1) ∧
    1 - (F.sigBits : ℤ) ≤ (unpack p).1 ∧ (unpack p).1 ≤ (F.expSat : ℤ) - 1 ∧
    |val p| = ((unpack p).2 : ℚ) * 2 ^ ((unpack p).1 - F.bias - F.sigBits) ∧
    rneExact F (signOf p) |val p| = p

/-- 40_format_and_integer_primitives.md R118: the four binary64 operations inside `REMPIO2` on finite operands. -/
def Obligations.BinaryArithmeticRoundsOnce : Prop :=
  ∀ a b c : Pat .f64, isFinite a = true → isFinite b = true → isFinite c = true →
    fmul64 a b = (if val a * val b = 0 then signedZero .f64 (signOf a != signOf b)
      else rneExact .f64 (signOf a != signOf b) |val a * val b|) ∧
    fadd64 a b = (if val a + val b = 0 then signedZero .f64 (signOf a && signOf b)
      else rneExact .f64 (decide (val a + val b < 0)) |val a + val b|) ∧
    fsub64 a b = fadd64 a (b ^^^ signMask .f64) ∧
    fma64 a b c = (if val a * val b + val c = 0 then signedZero .f64 ((signOf a != signOf b) && signOf c)
      else rneExact .f64 (decide (val a * val b + val c < 0)) |val a * val b + val c|)

/-! Rounding commands (41_rounding.md). -/

/-- The five rounding commands against their independent definition (41_rounding.md sections 1 and 3): the integer the
command's name says, with the operand's sign when it is zero, its status, the sticky bit, the response; infinities and NaNs
unchanged. `written` is the model's own (log 1). -/
def Obligations.RoundingCommands : Prop :=
  ∀ (op : RoundOp) (F : Fmt) (rd ra : RegNum) (s : State), s.fc = 0 →
    ∃ (r : Pat F) (st : Status),
      exec (roundingInstr op F rd ra) s = .next { s with
        x := s.x.set rd (zext128 r), written := s.written.set rd true
        nx := s.nx || decide (st = .inexact)
        resp := some { fc := 0, st := st, data := zext128 r } } ∧
      (isFinite (operand F s ra) = true →
        isFinite r = true ∧ val r = roundedInteger op (val (operand F s ra)) ∧
        (val r = 0 → signOf r = signOf (operand F s ra)) ∧ (st = .ok ↔ val r = val (operand F s ra))) ∧
      (isFinite (operand F s ra) = false → r = operand F s ra ∧ st = .ok)

/-- 41_rounding.md R142, R148, R155: when the status is `OK`, when `INEXACT`, and that values with no fraction, infinities and
NaNs come back bit for bit. -/
def Obligations.RoundingStatusAndRoundTrip : Prop :=
  ∀ (op : RoundOp) (F : Fmt) (p : Pat F),
    ((roundPat op p).2 = .ok ↔ isFinite p = false ∨ val (roundPat op p).1 = val p) ∧
    ((roundPat op p).2 = .inexact ↔ isFinite p = true ∧ ¬ ∃ k : ℤ, val p = k) ∧
    (isFinite p = true → (∃ k : ℤ, val p = k) → roundPat op p = (p, .ok)) ∧
    ((F.sigBits : ℤ) ≤ (expf p : ℤ) - F.bias → roundPat op p = (p, .ok)) ∧
    (isFinite p = false → (F.sigBits : ℤ) ≤ (expf p : ℤ) - F.bias)

/-- Floor and ceiling bracket the value, with equality exactly when the status is `OK` (41_rounding.md section 3, R156); that
both are strict and 1 apart otherwise is what the spec itself derives there from R150 and R151. -/
def Obligations.RoundingBracket : Prop :=
  ∀ (F : Fmt) (p : Pat F), isFinite p = true →
    val (roundPat .floor p).1 ≤ val p ∧ val p ≤ val (roundPat .ceil p).1 ∧
    ((roundPat .floor p).2 = .ok ↔ val (roundPat .floor p).1 = val p) ∧
    ((roundPat .ceil p).2 = .ok ↔ val (roundPat .ceil p).1 = val p) ∧
    ((¬ ∃ k : ℤ, val p = k) → val (roundPat .floor p).1 < val p ∧ val p < val (roundPat .ceil p).1 ∧
      val (roundPat .ceil p).1 - val (roundPat .floor p).1 = 1)

/-! Multiplication and division (42_multiply.md, 43_divide.md). -/

/-- 42_multiply.md R170 to R173: the encoding, the write and the response, the table of special categories, the product
rounded once, and the sign. `written` is the model's own (log 1). -/
def Obligations.MulCommand : Prop :=
  (∀ (F : Fmt) (rd ra rb : RegNum),
    encode (.mul F rd ra rb) = 0x18#6 ++ F.code ++ regField rd ++ regField ra ++ regField rb ++ 0#15) ∧
  (∀ (F : Fmt) (rd ra rb : RegNum) (s : State), s.fc = 0 →
    exec (.mul F rd ra rb) s = .next { s with
      x := s.x.set rd (zext128 (mulExact (operand F s ra) (operand F s rb)))
      written := s.written.set rd true
      resp := some { fc := 0, st := .ok, data := zext128 (mulExact (operand F s ra) (operand F s rb)) } }) ∧
  (∀ (F : Fmt) (a b : Pat F), isNaN (mulExact a b) = false → signOf (mulExact a b) = (signOf a != signOf b))

/-- The multiplication datapath computes the contract for finite non-zero operands of every format (42_multiply.md
section 3). -/
def Obligations.MulDatapathRefinesContract : Prop :=
  ∀ (F : Fmt) (a b : Pat F), isFinite a = true → isZero a = false → isFinite b = true → isZero b = false →
    mulDatapath a b = rneExact F (signOf a != signOf b) (|val a| * |val b|)

/-- 43_divide.md R190 to R193: the encoding, the write and the response, the table of special categories, the quotient
rounded once, and the sign. `written` is the model's own (log 1). -/
def Obligations.DivCommand : Prop :=
  (∀ (F : Fmt) (rd ra rb : RegNum),
    encode (.div F rd ra rb) = 0x19#6 ++ F.code ++ regField rd ++ regField ra ++ regField rb ++ 0#15) ∧
  (∀ (F : Fmt) (rd ra rb : RegNum) (s : State), s.fc = 0 →
    exec (.div F rd ra rb) s = .next { s with
      x := s.x.set rd (zext128 (divExact (operand F s ra) (operand F s rb)))
      written := s.written.set rd true
      resp := some { fc := 0, st := .ok, data := zext128 (divExact (operand F s ra) (operand F s rb)) } }) ∧
  (∀ (F : Fmt) (a b : Pat F), isNaN (divExact a b) = false → signOf (divExact a b) = (signOf a != signOf b))

/-- The division datapath computes the contract, with at most one correction pass, wherever its reciprocal meets the bound of
43_divide.md section 4 for the divisor at hand and the bound is at most 1/2 in the last place (δ of section 5). Unrolling the
correction loop to `DIV_K` passes changes nothing where `DIV_K` bounds the passes taken (00_scope.md section 4). -/
def Obligations.DivDatapathRefinesUnderBound : Prop :=
  ∀ (F : Fmt) (P : DivParams) (a b : Pat F),
    isFinite a = true → isZero a = false → isFinite b = true → isZero b = false →
    (divPasses P a b ≤ P.passes → divDatapathUnrolled P a b = divDatapath P a b) ∧
    (P.bound < reciprocal F P (unpack b).2 →
      |(reciprocal F P (unpack b).2 : ℤ) * ((unpack b).2 : ℤ) - 2 ^ (F.sigBits + F.width)| <
        (P.bound : ℤ) * ((unpack b).2 : ℤ) →
      16 * P.bound * 2 ^ F.sigBits ≤ 2 ^ F.width →
      divDatapath P a b = divExact a b ∧ divPasses P a b ≤ 1 ∧
      (1 ≤ P.passes → divDatapathUnrolled P a b = divExact a b))

/-- For f16 with the default parameters (log 6) the reciprocal bound holds for every significand, so the datapath computes the
contract for every pair of finite non-zero operands, also unrolled to the one pass of `DIV_K` (43_divide.md sections 4
and 5). -/
def Obligations.DivDatapathHalfPrecision : Prop :=
  (∀ sb : Nat, 2 ^ 10 ≤ sb → sb < 2 ^ 11 →
    3 < reciprocal .f16 (divDefaults .f16) sb ∧
    |(reciprocal .f16 (divDefaults .f16) sb : ℤ) * (sb : ℤ) - 2 ^ 26| < 3 * (sb : ℤ)) ∧
  (∀ a b : Pat .f16, isFinite a = true → isZero a = false → isFinite b = true → isZero b = false →
    divDatapath (divDefaults .f16) a b = divExact a b ∧ divPasses (divDefaults .f16) a b ≤ (divDefaults .f16).passes ∧
    divDatapathUnrolled (divDefaults .f16) a b = divExact a b)

/-- The claim of 43_divide.md sections 2 and 5 that with the spec's default parameters (log 6) the datapath computes the
contract for every format. It is expected to FAIL for f128 (log 8): for 1.0 divided by the largest value below 2.0 the
decrement of 13922 units takes the quotient estimate below 2^S. -/
def Obligations.DivDatapathDefaultsRefine : Prop :=
  ∀ (F : Fmt) (a b : Pat F), isFinite a = true → isZero a = false → isFinite b = true → isZero b = false →
    divDatapath (divDefaults F) a b = divExact a b

/-! The reducer, MODSHL and FMOD (44_barrett.md). -/

/-- 44_barrett.md R234. -/
def Obligations.BrnewCommand : Prop :=
  (∀ (F : Fmt) (ra rb : RegNum),
    encode (.brnew F ra rb) = 0x20#6 ++ F.code ++ 0#3 ++ regField ra ++ regField rb ++ 0#15) ∧
  (∀ (F : Fmt) (ra rb : RegNum) (s : State), s.fc = 0 →
    let x := (operand F s ra).toNat
    let n := (operand F s rb).toNat
    let q := 2 ^ (2 * F.width - 1) / (2 * n)
    (2 ^ F.width < 8 * n → 4 * n < 2 ^ F.width → x < 2 * n →
      exec (.brnew F ra rb) s = .next { s with
        br :=
          { num := BitVec.ofNat 256 (2 * x * q)
            div := BitVec.ofNat 128 (2 * n)
            quo := BitVec.ofNat 129 q
            rem := BitVec.ofNat 128 (2 ^ (2 * F.width - 1) % (2 * n))
            fmt := F
            valid := true }
        resp := some { fc := 0, st := .ok, data := 0 } }) ∧
    (¬ (2 ^ F.width < 8 * n ∧ 4 * n < 2 ^ F.width ∧ x < 2 * n) →
      exec (.brnew F ra rb) s = .next { s with fc := 2, resp := some { fc := 2, st := .ok, data := 0 } })) ∧
  (∀ s : State, (fsr s).extractLsb' 1 1 = BitVec.ofBool s.br.valid ∧ (fsr s).extractLsb' 2 2 = s.br.fmt.code)

/-- What construction precomputes (44_barrett.md section 1): the division identity, R < q < 2R, the narrowing division that
computes it, and the accumulator inside 2N bits. -/
def Obligations.BarrettConstruction : Prop :=
  ∀ (F : Fmt) (n : Nat), 2 ^ F.width < 8 * n → 4 * n < 2 ^ F.width →
    2 * n * barrettQ F.width (2 * n) + barrettR F.width (2 * n) = 2 ^ (2 * F.width - 1) ∧
    barrettR F.width (2 * n) < 2 * n ∧
    2 ^ F.width < barrettQ F.width (2 * n) ∧ barrettQ F.width (2 * n) < 2 ^ (F.width + 1) ∧
    barrettByNdiv F.width (2 * n) = some (barrettQ F.width (2 * n), barrettR F.width (2 * n)) ∧
    (∀ x : Nat, x < 2 * n →
      2 * x * barrettQ F.width (2 * n) < 2 ^ (2 * F.width) ∧ ReducerHolds (newReducer F x n) n x)

/-- The accumulator after `BRWRD` and `BRSHR k`, their contract faults, `BRSHR` with k = N − 1 is `BRWRD`, and the triple kept
with the congruence while the reducer holds one (44_barrett.md section 2, R240 to R243); the accumulator's formula and the
congruence for every k are what the spec itself derives in R242 and R243. -/
def Obligations.BrwrdAndBrshrCommands : Prop :=
  encode .brwrd = 0x84000000 ∧
  (∀ k : Nat, k < 4096 → encode (.brshr k) = 0x22#6 ++ 0#14 ++ BitVec.ofNat 12 k) ∧
  (∀ (s : State) (k : Nat), s.fc = 0 →
    let N := s.br.fmt.width
    (s.br.valid = true → k < N →
      exec (.brshr k) s = .next { s with
        br := { s.br with
          num := BitVec.ofNat 256
            (s.br.num.toNat * 2 ^ (k + 1) % 2 ^ (2 * N) / 2 +
              s.br.num.toNat / 2 ^ (2 * N - k - 1) * s.br.rem.toNat) }
        resp := some { fc := 0, st := .ok, data := 0 } }) ∧
    (s.br.valid = false ∨ N ≤ k →
      exec (.brshr k) s = .next { s with fc := 2, resp := some { fc := 2, st := .ok, data := 0 } })) ∧
  (∀ s : State, s.fc = 0 →
    let N := s.br.fmt.width
    (s.br.valid = true →
      exec .brwrd s = .next { s with
        br := { s.br with
          num := BitVec.ofNat 256
            (s.br.num.toNat * 2 ^ N % 2 ^ (2 * N) / 2 + s.br.num.toNat / 2 ^ N * s.br.rem.toNat) }
        resp := some { fc := 0, st := .ok, data := 0 } }) ∧
    (s.br.valid = false →
      exec .brwrd s = .next { s with fc := 2, resp := some { fc := 2, st := .ok, data := 0 } }) ∧
    exec .brwrd s = exec (.brshr (N - 1)) s) ∧
  (∀ (s : State) (n x k : Nat), s.fc = 0 → s.br.valid = true → ReducerHolds s.br n x → k < s.br.fmt.width →
    ∃ t x', exec (.brshr k) s = .next t ∧ ReducerHolds t.br n x' ∧ x' % n = x * 2 ^ k % n)

/-- The reduction step and extraction as exact identities on the abstract triple (44_barrett.md sections 1 and 2): u copies of
the modulus are subtracted, u the Barrett estimate, and the partial remainder comes back exactly. -/
def Obligations.ReductionStepExact : Prop :=
  ∀ (b : Reducer) (n x k : Nat), ReducerHolds b n x → k < b.fmt.width →
    let u := x * b.quo.toNat * 2 ^ (k + 2) / 2 ^ (2 * b.fmt.width)
    u * n ≤ x * 2 ^ k ∧ x * 2 ^ k - u * n < 2 * n ∧
    ReducerHolds (stepReducer k b) n (x * 2 ^ k - u * n) ∧
    extractRemainder b = BitVec.ofNat 128 x

/-- 44_barrett.md R245. What the four discarded registers hold afterwards is not said (free values, log 5). -/
def Obligations.BrremCommand : Prop :=
  (∀ rd : RegNum, encode (.brrem rd) = 0x23#6 ++ 0#2 ++ regField rd ++ 0#21) ∧
  (∀ (rd : RegNum) (s : State), s.fc = 0 →
    let N := s.br.fmt.width
    let x : Word := BitVec.ofNat 128
      ((s.br.div.toNat * (s.br.num.toNat / 2 ^ N % 2 ^ N) + 2 ^ N - 1) / 2 ^ N)
    (s.br.valid = true → ∃ t, exec (.brrem rd) s = .next t ∧
      t.br.valid = false ∧ t.br.fmt = s.br.fmt ∧
      t = { s with
        x := s.x.set rd x, written := s.written.set rd true
        br := t.br, fresh := t.fresh
        resp := some { fc := 0, st := .ok, data := x } }) ∧
    (s.br.valid = false →
      exec (.brrem rd) s = .next { s with fc := 2, resp := some { fc := 2, st := .ok, data := 0 } })) ∧
  (∀ (rd : RegNum) (s t : State) (n x : Nat), s.fc = 0 → s.br.valid = true → ReducerHolds s.br n x →
    exec (.brrem rd) s = .next t → (t.x[rd]).toNat = x ∧ x < 2 * n)

/-- The reducer's round trip (44_barrett.md section 2): construction, any sequence of `BRWRD` (none) and `BRSHR k` (some k),
extraction, give a value below 2n congruent to the start value shifted by the total. -/
def Obligations.BarrettRoundTrip : Prop :=
  ∀ (F : Fmt) (ra rb rd : RegNum) (ks : List (Option Nat)) (s : State), s.fc = 0 →
    2 ^ F.width < 8 * (operand F s rb).toNat → 4 * (operand F s rb).toNat < 2 ^ F.width →
    (operand F s ra).toNat < 2 * (operand F s rb).toNat →
    (∀ k, some k ∈ ks → k < F.width) →
    ∃ t p, runAll (.brnew F ra rb ::
        (ks.map (fun o => match o with | none => Instr.brwrd | some k => Instr.brshr k) ++ [.brrem rd])) s = .next t ∧
      (t.x[rd]).toNat = p ∧ t.br.valid = false ∧ t.fc = 0 ∧
      p < 2 * (operand F s rb).toNat ∧
      p % (operand F s rb).toNat =
        (operand F s ra).toNat * 2 ^ (ks.map (fun o => o.getD (F.width - 1))).sum % (operand F s rb).toNat

/-- 44_barrett.md R250: the encoding, the precondition, the exact remainder, the frame. `written` is the model's own
(log 1). -/
def Obligations.ModshlCommand : Prop :=
  (∀ (F : Fmt) (rd ra rb rc : RegNum), encode (.modshl F rd ra rb rc) =
    0x28#6 ++ F.code ++ regField rd ++ regField ra ++ regField rb ++ regField rc ++ 0#12) ∧
  (∀ (F : Fmt) (rd ra rb rc : RegNum) (s : State), s.fc = 0 →
    let x := (operand F s ra).toNat
    let y := (operand F s rb).toNat
    let e := ((s.x[rc]).extractLsb' 0 32).toNat
    (y ≠ 0 → y ≤ (2 ^ F.width - 1) / 4 → x < 2 * y →
      exec (.modshl F rd ra rb rc) s = .next { s with
        x := s.x.set rd (BitVec.ofNat 128 (x * 2 ^ e % y)), written := s.written.set rd true
        resp := some { fc := 0, st := .ok, data := BitVec.ofNat 128 (x * 2 ^ e % y) } }) ∧
    (y = 0 ∨ (2 ^ F.width - 1) / 4 < y ∨ 2 * y ≤ x →
      exec (.modshl F rd ra rb rc) s = .next { s with fc := 2, resp := some { fc := 2, st := .ok, data := 0 } }))

/-- The datapath of the public entry point computes the exact remainder (44_barrett.md section 3). -/
def Obligations.ModshlDatapathRefinesContract : Prop :=
  ∀ (F : Fmt) (x e y : Nat), y ≠ 0 → y ≤ (2 ^ F.width - 1) / 4 → x < 2 * y →
    modshlDatapath F.width x e y = x * 2 ^ e % y

/-- 44_barrett.md R256 and R257: the encoding, the write and the response, and the case table on exact values. `written` is
the model's own (log 1). -/
def Obligations.FmodCommand : Prop :=
  (∀ (F : Fmt) (rd ra rb : RegNum),
    encode (.fmod F rd ra rb) = 0x29#6 ++ F.code ++ regField rd ++ regField ra ++ regField rb ++ 0#15) ∧
  (∀ (F : Fmt) (rd ra rb : RegNum) (s : State), s.fc = 0 →
    exec (.fmod F rd ra rb) s = .next { s with
      x := s.x.set rd (zext128 (fmodExact (operand F s ra) (operand F s rb)))
      written := s.written.set rd true
      resp := some { fc := 0, st := .ok, data := zext128 (fmodExact (operand F s ra) (operand F s rb)) } }) ∧
  (∀ (F : Fmt) (a b : Pat F), isFinite a = true → isFinite b = true → isZero b = false →
    |val b| ≤ |val a| → |val (fmodExact a b)| = exactRemainder a b)

/-- The properties of `FMOD` for finite a and finite non-zero b (44_barrett.md section 4). -/
def Obligations.FmodProperties : Prop :=
  ∀ (F : Fmt) (a b : Pat F), isFinite a = true → isFinite b = true → isZero b = false →
    |val (fmodPat a b)| < |val b| ∧ signOf (fmodPat a b) = signOf a ∧
    (∃ k : ℤ, val a - val (fmodPat a b) = k * val b) ∧ (|val a| < |val b| → fmodPat a b = a)

/-- The datapath of `FMOD` computes the contract for |a| ≥ |b| (44_barrett.md section 4). -/
def Obligations.FmodDatapathRefinesContract : Prop :=
  ∀ (F : Fmt) (a b : Pat F), isFinite a = true → isFinite b = true → isZero b = false → |val b| ≤ |val a| →
    fmodDatapath a b = fmodExact a b

/-- The number of reduction steps of `FMOD` is bounded per format, 3, 10, 34 and 259 (44_barrett.md section 3). -/
def Obligations.FmodStepBound : Prop :=
  (∀ (F : Fmt) (a b : Pat F), isFinite a = true → isFinite b = true → isZero b = false → |val b| ≤ |val a| →
    (sigExp b).1 &&& ((sigExp b).1 - 1) ≠ 0 →
    let e := (sigExp a).2 - (sigExp b).2 + (clz F.width (sigExp b).1 - 2)
    wordReduceCount F.width e e = e / (F.width - 1) ∧
    wordReduceCount F.width e e + 1 ≤ (2 ^ F.expBits + F.width - 7) / (F.width - 1) + 1) ∧
  [Fmt.f16, .f32, .f64, .f128].map (fun F => (2 ^ F.expBits + F.width - 7) / (F.width - 1) + 1) = [3, 10, 34, 259]

/-! Argument reduction (45_rem_pio2.md). The machine runs the parameters of its state (log 7), whatever they are; a statement
that names `trigDefaults` is about a unit built with the spec's defaults. The collaborator is any function f. -/

/-- The encoding, the three destinations, the response, and nothing else written but the LRR port (45_rem_pio2.md section 1,
R271), for whatever parameters the unit is built with (log 7). That the command answers also in the large regime is the
model's choice of a collaborator that always answers (log 4), and `written` is the model's own (log 1). -/
def Obligations.RempioCommand : Prop :=
  (∀ rd ra : RegNum, encode (.rempio2 rd ra) = 0x30#6 ++ 2#2 ++ regField rd ++ regField ra ++ 0#18) ∧
  (∀ (rd ra : RegNum) (s : State), s.fc = 0 →
    let r := remPio2 s.trig Config.lrr ((s.x[ra]).setWidth 64)
    ∃ t, exec (.rempio2 rd ra) s = .next t ∧
      t.x[rd] = (r.1.y0).setWidth 128 ∧
      t.x[(rd + 1 : RegNum)] = (r.1.y1).setWidth 128 ∧
      t.x[(rd + 2 : RegNum)] = BitVec.ofInt 128 r.1.n.toInt ∧
      (∀ j : RegNum, j ≠ rd → j ≠ rd + 1 → j ≠ rd + 2 → t.x[j] = s.x[j]) ∧
      t = { s with
        x := t.x, written := t.written, lrrReq := r.2
        resp := some { fc := 0, st := .ok, data := (r.1.y0).setWidth 128 } }) ∧
  (∀ rd : RegNum, (rd + 1 : RegNum).val = (rd.val + 1) % 8 ∧ (rd + 2 : RegNum).val = (rd.val + 2) % 8)

/-- 45_rem_pio2.md R274 and R275: inputs already in range, infinities and NaNs, for whatever parameters the unit is built with;
0x3FE921FB is the default of the threshold (00_scope.md R10, log 7). -/
def Obligations.RempioSmallAndNonFinite : Prop :=
  ∀ (T : TrigParams) (f : LrrRequest → LrrResponse) (p : Pat .f64),
    ((p.extractLsb' 32 31).toNat ≤ T.quarter1 → (p.extractLsb' 32 31).toNat < 0x7FF00000 →
      remPio2 T f p = ({ n := 0, y0 := p, y1 := 0 }, none)) ∧
    ((p.extractLsb' 32 31).toNat ≤ 0x3FE921FB →
      remPio2 trigDefaults f p = ({ n := 0, y0 := p, y1 := 0 }, none)) ∧
    (isNaN p = true →
      remPio2 T f p =
        ({ n := 0, y0 := p ||| 0x0008000000000000, y1 := p ||| 0x0008000000000000 }, none)) ∧
    (isInf p = true →
      remPio2 T f p = ({ n := 0, y0 := 0x7FF8000000000000, y1 := 0x7FF8000000000000 }, none)) ∧
    (0x7FF00000 ≤ (p.extractLsb' 32 31).toNat ↔ isNaN p = true ∨ isInf p = true)

/-- Sign symmetry as values (45_rem_pio2.md section 1): flipping the sign of a finite input negates n and both residuals and
asks the collaborator the same. A unit with the default parameters (log 7). -/
def Obligations.RempioSignSymmetry : Prop :=
  ∀ (f : LrrRequest → LrrResponse) (p : Pat .f64), isFinite p = true →
    let r := remPio2 trigDefaults f p
    let r' := remPio2 trigDefaults f (p ^^^ signMask .f64)
    r'.1.n = -r.1.n ∧ val (F := .f64) r'.1.y0 = -val (F := .f64) r.1.y0 ∧
      val (F := .f64) r'.1.y1 = -val (F := .f64) r.1.y1 ∧ r'.2 = r.2

/-- The quadrant of the medium regime is the integer nearest x·(2/π) with the binary64 constant for 2/π, the even one on a tie
(45_rem_pio2.md section 3). A unit with the default parameters (log 7). -/
def Obligations.QuadrantIsNearestInteger : Prop :=
  ∀ p : Pat .f64, regimeOf trigDefaults (highWord p) = .medium →
    val (quadrant trigDefaults p) = intOfF64 (quadrant trigDefaults p) ∧
    intOfF64 (quadrant trigDefaults p) = nearestEvenRat (val p * val (F := .f64) trigDefaults.invPio2) ∧
    |intOfF64 (quadrant trigDefaults p)| ≤ 2 ^ 20 + 1

/-- The range of the quadrant index per regime (45_rem_pio2.md section 5), the last for a collaborator that returns 0 to 7
(section 4, the one assumption on it). A unit with the default parameters (log 7). -/
def Obligations.QuadrantIndexRange : Prop :=
  ∀ (f : LrrRequest → LrrResponse) (p : Pat .f64),
    let n := (remPio2 trigDefaults f p).1.n.toInt
    (regimeOf trigDefaults (highWord p) = .small → n = 0) ∧
    (∀ k, regimeOf trigDefaults (highWord p) = .direct k →
      1 ≤ k ∧ k ≤ 4 ∧ n = (if signOf p then -(k : ℤ) else k)) ∧
    (regimeOf trigDefaults (highWord p) = .medium → |n| ≤ 2 ^ 20 + 1) ∧
    (regimeOf trigDefaults (highWord p) = .large → LrrCountInRange f → |n| ≤ 7)

/-- The default constants and thresholds (log 7) are the functions of π that 45_rem_pio2.md section 1 names (R272, R273; the
constraint of 92_eei_decisions.md section 4), and a limb of π/2 times an integer below 2^20 is exact in binary64. -/
def Obligations.TrigConstants : Prop :=
  ConstantsOfPi trigDefaults ∧ ThresholdsOfPi trigDefaults ∧
  (∀ (k : ℤ) (c : BitVec 64), |k| < 2 ^ 20 →
    c ∈ ([0x3FF921FB54400000, 0x3DD0B4611A600000, 0x3BA3198A2E000000] : List (BitVec 64)) →
    val (fmul64 (f64OfInt k) c) = k * val (F := .f64) c)

/-- The precision floors (45_rem_pio2.md section 3, R288; the constraint of 92_eei_decisions.md section 4). A unit with the
default constants and thresholds (log 7) meets them, with the fused and with the unfused quadrant; a unit whose parameters meet
them leaves in its three registers a triple that does; and with the defaults |y0 + y1| stays below π/4 + 2^−17. That last
figure is the model's: the 2^−19 of R297 fails near 7π/4 and 9π/4 (log 9). -/
def Obligations.RempioPrecisionFloors : Prop :=
  (∀ fused : Bool, PrecisionFloors { trigDefaults with fused := fused }) ∧
  (∀ (rd ra : RegNum) (s : State), s.fc = 0 → PrecisionFloors s.trig →
    ∃ t, exec (.rempio2 rd ra) s = .next t ∧
      MeetsFloor s.trig ((s.x[ra]).setWidth 64)
        { n := (t.x[(rd + 2 : RegNum)]).setWidth 32
          y0 := (t.x[rd]).setWidth 64
          y1 := (t.x[(rd + 1 : RegNum)]).setWidth 64 }) ∧
  (∀ (fused : Bool) (f : LrrRequest → LrrResponse) (p : Pat .f64), highWord p < 0x413921FB →
    let r := (remPio2 { trigDefaults with fused := fused } f p).1
    |(val (F := .f64) r.y0 : ℝ) + (val (F := .f64) r.y1 : ℝ)| < Real.pi / 4 + 1 / 2 ^ 17)

/-- The direct regime (45_rem_pio2.md sections 1 and 2, R277): k, the two operations per sign, the products exact for
k = 1, 2, 4. The constants of R272 and the brackets of R273 are the defaults of the OPEN parameters (log 7). That the first
operation is exact is what the spec itself derives there, from R273 and R112. -/
def Obligations.DirectRegime : Prop :=
  (∀ (f : LrrRequest → LrrResponse) (p : Pat .f64) (k : Nat),
    let ix := highWord p
    let k1 := fmul64 (f64OfInt k) 0x3FF921FB54400000
    let k1t := fmul64 (f64OfInt k) 0x3DD0B4611A626331
    ((k = 1 ∧ 0x3FE921FB < ix ∧ ix ≤ 0x4002D97C ∧ ix % 2 ^ 20 ≠ 0x921FB) ∨
      (k = 2 ∧ 0x4002D97C < ix ∧ ix ≤ 0x400F6A7A ∧ ix % 2 ^ 20 ≠ 0x921FB) ∨
      (k = 3 ∧ 0x400F6A7A < ix ∧ ix ≤ 0x4015FDBC ∧ ix ≠ 0x4012D97C) ∨
      (k = 4 ∧ 0x4015FDBC < ix ∧ ix ≤ 0x401C463B ∧ ix ≠ 0x401921FB)) →
    (signOf p = false →
      (let z := fsub64 p k1
       let y0 := fsub64 z k1t
       remPio2 trigDefaults f p =
        ({ n := BitVec.ofNat 32 k, y0 := y0, y1 := fsub64 (fsub64 z y0) k1t }, none) ∧
       val z = val p - k * val (F := .f64) 0x3FF921FB54400000)) ∧
    (signOf p = true →
      (let z := fadd64 p k1
       let y0 := fadd64 z k1t
       remPio2 trigDefaults f p =
        ({ n := -BitVec.ofNat 32 k, y0 := y0, y1 := fadd64 (fsub64 z y0) k1t }, none) ∧
       val z = val p + k * val (F := .f64) 0x3FF921FB54400000))) ∧
  (∀ k ∈ [1, 2, 4], val (fmul64 (f64OfInt k) 0x3DD0B4611A626331) = k * val (F := .f64) 0x3DD0B4611A626331) ∧
  (∀ k ∈ [1, 2, 3, 4], val (fmul64 (f64OfInt k) 0x3FF921FB54400000) = k * val (F := .f64) 0x3FF921FB54400000)

/-- The three levels of the medium regime with the gaps 16 and 49, and the tail (45_rem_pio2.md section 3, R284 to R287), in
rows 3, 6, 8, 10 of R273. The constants of R272, the thresholds of R273 and the fused quadrant of R283 are the defaults of the
OPEN parameters (log 7). -/
def Obligations.MediumRegimeLevels : Prop :=
  ∀ (f : LrrRequest → LrrResponse) (p : Pat .f64),
    let ix := highWord p
    let fn := fsub64 (fma64 p 0x3FE45F306DC9C883 0x4338000000000000) 0x4338000000000000
    let n := BitVec.ofInt 32 (intOfF64 fn)
    let r1 := fsub64 p (fmul64 fn 0x3FF921FB54400000)
    let w1 := fmul64 fn 0x3DD0B4611A626331
    let y1 := fsub64 r1 w1
    let v2 := fmul64 fn 0x3DD0B4611A600000
    let r2 := fsub64 r1 v2
    let w2 := fsub64 (fmul64 fn 0x3BA3198A2E037073) (fsub64 (fsub64 r1 r2) v2)
    let y2 := fsub64 r2 w2
    let v3 := fmul64 fn 0x3BA3198A2E000000
    let r3 := fsub64 r2 v3
    let w3 := fsub64 (fmul64 fn 0x397B839A252049C1) (fsub64 (fsub64 r2 r3) v3)
    let y3 := fsub64 r3 w3
    ((0x401C463B < ix ∧ ix < 0x413921FB) ∨
      ix ∈ [0x3FF921FB, 0x400921FB, 0x4012D97C, 0x401921FB]) →
    ((ix / 2 ^ 20 : ℤ) - expf y1 ≤ 16 →
      remPio2 trigDefaults f p = ({ n := n, y0 := y1, y1 := fsub64 (fsub64 r1 y1) w1 }, none)) ∧
    (16 < (ix / 2 ^ 20 : ℤ) - expf y1 → (ix / 2 ^ 20 : ℤ) - expf y2 ≤ 49 →
      remPio2 trigDefaults f p = ({ n := n, y0 := y2, y1 := fsub64 (fsub64 r2 y2) w2 }, none)) ∧
    (16 < (ix / 2 ^ 20 : ℤ) - expf y1 → 49 < (ix / 2 ^ 20 : ℤ) - expf y2 →
      remPio2 trigDefaults f p = ({ n := n, y0 := y3, y1 := fsub64 (fsub64 r3 y3) w3 }, none))

/-- 45_rem_pio2.md R290 and R291: the digits of a large operand, their count, the exponent offset, and that they are the
operand's magnitude exactly. -/
def Obligations.LrrRequestDigits : Prop :=
  ∀ p : Pat .f64, 0x413921FB ≤ highWord p → highWord p < 0x7FF00000 →
    let q := lrrRequestOf p
    let m : Nat := 2 ^ 52 + sig p
    let tx := [q.tx0.toNat, q.tx1.toNat, q.tx2.toNat]
    tx = [m / 2 ^ 29, m / 2 ^ 5 % 2 ^ 24, m % 2 ^ 5 * 2 ^ 19] ∧
    2 ^ 23 ≤ q.tx0.toNat ∧
    (m : ℚ) / 2 ^ 29 = (q.tx0.toNat : ℚ) + q.tx1.toNat / 2 ^ 24 + q.tx2.toNat / 2 ^ 48 ∧
    1 ≤ q.nx ∧ q.nx ≤ 3 ∧ (q.nx = 1 ∨ tx.getD (q.nx - 1) 0 ≠ 0) ∧
    (∀ i, q.nx ≤ i → tx.getD i 0 = 0) ∧
    q.e0.toInt = (highWord p / 2 ^ 20 : Nat) - (1046 : ℤ) ∧ -3 ≤ q.e0.toInt ∧ q.e0.toInt ≤ 1000 ∧
    |val p| = ((List.range q.nx).map (fun i => (tx.getD i 0 : ℚ) * 2 ^ (q.e0.toInt - 24 * i))).sum

/-- Exactly one call in the large regime and none elsewhere, and the sign applied to the answer (45_rem_pio2.md section 4, R292
and R293). Where the large regime begins, 0x413921FB, is the default of the OPEN threshold of R273 (log 7). -/
def Obligations.LrrCallAndSign : Prop :=
  ∀ (f : LrrRequest → LrrResponse) (p : Pat .f64),
    (remPio2 trigDefaults f p).2 =
      (if 0x413921FB ≤ highWord p ∧ highWord p < 0x7FF00000 then some (lrrRequestOf p) else none) ∧
    (0x413921FB ≤ highWord p → highWord p < 0x7FF00000 →
      (signOf p = false → (remPio2 trigDefaults f p).1 =
        { n := (f (lrrRequestOf p)).n, y0 := (f (lrrRequestOf p)).ty0, y1 := (f (lrrRequestOf p)).ty1 }) ∧
      (signOf p = true → (remPio2 trigDefaults f p).1 =
        { n := -(f (lrrRequestOf p)).n
          y0 := (f (lrrRequestOf p)).ty0 ^^^ 0x8000000000000000
          y1 := (f (lrrRequestOf p)).ty1 ^^^ 0x8000000000000000 }))
end

