-- ==== Sys2Proof/Laws/Barrett.lean ====
section
/-! SUPPORT. The evaluable form of the `MODSHL` contract is the contract. -/

namespace Sys2Proof.Machine

/-- Halving the exponent computes the power: `fuel` bits suffice. -/
theorem powTwoMod_eq (y : Nat) : ∀ fuel e : Nat, e < 2 ^ fuel → powTwoMod y fuel e = 2 ^ e % y
  | 0, e, h => by
    have : e = 0 := by simpa using h
    simp [powTwoMod, this]
  | fuel + 1, e, h => by
    have hlt : e / 2 < 2 ^ fuel := by rw [pow_succ] at h; omega
    have ih := powTwoMod_eq y fuel (e / 2) hlt
    have hsplit : 2 ^ e = 2 ^ (e / 2) * 2 ^ (e / 2) * 2 ^ (e % 2) := by
      rw [← pow_add, ← pow_add]
      congr 1
      omega
    simp only [powTwoMod, ih]
    rcases Nat.mod_two_eq_zero_or_one e with h0 | h1
    · rw [hsplit, h0]
      simp [Nat.mul_mod]
    · rw [hsplit, h1]
      simp [Nat.mul_mod]

/-- `modshl` is (x·2^e) mod y for a 32-bit e (44_barrett.md R250). -/
theorem modshl_eq {e : Nat} (h : e < 2 ^ 32) (x y : Nat) : modshl x e y = x * 2 ^ e % y := by
  rw [modshl, powTwoMod_eq y 32 e h]
  simp [Nat.mul_mod]

theorem shiftOperand_lt (s : State) (r : RegNum) : shiftOperand s r < 2 ^ 32 := BitVec.isLt _

end Sys2Proof.Machine
end

