-- ==== Sys2Proof/Laws/Decode.lean ====
section
/-! SUPPORT. The field layout: packing and taking apart are inverse, and what decoding from fields can answer. -/

namespace Sys2Proof

/-- Bit j of the packed word, field by field. -/
theorem packFields_getLsbD (f : Fields) (j : Nat) : (packFields f).getLsbD j =
    (if j < 12 then f.imm12.getLsbD j
    else if j < 15 then f.rc.getLsbD (j - 12)
    else if j < 18 then f.rb.getLsbD (j - 15)
    else if j < 21 then f.ra.getLsbD (j - 18)
    else if j < 24 then f.rd.getLsbD (j - 21)
    else if j < 26 then f.fmt.getLsbD (j - 24)
    else f.opcode.getLsbD (j - 26)) := by
  have h : (packFields f).getLsbD j = (f.opcode ++ f.fmt ++ f.rd ++ f.ra ++ f.rb ++ f.rc ++ f.imm12 :
      BitVec (6 + 2 + 3 + 3 + 3 + 3 + 12)).getLsbD j := rfl
  rw [h, BitVec.getLsbD_append, BitVec.getLsbD_append, BitVec.getLsbD_append, BitVec.getLsbD_append,
    BitVec.getLsbD_append, BitVec.getLsbD_append]
  simp only [Nat.sub_sub]
  repeat' split
  all_goals first | rfl | omega

/-- Taking a packed word apart gives the fields (30_encoding.md R71). -/
theorem fieldsOf_packFields (f : Fields) : fieldsOf (packFields f) = f := by
  obtain ⟨opcode, fmt, rd, ra, rb, rc, imm12⟩ := f
  simp only [fieldsOf, Fields.mk.injEq]
  refine ⟨?_, ?_, ?_, ?_, ?_, ?_, ?_⟩ <;>
    (apply BitVec.eq_of_getLsbD_eq; intro j hj; rw [BitVec.getLsbD_extractLsb', packFields_getLsbD])
  all_goals simp only [hj, decide_true, Bool.true_and]
  all_goals repeat' split
  all_goals first | omega | (congr 1; omega)

/-- Packing the fields of a word gives the word (30_encoding.md R71). -/
theorem packFields_fieldsOf (w : CmdWord) : packFields (fieldsOf w) = w := by
  apply BitVec.eq_of_getLsbD_eq
  intro j hj
  rw [packFields_getLsbD]
  simp only [fieldsOf, BitVec.getLsbD_extractLsb']
  repeat' split
  all_goals (rw [decide_eq_true (by omega), Bool.true_and]; congr 1; omega)

/-- All that decoding from fields can answer: an instruction, when the opcode is assigned, the unused fields are zero and
`REMPIO2` names f64; else a reserved encoding. -/
theorem decodeFields_ok_iff (f : Fields) (i : Instr) :
    decodeFields f = .ok i ↔ ∃ op, Op.ofCode f.opcode = some op ∧ op.uses.unusedZero f = true ∧
      (op = .rempio2 → f.fmt = Fmt.f64.code) ∧ i = op.build f := by
  unfold decodeFields
  cases h : Op.ofCode f.opcode with
  | none => simp; split <;> simp
  | some op =>
    by_cases hz : op.uses.unusedZero f = true
    · by_cases hr : op = .rempio2 ∧ f.fmt ≠ Fmt.f64.code
      · obtain ⟨rfl, hf⟩ := hr
        simp [hz, hf]
      · have hr' : op = .rempio2 → f.fmt = Fmt.f64.code := fun e => by
          by_contra hne
          exact hr ⟨e, hne⟩
        simp only [hz, hr, if_false, Option.some.injEq]
        constructor
        · intro e
          exact ⟨op, rfl, hz, hr', by simpa using e.symm⟩
        · rintro ⟨op', rfl, _, _, rfl⟩
          rfl
    · simp [hz]

end Sys2Proof
end

