-- ==== Sys2Proof/Laws/State.lean ====
section
/-! SUPPORT. One lemma per field per update of the state, each true by rfl, so that no proof unfolds a record update. -/

namespace Sys2Proof.Machine

/-! accrue -/

@[simp] theorem accrue_x (st : Status) (s : State) : (accrue st s).x = s.x := rfl
@[simp] theorem accrue_nx (st : Status) (s : State) : (accrue st s).nx = (s.nx || decide (st = .inexact)) := rfl
@[simp] theorem accrue_fc (st : Status) (s : State) : (accrue st s).fc = s.fc := rfl
@[simp] theorem accrue_br (st : Status) (s : State) : (accrue st s).br = s.br := rfl
@[simp] theorem accrue_inputs (st : Status) (s : State) : (accrue st s).inputs = s.inputs := rfl
@[simp] theorem accrue_wdata (st : Status) (s : State) : (accrue st s).wdata = s.wdata := rfl
@[simp] theorem accrue_resp (st : Status) (s : State) : (accrue st s).resp = s.resp := rfl
@[simp] theorem accrue_lrrReq (st : Status) (s : State) : (accrue st s).lrrReq = s.lrrReq := rfl
@[simp] theorem accrue_trig (st : Status) (s : State) : (accrue st s).trig = s.trig := rfl
@[simp] theorem accrue_written (st : Status) (s : State) : (accrue st s).written = s.written := rfl
@[simp] theorem accrue_fresh (st : Status) (s : State) : (accrue st s).fresh = s.fresh := rfl

/-! clearNx -/

@[simp] theorem clearNx_x (s : State) : (clearNx s).x = s.x := rfl
@[simp] theorem clearNx_nx (s : State) : (clearNx s).nx = false := rfl
@[simp] theorem clearNx_fc (s : State) : (clearNx s).fc = s.fc := rfl
@[simp] theorem clearNx_br (s : State) : (clearNx s).br = s.br := rfl
@[simp] theorem clearNx_inputs (s : State) : (clearNx s).inputs = s.inputs := rfl
@[simp] theorem clearNx_wdata (s : State) : (clearNx s).wdata = s.wdata := rfl
@[simp] theorem clearNx_resp (s : State) : (clearNx s).resp = s.resp := rfl
@[simp] theorem clearNx_lrrReq (s : State) : (clearNx s).lrrReq = s.lrrReq := rfl
@[simp] theorem clearNx_trig (s : State) : (clearNx s).trig = s.trig := rfl
@[simp] theorem clearNx_written (s : State) : (clearNx s).written = s.written := rfl
@[simp] theorem clearNx_fresh (s : State) : (clearNx s).fresh = s.fresh := rfl

/-! writeX -/

@[simp] theorem writeX_x (r : RegNum) (v : Word) (s : State) : (writeX r v s).x = s.x.set r v := rfl
@[simp] theorem writeX_nx (r : RegNum) (v : Word) (s : State) : (writeX r v s).nx = s.nx := rfl
@[simp] theorem writeX_fc (r : RegNum) (v : Word) (s : State) : (writeX r v s).fc = s.fc := rfl
@[simp] theorem writeX_br (r : RegNum) (v : Word) (s : State) : (writeX r v s).br = s.br := rfl
@[simp] theorem writeX_inputs (r : RegNum) (v : Word) (s : State) : (writeX r v s).inputs = s.inputs := rfl
@[simp] theorem writeX_wdata (r : RegNum) (v : Word) (s : State) : (writeX r v s).wdata = s.wdata := rfl
@[simp] theorem writeX_resp (r : RegNum) (v : Word) (s : State) : (writeX r v s).resp = s.resp := rfl
@[simp] theorem writeX_lrrReq (r : RegNum) (v : Word) (s : State) : (writeX r v s).lrrReq = s.lrrReq := rfl
@[simp] theorem writeX_trig (r : RegNum) (v : Word) (s : State) : (writeX r v s).trig = s.trig := rfl
@[simp] theorem writeX_written (r : RegNum) (v : Word) (s : State) : (writeX r v s).written = s.written.set r true := rfl
@[simp] theorem writeX_fresh (r : RegNum) (v : Word) (s : State) : (writeX r v s).fresh = s.fresh := rfl

/-! respond -/

@[simp] theorem respond_x (d : Word) (st : Status) (s : State) : (respond d st s).x = s.x := rfl
@[simp] theorem respond_nx (d : Word) (st : Status) (s : State) : (respond d st s).nx = s.nx := rfl
@[simp] theorem respond_fc (d : Word) (st : Status) (s : State) : (respond d st s).fc = s.fc := rfl
@[simp] theorem respond_br (d : Word) (st : Status) (s : State) : (respond d st s).br = s.br := rfl
@[simp] theorem respond_inputs (d : Word) (st : Status) (s : State) : (respond d st s).inputs = s.inputs := rfl
@[simp] theorem respond_wdata (d : Word) (st : Status) (s : State) : (respond d st s).wdata = s.wdata := rfl
@[simp] theorem respond_resp (d : Word) (st : Status) (s : State) : (respond d st s).resp = some { fc := 0, st := st, data := d } := rfl
@[simp] theorem respond_lrrReq (d : Word) (st : Status) (s : State) : (respond d st s).lrrReq = s.lrrReq := rfl
@[simp] theorem respond_trig (d : Word) (st : Status) (s : State) : (respond d st s).trig = s.trig := rfl
@[simp] theorem respond_written (d : Word) (st : Status) (s : State) : (respond d st s).written = s.written := rfl
@[simp] theorem respond_fresh (d : Word) (st : Status) (s : State) : (respond d st s).fresh = s.fresh := rfl

/-! finish -/

@[simp] theorem finish_x (r : RegNum) (v : Word) (st : Status) (s : State) : (finish r v st s).x = s.x.set r v := rfl
@[simp] theorem finish_nx (r : RegNum) (v : Word) (st : Status) (s : State) : (finish r v st s).nx = s.nx := rfl
@[simp] theorem finish_fc (r : RegNum) (v : Word) (st : Status) (s : State) : (finish r v st s).fc = s.fc := rfl
@[simp] theorem finish_br (r : RegNum) (v : Word) (st : Status) (s : State) : (finish r v st s).br = s.br := rfl
@[simp] theorem finish_inputs (r : RegNum) (v : Word) (st : Status) (s : State) : (finish r v st s).inputs = s.inputs := rfl
@[simp] theorem finish_wdata (r : RegNum) (v : Word) (st : Status) (s : State) : (finish r v st s).wdata = s.wdata := rfl
@[simp] theorem finish_resp (r : RegNum) (v : Word) (st : Status) (s : State) : (finish r v st s).resp = some { fc := 0, st := st, data := v } := rfl
@[simp] theorem finish_lrrReq (r : RegNum) (v : Word) (st : Status) (s : State) : (finish r v st s).lrrReq = s.lrrReq := rfl
@[simp] theorem finish_trig (r : RegNum) (v : Word) (st : Status) (s : State) : (finish r v st s).trig = s.trig := rfl
@[simp] theorem finish_written (r : RegNum) (v : Word) (st : Status) (s : State) : (finish r v st s).written = s.written.set r true := rfl
@[simp] theorem finish_fresh (r : RegNum) (v : Word) (st : Status) (s : State) : (finish r v st s).fresh = s.fresh := rfl

/-! raiseFault -/

@[simp] theorem raiseFault_x (c : BitVec 4) (s : State) : (raiseFault c s).x = s.x := rfl
@[simp] theorem raiseFault_nx (c : BitVec 4) (s : State) : (raiseFault c s).nx = s.nx := rfl
@[simp] theorem raiseFault_fc (c : BitVec 4) (s : State) : (raiseFault c s).fc = c := rfl
@[simp] theorem raiseFault_br (c : BitVec 4) (s : State) : (raiseFault c s).br = s.br := rfl
@[simp] theorem raiseFault_inputs (c : BitVec 4) (s : State) : (raiseFault c s).inputs = s.inputs := rfl
@[simp] theorem raiseFault_wdata (c : BitVec 4) (s : State) : (raiseFault c s).wdata = s.wdata := rfl
@[simp] theorem raiseFault_resp (c : BitVec 4) (s : State) : (raiseFault c s).resp = some { fc := c, st := .ok, data := 0 } := rfl
@[simp] theorem raiseFault_lrrReq (c : BitVec 4) (s : State) : (raiseFault c s).lrrReq = s.lrrReq := rfl
@[simp] theorem raiseFault_trig (c : BitVec 4) (s : State) : (raiseFault c s).trig = s.trig := rfl
@[simp] theorem raiseFault_written (c : BitVec 4) (s : State) : (raiseFault c s).written = s.written := rfl
@[simp] theorem raiseFault_fresh (c : BitVec 4) (s : State) : (raiseFault c s).fresh = s.fresh := rfl

/-! answerFaulted -/

@[simp] theorem answerFaulted_x (s : State) : (answerFaulted s).x = s.x := rfl
@[simp] theorem answerFaulted_nx (s : State) : (answerFaulted s).nx = s.nx := rfl
@[simp] theorem answerFaulted_fc (s : State) : (answerFaulted s).fc = s.fc := rfl
@[simp] theorem answerFaulted_br (s : State) : (answerFaulted s).br = s.br := rfl
@[simp] theorem answerFaulted_inputs (s : State) : (answerFaulted s).inputs = s.inputs := rfl
@[simp] theorem answerFaulted_wdata (s : State) : (answerFaulted s).wdata = s.wdata := rfl
@[simp] theorem answerFaulted_resp (s : State) : (answerFaulted s).resp = some { fc := s.fc, st := .ok, data := 0 } := rfl
@[simp] theorem answerFaulted_lrrReq (s : State) : (answerFaulted s).lrrReq = s.lrrReq := rfl
@[simp] theorem answerFaulted_trig (s : State) : (answerFaulted s).trig = s.trig := rfl
@[simp] theorem answerFaulted_written (s : State) : (answerFaulted s).written = s.written := rfl
@[simp] theorem answerFaulted_fresh (s : State) : (answerFaulted s).fresh = s.fresh := rfl

/-! setBr -/

@[simp] theorem setBr_x (b : Reducer) (s : State) : (setBr b s).x = s.x := rfl
@[simp] theorem setBr_nx (b : Reducer) (s : State) : (setBr b s).nx = s.nx := rfl
@[simp] theorem setBr_fc (b : Reducer) (s : State) : (setBr b s).fc = s.fc := rfl
@[simp] theorem setBr_br (b : Reducer) (s : State) : (setBr b s).br = b := rfl
@[simp] theorem setBr_inputs (b : Reducer) (s : State) : (setBr b s).inputs = s.inputs := rfl
@[simp] theorem setBr_wdata (b : Reducer) (s : State) : (setBr b s).wdata = s.wdata := rfl
@[simp] theorem setBr_resp (b : Reducer) (s : State) : (setBr b s).resp = s.resp := rfl
@[simp] theorem setBr_lrrReq (b : Reducer) (s : State) : (setBr b s).lrrReq = s.lrrReq := rfl
@[simp] theorem setBr_trig (b : Reducer) (s : State) : (setBr b s).trig = s.trig := rfl
@[simp] theorem setBr_written (b : Reducer) (s : State) : (setBr b s).written = s.written := rfl
@[simp] theorem setBr_fresh (b : Reducer) (s : State) : (setBr b s).fresh = s.fresh := rfl

/-! discardBr -/

@[simp] theorem discardBr_x (s : State) : (discardBr s).x = s.x := rfl
@[simp] theorem discardBr_nx (s : State) : (discardBr s).nx = s.nx := rfl
@[simp] theorem discardBr_fc (s : State) : (discardBr s).fc = s.fc := rfl
@[simp] theorem discardBr_br (s : State) : (discardBr s).br = discardReducer s.fresh s.br := rfl
@[simp] theorem discardBr_inputs (s : State) : (discardBr s).inputs = s.inputs := rfl
@[simp] theorem discardBr_wdata (s : State) : (discardBr s).wdata = s.wdata := rfl
@[simp] theorem discardBr_resp (s : State) : (discardBr s).resp = s.resp := rfl
@[simp] theorem discardBr_lrrReq (s : State) : (discardBr s).lrrReq = s.lrrReq := rfl
@[simp] theorem discardBr_trig (s : State) : (discardBr s).trig = s.trig := rfl
@[simp] theorem discardBr_written (s : State) : (discardBr s).written = s.written := rfl
@[simp] theorem discardBr_fresh (s : State) : (discardBr s).fresh = s.fresh + 1 := rfl

/-! setLrr -/

@[simp] theorem setLrr_x (q : Option LrrRequest) (s : State) : (setLrr q s).x = s.x := rfl
@[simp] theorem setLrr_nx (q : Option LrrRequest) (s : State) : (setLrr q s).nx = s.nx := rfl
@[simp] theorem setLrr_fc (q : Option LrrRequest) (s : State) : (setLrr q s).fc = s.fc := rfl
@[simp] theorem setLrr_br (q : Option LrrRequest) (s : State) : (setLrr q s).br = s.br := rfl
@[simp] theorem setLrr_inputs (q : Option LrrRequest) (s : State) : (setLrr q s).inputs = s.inputs := rfl
@[simp] theorem setLrr_wdata (q : Option LrrRequest) (s : State) : (setLrr q s).wdata = s.wdata := rfl
@[simp] theorem setLrr_resp (q : Option LrrRequest) (s : State) : (setLrr q s).resp = s.resp := rfl
@[simp] theorem setLrr_lrrReq (q : Option LrrRequest) (s : State) : (setLrr q s).lrrReq = q := rfl
@[simp] theorem setLrr_trig (q : Option LrrRequest) (s : State) : (setLrr q s).trig = s.trig := rfl
@[simp] theorem setLrr_written (q : Option LrrRequest) (s : State) : (setLrr q s).written = s.written := rfl
@[simp] theorem setLrr_fresh (q : Option LrrRequest) (s : State) : (setLrr q s).fresh = s.fresh := rfl

/-! acceptRequest -/

@[simp] theorem acceptRequest_x (q : Request) (s : State) : (acceptRequest q s).x = s.x := rfl
@[simp] theorem acceptRequest_nx (q : Request) (s : State) : (acceptRequest q s).nx = s.nx := rfl
@[simp] theorem acceptRequest_fc (q : Request) (s : State) : (acceptRequest q s).fc = s.fc := rfl
@[simp] theorem acceptRequest_br (q : Request) (s : State) : (acceptRequest q s).br = s.br := rfl
@[simp] theorem acceptRequest_inputs (q : Request) (s : State) : (acceptRequest q s).inputs = s.inputs := rfl
@[simp] theorem acceptRequest_wdata (q : Request) (s : State) : (acceptRequest q s).wdata = q.wdata := rfl
@[simp] theorem acceptRequest_resp (q : Request) (s : State) : (acceptRequest q s).resp = s.resp := rfl
@[simp] theorem acceptRequest_lrrReq (q : Request) (s : State) : (acceptRequest q s).lrrReq = none := rfl
@[simp] theorem acceptRequest_trig (q : Request) (s : State) : (acceptRequest q s).trig = s.trig := rfl
@[simp] theorem acceptRequest_written (q : Request) (s : State) : (acceptRequest q s).written = s.written := rfl
@[simp] theorem acceptRequest_fresh (q : Request) (s : State) : (acceptRequest q s).fresh = s.fresh := rfl

/-! resetUnit -/

@[simp] theorem resetUnit_x (s : State) : (resetUnit s).x = Vector.replicate 8 0 := rfl
@[simp] theorem resetUnit_nx (s : State) : (resetUnit s).nx = false := rfl
@[simp] theorem resetUnit_fc (s : State) : (resetUnit s).fc = 0 := rfl
@[simp] theorem resetUnit_br (s : State) : (resetUnit s).br = Reducer.reset := rfl
@[simp] theorem resetUnit_inputs (s : State) : (resetUnit s).inputs = s.inputs := rfl
@[simp] theorem resetUnit_wdata (s : State) : (resetUnit s).wdata = 0 := rfl
@[simp] theorem resetUnit_resp (s : State) : (resetUnit s).resp = none := rfl
@[simp] theorem resetUnit_lrrReq (s : State) : (resetUnit s).lrrReq = none := rfl
@[simp] theorem resetUnit_trig (s : State) : (resetUnit s).trig = s.trig := rfl
@[simp] theorem resetUnit_written (s : State) : (resetUnit s).written = Vector.replicate 8 false := rfl
@[simp] theorem resetUnit_fresh (s : State) : (resetUnit s).fresh = s.fresh := rfl

/-! The reducer's updates. -/

@[simp] theorem newReducer_fmt (F : Fmt) (x n : Nat) : (newReducer F x n).fmt = F := rfl
@[simp] theorem newReducer_valid (F : Fmt) (x n : Nat) : (newReducer F x n).valid = true := rfl
@[simp] theorem newReducer_div (F : Fmt) (x n : Nat) : (newReducer F x n).div = BitVec.ofNat 128 (2 * n) := rfl
@[simp] theorem stepReducer_div (k : Nat) (b : Reducer) : (stepReducer k b).div = b.div := rfl
@[simp] theorem stepReducer_quo (k : Nat) (b : Reducer) : (stepReducer k b).quo = b.quo := rfl
@[simp] theorem stepReducer_rem (k : Nat) (b : Reducer) : (stepReducer k b).rem = b.rem := rfl
@[simp] theorem stepReducer_fmt (k : Nat) (b : Reducer) : (stepReducer k b).fmt = b.fmt := rfl
@[simp] theorem stepReducer_valid (k : Nat) (b : Reducer) : (stepReducer k b).valid = b.valid := rfl
@[simp] theorem discardReducer_fmt (k : Nat) (b : Reducer) : (discardReducer k b).fmt = b.fmt := rfl
@[simp] theorem discardReducer_valid (k : Nat) (b : Reducer) : (discardReducer k b).valid = false := rfl

end Sys2Proof.Machine
end

