-- ==== Sys2Proof/Laws/Ops.lean ====
section
/-! SUPPORT. What each shared operation can do, said once: serving a command, a checked command, register reads after writes,
the operands, and a step. -/

namespace Sys2Proof.Machine

/-- Serving a command answers a next state: its effect when the unit is not faulted, else the stored code. -/
theorem serve_eq (s effect : State) : serve s effect = .next (if s.fc = 0 then effect else answerFaulted s) := rfl

theorem serve_of_running {s : State} (h : s.fc = 0) (effect : State) : serve s effect = .next effect := by
  rw [serve, if_pos h]

theorem serve_of_faulted {s : State} (h : s.fc ≠ 0) (effect : State) : serve s effect = .next (answerFaulted s) := by
  rw [serve, if_neg h]

/-- All that serving a command can do. -/
theorem serve_cases {s effect t : State} (h : serve s effect = .next t) :
    (s.fc = 0 ∧ t = effect) ∨ (s.fc ≠ 0 ∧ t = answerFaulted s) := by
  by_cases hf : s.fc = 0
  · rw [serve_of_running hf] at h
    exact .inl ⟨hf, by simpa using h.symm⟩
  · rw [serve_of_faulted hf] at h
    exact .inr ⟨hf, by simpa using h.symm⟩

@[simp] theorem checked_true (s effect : State) : checked true s effect = effect := rfl

@[simp] theorem checked_false (s effect : State) : checked false s effect = raiseFault contractCode s := rfl

/-- All that a checked command can do. -/
theorem checked_cases (ok : Bool) (s effect : State) :
    (ok = true ∧ checked ok s effect = effect) ∨ (ok = false ∧ checked ok s effect = raiseFault contractCode s) := by
  cases ok <;> simp

/-- A register written reads as the value written. -/
@[simp] theorem readX_writeX_same (r : RegNum) (v : Word) (s : State) : readX (writeX r v s) r = v := by
  simp [readX]

/-- A write leaves every other register alone. -/
theorem readX_writeX_ne {r j : RegNum} (h : j ≠ r) (v : Word) (s : State) : readX (writeX r v s) j = readX s j := by
  have hne : r.val ≠ j.val := fun e => h (Fin.ext e.symm)
  simp [readX, Vector.getElem_set_ne, hne]

theorem readX_congr {s s' : State} (h : s'.x = s.x) (r : RegNum) : readX s' r = readX s r := by
  simp [readX, h]

theorem operand_congr {s s' : State} (h : s'.x = s.x) (F : Fmt) (r : RegNum) : operand F s' r = operand F s r := by
  simp [operand, readX, h]

theorem shiftOperand_congr {s s' : State} (h : s'.x = s.x) (r : RegNum) : shiftOperand s' r = shiftOperand s r := by
  simp [shiftOperand, readX, h]

/-- A result narrower than a register fits its format. -/
theorem zext128_lt {n : Nat} (h : n ≤ 128) (v : BitVec n) : (zext128 v).toNat < 2 ^ n := by
  have h1 := v.isLt
  have h2 : 2 ^ n ≤ 2 ^ 128 := Nat.pow_le_pow_right (by decide) h
  simp only [zext128, BitVec.toNat_setWidth]
  rw [Nat.mod_eq_of_lt (by omega)]
  exact h1

/-- An idle step. -/
theorem step_idle {s : State} (h : s.inputs = []) : step s = .next s := by simp [step, h]

/-- A step handles the next event. -/
theorem step_event {s : State} {e : HostEvent} {rest : List HostEvent} (h : s.inputs = e :: rest) :
    step s = handleEvent exec e { s with inputs := rest } := by simp [step, h]

/-- All that serving a request can be: the instruction, or the illegal-word fault. -/
theorem serveRequest_cases (run : Instr → State → Out) (q : Request) (s : State) :
    (∃ i, decode q.cmd = .ok i ∧ serveRequest run q s = run i (acceptRequest q s)) ∨
    (∃ e, decode q.cmd = .error e ∧
      serveRequest run q s = serve (acceptRequest q s) (raiseFault illegalCode (acceptRequest q s))) := by
  cases h : decode q.cmd with
  | ok i => exact .inl ⟨i, rfl, by simp [serveRequest, h]⟩
  | error e => exact .inr ⟨e, rfl, by simp [serveRequest, h]⟩

end Sys2Proof.Machine
end

