-- ==== Sys2Proof/Laws/PerInstr.lean ====
section
/-! SUPPORT. The family EncodedFields: what the encoder puts into the fields of each instruction, one lemma per constructor. -/

namespace Sys2Proof.Laws.EncodedFields

set_option Elab.async false

/-- The fields of an instruction select its command, leave every unused field zero, rebuild the instruction when it is well
formed, and name f64 for `REMPIO2` (30_encoding.md R72, R74, R75, R79). -/
def Statement (i : Instr) : Prop :=
  Op.ofCode i.fields.opcode = some i.op ∧ i.op.uses.unusedZero i.fields = true ∧
    (i.wf = true → i.op.build i.fields = i) ∧ (i.op = .rempio2 → i.fields.fmt = Fmt.f64.code)

theorem ofCode_code (op : Op) : Op.ofCode op.code = some op := by cases op <;> decide

@[simp] theorem fmt_ofCode_code (F : Fmt) : Fmt.ofCode F.code = F := by cases F <;> decide

@[simp] theorem regOf_regField (r : RegNum) : regOf (regField r) = r := rfl

theorem nop : Statement .nop :=
  ⟨ofCode_code Op.nop, by simp [Instr.op, Instr.fields, Op.uses, Uses.unusedZero],
    fun _ => rfl, fun h => by cases h⟩

theorem wr (xd : RegNum) : Statement (.wr xd) :=
  ⟨ofCode_code Op.wr, by simp [Instr.op, Instr.fields, Op.uses, Uses.unusedZero],
    fun _ => by simp [Instr.op, Instr.fields, Op.build], fun h => by cases h⟩

theorem rd (xa : RegNum) : Statement (.rd xa) :=
  ⟨ofCode_code Op.rd, by simp [Instr.op, Instr.fields, Op.uses, Uses.unusedZero],
    fun _ => by simp [Instr.op, Instr.fields, Op.build], fun h => by cases h⟩

theorem mov (xd : RegNum) (xa : RegNum) : Statement (.mov xd xa) :=
  ⟨ofCode_code Op.mov, by simp [Instr.op, Instr.fields, Op.uses, Uses.unusedZero],
    fun _ => by simp [Instr.op, Instr.fields, Op.build], fun h => by cases h⟩

theorem rdst : Statement .rdst :=
  ⟨ofCode_code Op.rdst, by simp [Instr.op, Instr.fields, Op.uses, Uses.unusedZero],
    fun _ => rfl, fun h => by cases h⟩

theorem clrst : Statement .clrst :=
  ⟨ofCode_code Op.clrst, by simp [Instr.op, Instr.fields, Op.uses, Uses.unusedZero],
    fun _ => rfl, fun h => by cases h⟩

theorem ceil (F : Fmt) (xd : RegNum) (xa : RegNum) : Statement (.ceil F xd xa) :=
  ⟨ofCode_code Op.ceil, by simp [Instr.op, Instr.fields, Op.uses, Uses.unusedZero],
    fun _ => by simp [Instr.op, Instr.fields, Op.build], fun h => by cases h⟩

theorem floor (F : Fmt) (xd : RegNum) (xa : RegNum) : Statement (.floor F xd xa) :=
  ⟨ofCode_code Op.floor, by simp [Instr.op, Instr.fields, Op.uses, Uses.unusedZero],
    fun _ => by simp [Instr.op, Instr.fields, Op.build], fun h => by cases h⟩

theorem trunc (F : Fmt) (xd : RegNum) (xa : RegNum) : Statement (.trunc F xd xa) :=
  ⟨ofCode_code Op.trunc, by simp [Instr.op, Instr.fields, Op.uses, Uses.unusedZero],
    fun _ => by simp [Instr.op, Instr.fields, Op.build], fun h => by cases h⟩

theorem round (F : Fmt) (xd : RegNum) (xa : RegNum) : Statement (.round F xd xa) :=
  ⟨ofCode_code Op.round, by simp [Instr.op, Instr.fields, Op.uses, Uses.unusedZero],
    fun _ => by simp [Instr.op, Instr.fields, Op.build], fun h => by cases h⟩

theorem roundeven (F : Fmt) (xd : RegNum) (xa : RegNum) : Statement (.roundeven F xd xa) :=
  ⟨ofCode_code Op.roundeven, by simp [Instr.op, Instr.fields, Op.uses, Uses.unusedZero],
    fun _ => by simp [Instr.op, Instr.fields, Op.build], fun h => by cases h⟩

theorem mul (F : Fmt) (xd : RegNum) (xa : RegNum) (xb : RegNum) : Statement (.mul F xd xa xb) :=
  ⟨ofCode_code Op.mul, by simp [Instr.op, Instr.fields, Op.uses, Uses.unusedZero],
    fun _ => by simp [Instr.op, Instr.fields, Op.build], fun h => by cases h⟩

theorem div (F : Fmt) (xd : RegNum) (xa : RegNum) (xb : RegNum) : Statement (.div F xd xa xb) :=
  ⟨ofCode_code Op.div, by simp [Instr.op, Instr.fields, Op.uses, Uses.unusedZero],
    fun _ => by simp [Instr.op, Instr.fields, Op.build], fun h => by cases h⟩

theorem brnew (F : Fmt) (xa : RegNum) (xb : RegNum) : Statement (.brnew F xa xb) :=
  ⟨ofCode_code Op.brnew, by simp [Instr.op, Instr.fields, Op.uses, Uses.unusedZero],
    fun _ => by simp [Instr.op, Instr.fields, Op.build], fun h => by cases h⟩

theorem brwrd : Statement .brwrd :=
  ⟨ofCode_code Op.brwrd, by simp [Instr.op, Instr.fields, Op.uses, Uses.unusedZero],
    fun _ => rfl, fun h => by cases h⟩

theorem brshr (k : Nat) : Statement (.brshr k) := by
  refine ⟨ofCode_code Op.brshr, by simp [Instr.op, Instr.fields, Op.uses, Uses.unusedZero], fun h => ?_, fun h => by cases h⟩
  have hk : k < 4096 := by simpa [Instr.wf] using h
  simp [Instr.op, Instr.fields, Op.build, Nat.mod_eq_of_lt hk]

theorem brrem (xd : RegNum) : Statement (.brrem xd) :=
  ⟨ofCode_code Op.brrem, by simp [Instr.op, Instr.fields, Op.uses, Uses.unusedZero],
    fun _ => by simp [Instr.op, Instr.fields, Op.build], fun h => by cases h⟩

theorem modshl (F : Fmt) (xd : RegNum) (xa : RegNum) (xb : RegNum) (xc : RegNum) : Statement (.modshl F xd xa xb xc) :=
  ⟨ofCode_code Op.modshl, by simp [Instr.op, Instr.fields, Op.uses, Uses.unusedZero],
    fun _ => by simp [Instr.op, Instr.fields, Op.build], fun h => by cases h⟩

theorem fmod (F : Fmt) (xd : RegNum) (xa : RegNum) (xb : RegNum) : Statement (.fmod F xd xa xb) :=
  ⟨ofCode_code Op.fmod, by simp [Instr.op, Instr.fields, Op.uses, Uses.unusedZero],
    fun _ => by simp [Instr.op, Instr.fields, Op.build], fun h => by cases h⟩

theorem rempio2 (xd : RegNum) (xa : RegNum) : Statement (.rempio2 xd xa) :=
  ⟨ofCode_code Op.rempio2, by simp [Instr.op, Instr.fields, Op.uses, Uses.unusedZero],
    fun _ => by simp [Instr.op, Instr.fields, Op.build], fun _ => rfl⟩

end Sys2Proof.Laws.EncodedFields
end

