-- ==== Sys2Proof/Laws/RemPio2.lean ====
section
/-! SUPPORT. One lemma per function of the argument reduction, over any parameters, and the default parameters one by one, so
that no proof compares two binary64 expressions by unfolding their arithmetic. -/

namespace Sys2Proof.Machine

/-- Thresholds in the order of the multiples of π/4 they stand for. -/
def ThresholdsRise (T : TrigParams) : Prop :=
  T.quarter1 ≤ T.quarter3 ∧ T.quarter3 ≤ T.quarter5 ∧ T.quarter5 ≤ T.quarter6 ∧ T.quarter6 ≤ T.quarter7 ∧
    T.quarter7 ≤ T.quarter8 ∧ T.quarter8 ≤ T.quarter9 ∧ T.quarter9 < T.largeMin

/-- Past the ninth quarter only the last two rows of R273 are left. -/
theorem regimeOf_above (T : TrigParams) (ix : Nat) (ord : ThresholdsRise T) (lo : T.quarter9 < ix)
    (fin : ix < 0x7FF00000) : regimeOf T ix = if ix < T.largeMin then .medium else .large := by
  obtain ⟨h1, h3, h5, h6, h7, h8, -⟩ := ord
  have below : ∀ {t : Nat}, t ≤ T.quarter9 → ¬ ix ≤ t := fun h g => Nat.lt_irrefl _ (lo.trans_le (g.trans h))
  have l7 := h7.trans h8
  have l6 := h6.trans l7
  have l5 := h5.trans l6
  have l3 := h3.trans l5
  have n6 : ix ≠ T.quarter6 := fun g => below l6 g.le
  have n8 : ix ≠ T.quarter8 := fun g => below h8 g.le
  simp only [regimeOf, Nat.not_le.mpr fin, below (h1.trans l3), below l3, below l5, below l7, below le_rfl, false_and,
    n6, n8, if_false]

/-- Between the ninth quarter and the large threshold the regime is the medium one. -/
theorem regimeOf_medium (T : TrigParams) (ix : Nat) (ord : ThresholdsRise T) (lo : T.quarter9 < ix)
    (hi : ix < T.largeMin) (fin : ix < 0x7FF00000) : regimeOf T ix = .medium := by
  rw [regimeOf_above T ix ord lo fin, if_pos hi]

/-- From the large threshold on, below the non-finite high words, the regime is the large one. -/
theorem regimeOf_large (T : TrigParams) (ix : Nat) (ord : ThresholdsRise T) (lo : T.largeMin ≤ ix)
    (fin : ix < 0x7FF00000) : regimeOf T ix = .large := by
  rw [regimeOf_above T ix ord (ord.2.2.2.2.2.2.trans_le lo) fin, if_neg (Nat.not_lt.mpr lo)]

theorem trigDefaults_rise : ThresholdsRise trigDefaults := by unfold ThresholdsRise; decide

/-- The fused quadrant of R283 with the parameters of the contract. -/
theorem quadrant_trigDefaults (p : Pat .f64) : quadrant trigDefaults p =
    fsub64 (fma64 p 0x3FE45F306DC9C883 0x4338000000000000) 0x4338000000000000 := by
  unfold quadrant
  simp only [trigDefaults, if_true]

theorem trigDefaults_pio2_1 : trigDefaults.pio2_1 = 0x3FF921FB54400000 := by simp only [trigDefaults]
theorem trigDefaults_pio2_1t : trigDefaults.pio2_1t = 0x3DD0B4611A626331 := by simp only [trigDefaults]
theorem trigDefaults_pio2_2 : trigDefaults.pio2_2 = 0x3DD0B4611A600000 := by simp only [trigDefaults]
theorem trigDefaults_pio2_2t : trigDefaults.pio2_2t = 0x3BA3198A2E037073 := by simp only [trigDefaults]
theorem trigDefaults_pio2_3 : trigDefaults.pio2_3 = 0x3BA3198A2E000000 := by simp only [trigDefaults]
theorem trigDefaults_pio2_3t : trigDefaults.pio2_3t = 0x397B839A252049C1 := by simp only [trigDefaults]

/-- The level test as the signed comparison of R285 and R286. -/
theorem cancelled_iff (ex gap : Nat) (y0 : Pat .f64) :
    cancelled ex gap y0 = true ↔ (gap : Int) < (ex : Int) - expf y0 := by
  simp only [cancelled, decide_eq_true_eq]

/-- How many levels are engaged, and by which tests. -/
theorem levelsEngaged_cases (T : TrigParams) (p fn : Pat .f64) :
    (levelsEngaged T p fn = 1 ∧ lastLevel T p fn = level1 T p fn ∧
      cancelled (highWord p / 2 ^ 20) 16 (level1 T p fn).y0 = false) ∨
    (levelsEngaged T p fn = 2 ∧ lastLevel T p fn = level2 T p fn ∧
      cancelled (highWord p / 2 ^ 20) 16 (level1 T p fn).y0 = true ∧
      cancelled (highWord p / 2 ^ 20) 49 (level2 T p fn).y0 = false) ∨
    (levelsEngaged T p fn = 3 ∧ lastLevel T p fn = level3 T p fn ∧
      cancelled (highWord p / 2 ^ 20) 16 (level1 T p fn).y0 = true ∧
      cancelled (highWord p / 2 ^ 20) 49 (level2 T p fn).y0 = true) := by
  by_cases h : cancelled (highWord p / 2 ^ 20) 16 (level1 T p fn).y0 = true
  · by_cases h' : cancelled (highWord p / 2 ^ 20) 49 (level2 T p fn).y0 = true
    · have e : levelsEngaged T p fn = 3 := by rw [levelsEngaged, if_pos h, if_pos h']
      exact .inr (.inr ⟨e, by simp only [lastLevel, e], h, h'⟩)
    · have e : levelsEngaged T p fn = 2 := by rw [levelsEngaged, if_pos h, if_neg h']
      exact .inr (.inl ⟨e, by simp only [lastLevel, e], h, Bool.eq_false_iff.mpr h'⟩)
  · have e : levelsEngaged T p fn = 1 := by rw [levelsEngaged, if_neg h]
    exact .inl ⟨e, by simp only [lastLevel, e], Bool.eq_false_iff.mpr h⟩

/-- Below the high word of infinity an operand is finite (R273 row 1). -/
theorem isFinite_of_highWord {p : Pat .f64} (h : highWord p < 0x7FF00000) : isFinite p = true := by
  have mask : (absMask .f64).toNat = 2 ^ 63 - 1 := by decide
  have inf : (infPat .f64).toNat = 0x7FF00000 * 2 ^ 32 := by decide
  have mag : absOf p = p.toNat % 2 ^ 63 := by
    rw [absOf, BitVec.toNat_and, mask, Nat.and_two_pow_sub_one_eq_mod]
  have hi : highWord p = p.toNat / 2 ^ 32 % 2 ^ 31 := by
    simp only [highWord, BitVec.extractLsb'_toNat, Nat.shiftRight_eq_div_pow]
  rw [isFinite, decide_eq_true_eq, mag, inf]
  omega

/-- The small regime is exact, so it meets the floor. -/
theorem meetsFloor_small (T : TrigParams) (p : Pat .f64) (fin : isFinite p = true) :
    MeetsFloor T p (reduceSmall p) := by
  intro bits _
  refine ⟨fin, (by decide +kernel : isFinite (F := .f64) (0 : BitVec 64) = true), ?_⟩
  have z : val (F := .f64) (0 : BitVec 64) = 0 := by decide +kernel
  have n : (0 : BitVec 32).toInt = 0 := by decide
  simp only [reduceSmall, z, n]
  norm_num
  positivity

end Sys2Proof.Machine
end

