-- ==== Sys2Proof/Tests/Slice0.lean ====
section
/-! SUPPORT. The model's own tests. Every expected value is the spec's: 30_encoding.md R81, 95_test_vectors.md,
96_test_vectors_more.md, or a rule named beside it. After them, for each statement of Certificates/Slice0 that has
hypotheses, a theorem that shows concrete values meeting them. -/

namespace Sys2Proof.Tests

open Sys2Proof.Machine

set_option Elab.async false

/-! Small helpers. -/

/-- A running unit with x1, x2, x3 written. -/
def st (a b c : Word) : State :=
  { State.reset with
    x := #v[0, a, b, c, 0, 0, 0, 0]
    written := #v[false, true, true, true, false, false, false, false] }

/-- The same with a reducer. -/
def stBr (b : Reducer) : State := { st 0 0 0 with br := b }

/-- The reducer of 96_test_vectors_more.md section 6.2: x = 12345, n = 10007, N = 16. -/
def reducer16 : Reducer :=
  { num := 0x9DE7C596, div := 0x4E2E, quo := 0x1A323, rem := 0x5B6, fmt := .f16, valid := true }

/-- The response a meaning or a step answers with. -/
def respOf (o : Out) : Option Response :=
  match o with
  | .next t => t.resp
  | .fault _ => none
  | .refused _ => none

/-- A field of the next state. -/
def fieldOf {α : Type} (o : Out) (f : State → α) : Option α :=
  match o with
  | .next t => some (f t)
  | .fault _ => none
  | .refused _ => none

/-- A normal response. -/
def okResp (d : Word) : Option Response := some { fc := 0, st := .ok, data := d }

/-- A rounding command's inexact response. -/
def inexactResp (d : Word) : Option Response := some { fc := 0, st := .inexact, data := d }

/-- A fault response. -/
def faultResp (c : BitVec 4) : Option Response := some { fc := c, st := .ok, data := 0 }

/-- A unit whose host presents one command word. -/
def asked (w : CmdWord) (s : State) : State := { s with inputs := [.request { cmd := w, wdata := 7 }] }

/-! Well-formedness: the one check. -/

theorem test_wf_refuses_brshr_4096 : (Instr.brshr 4096).wf = false := by decide

theorem test_wf_accepts_brshr_4095 : (Instr.brshr 4095).wf = true := by decide

/-! Decoding: every constructor, words of 96_test_vectors_more.md section 8.1, one of them bit by bit from R71, R74. -/

theorem test_decode_system :
    decode 0x00000000 = .ok .nop ∧ decode 0x04E00000 = .ok (.wr 7) ∧ decode 0x080C0000 = .ok (.rd 3) ∧
    decode 0x0C440000 = .ok (.mov 2 1) ∧ decode 0x10000000 = .ok .rdst ∧ decode 0x14000000 = .ok .clrst := by
  decide

theorem test_decode_rounding :
    decode 0x42440000 = .ok (.ceil .f64 2 1) ∧ decode 0x44000000 = .ok (.floor .f16 0 0) ∧
    decode 0x4BFC0000 = .ok (.trunc .f128 7 7) ∧ decode 0x4D940000 = .ok (.round .f32 4 5) ∧
    decode 0x52240000 = .ok (.roundeven .f64 1 1) := by decide

theorem test_decode_multiply_divide :
    decode 0x61650000 = .ok (.mul .f32 3 1 2) ∧ decode 0x65650000 = .ok (.div .f32 3 1 2) := by decide

theorem test_decode_reducer :
    decode 0x80050000 = .ok (.brnew .f16 1 2) ∧ decode 0x84000000 = .ok .brwrd ∧
    decode 0x88000FFF = .ok (.brshr 4095) ∧ decode 0x8C600000 = .ok (.brrem 3) ∧
    decode 0xA1853000 = .ok (.modshl .f32 4 1 2 3) ∧ decode 0xA6E50000 = .ok (.fmod .f64 7 1 2) := by decide

theorem test_decode_rempio2 : decode 0xC2840000 = .ok (.rempio2 4 1) := by decide

/-- opcode 0x28, fmt 01, rd 4, ra 1, rb 2, rc 3, imm12 0, written out in bits. -/
theorem test_decode_modshl_bits :
    decode 0b10100001100001010011000000000000#32 = .ok (.modshl .f32 4 1 2 3) := by decide

theorem test_decode_reserved :
    decode 0x00000001 = .error .fieldNotZero ∧ decode 0x05200000 = .error .fieldNotZero ∧
    decode 0x082C0000 = .error .fieldNotZero ∧ decode 0x42448000 = .error .fieldNotZero ∧
    decode 0x54000000 = .error .unassignedOpcode ∧ decode 0x65651000 = .error .fieldNotZero ∧
    decode 0x80250000 = .error .fieldNotZero ∧ decode 0x89000005 = .error .fieldNotZero ∧
    decode 0x90000000 = .error .brsqsOpcode ∧ decode 0xA1853001 = .error .fieldNotZero ∧
    decode 0xC0840000 = .error .formatNotF64 ∧ decode 0xC3840000 = .error .formatNotF64 ∧
    decode 0xFFFFFFFF = .error .unassignedOpcode := by decide

theorem test_encode_words :
    encode (.ceil .f64 2 1) = 0x42440000 ∧ encode (.brshr 5) = 0x88000005 ∧
    encode (.rempio2 4 1) = 0xC2840000 := by decide

theorem test_assembler_text : (Instr.modshl .f32 4 1 2 3).asm = "MODSHL.f32 x4, x1, x2, x3" := by decide

theorem test_table_word : decodeTableWord 32 0x8C600000 = some (.brrem 3) := by decide

/-! Constants: the mask table of 40_format_and_integer_primitives.md R102. -/

theorem test_masks_f16 :
    signMask .f16 = 0x8000 ∧ expMask .f16 = 0x7C00 ∧ sigMask .f16 = 0x03FF ∧ implicitBit .f16 = 0x0400 ∧
    quietBit .f16 = 0x0200 ∧ onePat .f16 = 0x3C00 ∧ qnan .f16 = 0x7E00 := by decide +kernel

theorem test_masks_f128 :
    expMask .f128 = 0x7FFF0000000000000000000000000000 ∧ quietBit .f128 = 0x00008000000000000000000000000000 ∧
    onePat .f128 = 0x3FFF0000000000000000000000000000 ∧ qnan .f128 = 0x7FFF8000000000000000000000000000 := by
  decide +kernel

/-! The port (60_exceptions.md R338, 46_system_commands.md). -/

theorem test_reserved_word_faults : respOf (step (asked 0x90000000 State.reset)) = faultResp 1 := by decide +kernel

theorem test_illegal_before_contract : respOf (step (asked 0x84000001 State.reset)) = faultResp 1 := by decide +kernel

theorem test_fetched_word_runs : respOf (step (State.reset.withFetchWord 32 0x84000000)) = faultResp 2 := by
  decide +kernel

theorem test_faulted_rdst : respOf (exec .rdst { State.reset with fc := 1 }) = faultResp 1 := by decide +kernel

theorem test_nop : respOf (exec .nop (st 1 2 3)) = okResp 0 := by decide +kernel

theorem test_wr : fieldOf (step (asked 0x04200000 State.reset)) (fun t => t.x[1]) = some 7 := by decide +kernel

theorem test_rd : respOf (exec (.rd 1) (st 0x3FF8000000000000 0 0)) = okResp 0x3FF8000000000000 := by decide +kernel

theorem test_mov : fieldOf (exec (.mov 2 1) (st 9 8 7)) (fun t => (t.x[1], t.x[2])) = some (9, 9) := by
  decide +kernel

/-- NX = 1, BRV = 1, BRF = 01: 46_system_commands.md R314. -/
theorem test_rdst : respOf (exec .rdst { stBr { reducer16 with fmt := .f32 } with nx := true }) = okResp 7 := by
  decide +kernel

theorem test_clrst : fieldOf (exec .clrst { st 0 0 0 with nx := true }) (fun t => t.nx) = some false := by
  decide +kernel

/-! Rounding (41_rounding.md R150 to R154, 95_test_vectors.md section 1). -/

theorem test_ceil_source : respOf (exec (.ceil .f64 2 1) (st 0x3FF8000000000000 0 0)) =
    inexactResp 0x4000000000000000 := by decide +kernel

theorem test_floor : respOf (exec (.floor .f32 2 1) (st 0xC0200000 0 0)) = inexactResp 0xC0400000 := by
  decide +kernel

theorem test_trunc_source : respOf (exec (.trunc .f64 2 1) (st 0xBFE0000000000000 0 0)) =
    inexactResp 0x8000000000000000 := by decide +kernel

theorem test_round_tie : respOf (exec (.round .f64 1 1) (st 0x4004000000000000 0 0)) =
    inexactResp 0x4008000000000000 := by decide +kernel

theorem test_roundeven_tie : respOf (exec (.roundeven .f64 1 1) (st 0x4004000000000000 0 0)) =
    inexactResp 0x4000000000000000 := by decide +kernel

theorem test_ceil_signaling_nan : respOf (exec (.ceil .f16 1 1) (st 0x7C01 0 0)) = okResp 0x7C01 := by
  decide +kernel

/-- Upper register bits are ignored and cleared (10_state.md R22), and the sticky bit is set. -/
theorem test_ceil_upper_bits : fieldOf (exec (.ceil .f16 1 1) (st 0xABCD3E00 0 0)) (fun t => (t.x[1], t.nx)) =
    some (0x4000, true) := by decide +kernel

/-! Multiply and divide (42_multiply.md R170, R173; 43_divide.md R190, R193, R215). -/

theorem test_mul : respOf (exec (.mul .f32 3 1 2) (st 0x3FC00000 0x3FC00000 0)) = okResp 0x40100000 := by
  decide +kernel

theorem test_mul_signed_zero : respOf (exec (.mul .f16 3 1 2) (st 0x0000 0xC200 0)) = okResp 0x8000 := by
  decide +kernel

theorem test_div_source : respOf (exec (.div .f32 3 1 2) (st 0x3F800000 0x40400000 0)) = okResp 0x3EAAAAAB := by
  decide +kernel

theorem test_div_by_negative_zero : respOf (exec (.div .f16 3 1 2) (st 0x3C00 0x8000 0)) = okResp 0xFC00 := by
  decide +kernel

/-- The trace of 43_divide.md R215. -/
theorem test_div_trace :
    initialEstimate 32 0xC0000000 = 0xB504F333 ∧ newtonStep 32 0xC0000000 0xB504F333 = 0xAA09E668 ∧
    newtonStep 32 0xC0000000 0xAA09E668 = 0xAAAA1339 ∧ reciprocal .f32 (divDefaults .f32) 0xC00000 = 0xAAAAAAAB ∧
    quotientEstimate .f32 (divDefaults .f32) 0x800000 0xC00000 = 0xAAAAAA := by decide +kernel

/-! Reducer (44_barrett.md R234, R240, R241, R245; 96_test_vectors_more.md section 6). -/

theorem test_brnew : fieldOf (exec (.brnew .f16 1 2) (st 0x3039 0x2717 0)) (fun t => t.br) = some reducer16 := by
  decide +kernel

theorem test_brnew_start_too_large : respOf (exec (.brnew .f16 1 2) (st 20014 10007 0)) = faultResp 2 := by
  decide +kernel

theorem test_brshr : fieldOf (exec (.brshr 5) (stBr reducer16)) (fun t => t.br.num) = some 0x3CF9917A := by
  decide +kernel

theorem test_brshr_too_far : respOf (exec (.brshr 16) (stBr reducer16)) = faultResp 2 := by decide +kernel

theorem test_brwrd : fieldOf (exec .brwrd (stBr { reducer16 with num := 0x3CF9917A })) (fun t => t.br.num) =
    some 0x4A193606 := by decide +kernel

theorem test_brrem : fieldOf (exec (.brrem 3) (stBr { reducer16 with num := 0x4A193606 }))
    (fun t => (t.x[3], t.br.valid)) = some (5793, false) := by decide +kernel

theorem test_modshl : respOf (exec (.modshl .f32 4 1 2 3) (st 1000003 999983 1000)) = okResp 941273 := by
  decide +kernel

theorem test_modshl_largest_shift : respOf (exec (.modshl .f64 4 1 2 3) (st 1 3 4294967295)) = okResp 2 := by
  decide +kernel

theorem test_modshl_datapath : modshlDatapath 16 12345 20 10007 = 5793 ∧ modshlDatapath 16 3 1 8 = 6 := by
  decide +kernel

theorem test_fmod_source : respOf (exec (.fmod .f64 3 1 2) (st 0x4014000000000000 0x4008000000000000 0)) =
    okResp 0x4000000000000000 := by decide +kernel

theorem test_fmod_subnormal_divisor : respOf (exec (.fmod .f64 3 1 2) (st 0x7FEFFFFFFFFFFFFF 0x3 0)) = okResp 2 := by
  decide +kernel

/-! Argument reduction (45_rem_pio2.md R271, R298). -/

theorem test_rempio2_direct : fieldOf (exec (.rempio2 4 1) (st 0x3FF0000000000000 0 0))
    (fun t => (t.x[4], t.x[5], t.x[6])) = some (0xBFE243F6A8885A31, 0x3C8CB3B399E00000, 1) := by decide +kernel

theorem test_rempio2_level3_wraps : fieldOf (exec (.rempio2 7 1) (st 0xBFF921FB54442D18 0 0))
    (fun t => (t.x[7], t.x[0], t.x[1])) =
    some (0x3C91A62633145C07, 0xB91F1976B7ED8FC0, 0xFFFFFFFFFFFFFFFFFFFFFFFFFFFFFFFF) := by decide +kernel

/-- The digits of 10^22 (45_rem_pio2.md R298). -/
theorem test_lrr_request : lrrRequestOf 0x4480F0CF064DD592 =
    { nx := 3, tx0 := 0x878678, tx1 := 0x326EAC, tx2 := 0x900000, e0 := 50 } := by decide +kernel

/-! Witnesses: concrete values that meet the hypotheses of each statement of Certificates/Slice0/Obligations.lean, clause by
clause, at boundary values. -/

theorem witness_DecodeEncodeRoundTrip : (Instr.brshr 4095).wf = true ∧ (Instr.rempio2 7 7).wf = true := by decide

theorem witness_CommandWordsHaveOneSpelling :
    decode 0x88000FFF = .ok (.brshr 4095) ∧ (fieldsOf 0x00000001).opcode = Op.nop.code ∧
    Op.nop.uses.unusedZero (fieldsOf 0x00000001) = false := by decide

theorem witness_DecodeAgreesWithMatchMask :
    Op.brshr.matchesWord 0x88000FFF = true ∧ Op.brshr.matchesWord 0x88000FFF = true ∧
    (Op.all.all fun op => op.matchesWord 0xFFFFFFFF == false) = true := by decide

theorem witness_ReservedWordsRaiseIllegal :
    (fieldsOf 0x90000000).opcode = 0x24 ∧ (asked 0xC3840000 (st 1 2 3)).fc = 0 ∧
    (asked 0xC3840000 (st 1 2 3)).inputs = [.request { cmd := 0xC3840000, wdata := 7 }] ∧
    decode 0xC3840000 = .error .formatNotF64 := by decide +kernel

theorem witness_StepRunsDecodedInstruction :
    (asked 0x04200000 State.reset).inputs = [.request { cmd := 0x04200000, wdata := 7 }] ∧
    decode 0x04200000 = .ok (.wr 1) ∧ decodeTableWord 32 0x8C600000 = some (.brrem 3) ∧
    (st 1 2 3).inputs = [] := by decide +kernel

theorem witness_ContractFaultsExactlyListed :
    (stBr reducer16).fc = 0 ∧ contractViolated (.brshr 16) (stBr reducer16) = true ∧
    contractViolated (.brshr 15) (stBr reducer16) = false ∧
    contractViolated (.brnew .f16 1 2) (st 0 8192 0) = true ∧
    contractViolated (.brnew .f16 1 2) (st 0 8193 0) = false ∧
    contractViolated (.brnew .f16 1 2) (st 32765 16383 0) = false ∧
    contractViolated (.brnew .f16 1 2) (st 32766 16383 0) = true ∧
    contractViolated (.brnew .f16 1 2) (st 0 16384 0) = true ∧
    contractViolated (.modshl .f16 4 1 2 3) (st 1 0 0) = true ∧
    contractViolated (.modshl .f16 4 1 2 3) (st 32765 16383 0) = false ∧
    contractViolated (.modshl .f16 4 1 2 3) (st 1 16384 0) = true ∧
    contractViolated .brwrd (st 0 0 0) = true ∧ contractViolated (.brrem 1) (st 0 0 0) = true := by decide +kernel

theorem witness_FaultChangesNothingElse :
    (asked 0x84000000 State.reset).inputs = [.request { cmd := 0x84000000, wdata := 7 }] ∧
    (asked 0x84000000 State.reset).fc = 0 ∧
    fieldOf (step (asked 0x84000000 State.reset)) (fun t => t.fc) = some 2 ∧
    (asked 0x84000000 { State.reset with fc := 1 }).fc ≠ 0 := by decide +kernel

theorem witness_FaultedUnitAnswersStoredCode :
    (asked 0x00000000 { st 1 2 3 with fc := 2 }).inputs = [.request { cmd := 0x00000000, wdata := 7 }] ∧
    (asked 0x00000000 { st 1 2 3 with fc := 2 }).fc ≠ 0 := by decide +kernel

theorem witness_OnlyResetLeavesFaulted :
    fieldOf (step { st 1 2 3 with fc := 1, inputs := [.reset] }) (fun t => t.fc) = some 0 ∧
    ({ st 1 2 3 with fc := 1, inputs := [.reset] } : State).fc ≠ 0 ∧
    fieldOf (step { st 1 2 3 with fc := 2, inputs := [.requestCutByReset { cmd := 0, wdata := 0 }] })
      (fun t => t.resp) = some none := by decide +kernel

/-- The reducer of 96_test_vectors_more.md section 6.2 holds its triple. -/
theorem reducer16_holds : ReducerHolds reducer16 10007 12345 :=
  ⟨by decide +kernel, by decide, by decide +kernel, by decide +kernel, by decide +kernel, by decide +kernel⟩

theorem witness_StepKeepsInv :
    Inv (stBr reducer16) ∧ ∃ t, step (stBr reducer16) = .next t :=
  ⟨⟨by decide +kernel, fun _ => ⟨10007, 12345, reducer16_holds⟩,
    fun r h => (nomatch (show (none : Option Response) = some r from h)),
    fun r h => (nomatch (show (none : Option Response) = some r from h))⟩, _, rfl⟩

theorem witness_FrameOfRegisters :
    (∃ t, exec (.wr 1) (st 1 2 3) = .next t) ∧ (2 : RegNum) ∉ writesOf (.wr 1) ∧
    fieldOf (exec .brwrd (st 1 2 3)) (fun t => t.fc) = some 2 := ⟨⟨_, rfl⟩, by decide, by decide +kernel⟩

theorem witness_FrameOfFlags :
    (∃ t, exec (.mul .f16 1 2 3) (st 1 2 3) = .next t) ∧ isRounding (.mul .f16 1 2 3) = false ∧
    (Instr.mul .f16 1 2 3 ≠ .clrst) ∧ isRounding (.ceil .f16 1 2) = true ∧
    ({ st 1 2 3 with nx := true } : State).nx = true ∧
    contractViolated (.mul .f16 1 2 3) (st 1 2 3) = false ∧ ({ st 1 2 3 with fc := 1 } : State).fc ≠ 0 :=
  ⟨⟨_, rfl⟩, by decide, by decide, by decide, rfl, rfl, by decide⟩

theorem witness_FrameOfReducerAndPorts :
    (∃ t, exec (.modshl .f16 4 1 2 3) (stBr reducer16) = .next t) ∧
    (∃ t, exec .brwrd (stBr reducer16) = .next t) ∧ (∃ t, exec (.brrem 3) (stBr reducer16) = .next t) :=
  ⟨⟨_, rfl⟩, ⟨_, rfl⟩, ⟨_, rfl⟩⟩

/-- Upper bits of x1 differ, for f16. -/
theorem witness_NarrowFormats :
    fmtOf (.ceil .f16 2 1) = some .f16 ∧ (st 0xABCD3E00 0 0).fc = 0 ∧
    (List.finRange 8).all (fun r : RegNum =>
      ((st 0x00003E00 0 0).x[r]).setWidth 16 == ((st 0xABCD3E00 0 0).x[r]).setWidth 16) = true ∧
    (st 0x00003E00 0 0).x[(1 : RegNum)] ≠ (st 0xABCD3E00 0 0).x[(1 : RegNum)] ∧
    fieldOf (exec (.ceil .f16 2 1) (st 0xABCD3E00 0 0)) (fun t => t.fc) = some 0 ∧
    (2 : RegNum) ∈ writesOf (.ceil .f16 2 1) := by decide +kernel

theorem witness_ByteLanesLittleEndian : Fmt.f16.width / 8 ≤ (2 : Fin 16).val := by decide

/-- Two states that differ in x7, which nothing has written, and a `RD x1`. -/
theorem witness_UnwrittenRegistersReachNothing :
    AgreeOnWritten (asked 0x08040000 (st 1 2 3))
      { asked 0x08040000 (st 1 2 3) with x := (st 1 2 3).x.set 7 99 } ∧
    safeStep (asked 0x08040000 (st 1 2 3)) = true :=
  ⟨⟨rfl, by decide +kernel⟩, by decide +kernel⟩

theorem witness_NopCommand :
    (fieldsOf 0x00000800).opcode = 0 ∧ (0x00000800 : CmdWord) ≠ 0 ∧ (st 1 2 3).fc = 0 ∧
    ({ st 1 2 3 with fc := 2 } : State).fc ≠ 0 := by decide +kernel

theorem witness_WrCommand : (st 1 2 3).fc = 0 ∧ (∀ rd, Instr.rdst ≠ .wr rd) := by decide +kernel

theorem witness_RdAndMovCommands : (st 1 2 3).fc = 0 := rfl

theorem witness_RdstCommand : (st 1 2 3).fc = 0 ∧ ({ st 1 2 3 with fc := 1 } : State).fc ≠ 0 := by decide +kernel

theorem witness_ClrstCommand :
    (st 1 2 3).fc = 0 ∧ ({ st 1 2 3 with nx := true } : State).nx = true ∧
    fieldOf (exec .clrst { st 1 2 3 with nx := true }) (fun t => t.nx) = some false := by decide +kernel

theorem witness_RoundingMatchesExactFormula : 0 < 3 ∧ 0 < 2 ∧ isFinite (0x7BFF : Pat .f16) = true := by
  decide +kernel

theorem witness_UnpackAndRoundToItself :
    isFinite (0x0001 : Pat .f16) = true ∧ isZero (0x0001 : Pat .f16) = false ∧
    isFinite (0x7BFF : Pat .f16) = true ∧ isZero (0x7BFF : Pat .f16) = false := by decide +kernel

theorem witness_BinaryArithmeticRoundsOnce :
    isFinite (0x3FF0000000000000 : Pat .f64) = true ∧ isFinite (0x8000000000000000 : Pat .f64) = true ∧
    isFinite (0x7FEFFFFFFFFFFFFF : Pat .f64) = true := by decide +kernel

theorem witness_RoundingCommands :
    (st 0x3E00 0 0).fc = 0 ∧ isFinite (operand .f16 (st 0x3E00 0 0) 1) = true ∧
    isFinite (operand .f16 (st 0x7C01 0 0) 1) = false ∧
    fieldOf (exec (.trunc .f16 2 1) (st 0xB800 0 0)) (fun t => t.x[2]) = some 0x8000 := by decide +kernel

theorem val_zero_f16 : val (0 : Pat .f16) = 0 := by
  have h : expf (0 : Pat .f16) = 0 := by decide
  have h' : sig (0 : Pat .f16) = 0 := by decide
  simp only [val, h, h', if_true, Nat.cast_zero, zero_mul, neg_zero, ite_self]

theorem witness_RoundingStatusAndRoundTrip :
    isFinite (0 : Pat .f16) = true ∧ (∃ k : ℤ, val (0 : Pat .f16) = k) ∧
    (Fmt.f16.sigBits : ℤ) ≤ (expf (0x6400 : Pat .f16) : ℤ) - Fmt.f16.bias ∧
    isFinite (0x7C00 : Pat .f16) = false :=
  ⟨by decide +kernel, ⟨0, by rw [val_zero_f16, Int.cast_zero]⟩, by decide +kernel, by decide +kernel⟩

theorem val_half_f16 : val (0x3800 : Pat .f16) = 1 / 2 := by
  have h : expf (0x3800 : Pat .f16) = 14 := by decide +kernel
  have h' : sig (0x3800 : Pat .f16) = 0 := by decide +kernel
  have h'' : signOf (0x3800 : Pat .f16) = false := by decide +kernel
  have hb : Fmt.f16.bias = 15 := by decide
  simp only [val, h, h', h'', hb]
  norm_num

theorem witness_RoundingBracket :
    isFinite (0x3800 : Pat .f16) = true ∧ ¬ ∃ k : ℤ, val (0x3800 : Pat .f16) = k := by
  refine ⟨by decide +kernel, ?_⟩
  rintro ⟨k, hk⟩
  rw [val_half_f16] at hk
  have h2 : (1 : ℚ) = ((2 * k : ℤ) : ℚ) := by push_cast; linarith
  have h3 : (1 : ℤ) = 2 * k := by exact_mod_cast h2
  omega

theorem witness_MulCommand :
    (st 0x3C00 0x0001 0).fc = 0 ∧ isNaN (mulPat (0x3C00 : Pat .f16) 0x0001) = false := by decide +kernel

theorem witness_MulDatapathRefinesContract :
    isFinite (0x7BFF : Pat .f16) = true ∧ isZero (0x7BFF : Pat .f16) = false ∧
    isFinite (0x8001 : Pat .f16) = true ∧ isZero (0x8001 : Pat .f16) = false := by decide +kernel

theorem witness_DivCommand :
    (st 0x3C00 0x0001 0).fc = 0 ∧ isNaN (divPat (0x3C00 : Pat .f16) 0x0001) = false := by decide +kernel

/-- 1/3 in f32 with the default parameters. -/
theorem witness_DivDatapathRefinesUnderBound :
    isFinite (0x3F800000 : Pat .f32) = true ∧ isZero (0x3F800000 : Pat .f32) = false ∧
    isFinite (0x40400000 : Pat .f32) = true ∧ isZero (0x40400000 : Pat .f32) = false ∧
    (divDefaults .f32).bound < reciprocal .f32 (divDefaults .f32) (unpack (0x40400000 : Pat .f32)).2 ∧
    ((reciprocal .f32 (divDefaults .f32) (unpack (0x40400000 : Pat .f32)).2 : ℤ) *
      ((unpack (0x40400000 : Pat .f32)).2 : ℤ) - 2 ^ (23 + 32)).natAbs <
        (divDefaults .f32).bound * (unpack (0x40400000 : Pat .f32)).2 ∧
    16 * (divDefaults .f32).bound * 2 ^ 23 ≤ 2 ^ 32 ∧ 1 ≤ (divDefaults .f32).passes ∧
    divPasses (divDefaults .f32) (0x3F800000 : Pat .f32) 0x40400000 ≤ (divDefaults .f32).passes := by decide +kernel

theorem witness_DivDatapathHalfPrecision :
    2 ^ 10 ≤ 1024 ∧ 1024 < 2 ^ 11 ∧ 2 ^ 10 ≤ 2047 ∧ 2047 < 2 ^ 11 ∧
    isFinite (0x3C00 : Pat .f16) = true ∧ isZero (0x3C00 : Pat .f16) = false := by decide +kernel

theorem witness_DivDatapathDefaultsRefine :
    isFinite (0x3FFF0000000000000000000000000000 : Pat .f128) = true ∧
    isZero (0x3FFF0000000000000000000000000000 : Pat .f128) = false ∧
    isFinite (0x3FFFFFFFFFFFFFFFFFFFFFFFFFFFFFFF : Pat .f128) = true ∧
    isZero (0x3FFFFFFFFFFFFFFFFFFFFFFFFFFFFFFF : Pat .f128) = false := by decide +kernel

/-- The smallest and the largest modulus, the largest start value, and a start value one above it. -/
theorem witness_BrnewCommand :
    (st 16385 8193 0).fc = 0 ∧ 2 ^ 16 < 8 * (operand .f16 (st 16385 8193 0) 2).toNat ∧
    4 * (operand .f16 (st 16385 8193 0) 2).toNat < 2 ^ 16 ∧
    (operand .f16 (st 16385 8193 0) 1).toNat < 2 * (operand .f16 (st 16385 8193 0) 2).toNat ∧
    4 * (operand .f16 (st 32765 16383 0) 2).toNat < 2 ^ 16 ∧
    (operand .f16 (st 32765 16383 0) 1).toNat < 2 * (operand .f16 (st 32765 16383 0) 2).toNat ∧
    ¬ (operand .f16 (st 32766 16383 0) 1).toNat < 2 * (operand .f16 (st 32766 16383 0) 2).toNat := by decide +kernel

theorem witness_BarrettConstruction :
    2 ^ Fmt.f16.width < 8 * 8193 ∧ 4 * 8193 < 2 ^ Fmt.f16.width ∧ 4 * 16383 < 2 ^ Fmt.f16.width ∧
    32765 < 2 * 16383 := by decide +kernel

theorem witness_BrwrdAndBrshrCommands :
    (4095 < 4096) ∧ (stBr reducer16).fc = 0 ∧ (stBr reducer16).br.valid = true ∧
    15 < (stBr reducer16).br.fmt.width ∧ (stBr reducer16).br.fmt.width ≤ 16 ∧ (st 0 0 0).br.valid = false ∧
    ReducerHolds (stBr reducer16).br 10007 12345 :=
  ⟨by decide, rfl, rfl, by decide, by decide, rfl, reducer16_holds⟩

theorem witness_ReductionStepExact :
    ReducerHolds reducer16 10007 12345 ∧ 0 < reducer16.fmt.width ∧ 15 < reducer16.fmt.width :=
  ⟨reducer16_holds, by decide, by decide⟩

theorem witness_BrremCommand :
    (stBr reducer16).fc = 0 ∧ (stBr reducer16).br.valid = true ∧ (st 0 0 0).br.valid = false ∧
    ReducerHolds (stBr reducer16).br 10007 12345 ∧ ∃ t, exec (.brrem 3) (stBr reducer16) = .next t :=
  ⟨rfl, rfl, rfl, reducer16_holds, _, rfl⟩

theorem witness_BarrettRoundTrip :
    (st 32765 16383 0).fc = 0 ∧ 2 ^ Fmt.f16.width < 8 * (operand .f16 (st 32765 16383 0) 2).toNat ∧
    4 * (operand .f16 (st 32765 16383 0) 2).toNat < 2 ^ Fmt.f16.width ∧
    (operand .f16 (st 32765 16383 0) 1).toNat < 2 * (operand .f16 (st 32765 16383 0) 2).toNat ∧
    (∀ k, some k ∈ [none, some 0, some 15] → k < Fmt.f16.width) := by
  refine ⟨rfl, by decide +kernel, by decide +kernel, by decide +kernel, ?_⟩
  intro k hk
  simp at hk
  rcases hk with rfl | rfl <;> decide

theorem witness_ModshlCommand :
    (st 32765 16383 5).fc = 0 ∧ (operand .f16 (st 32765 16383 5) 2).toNat ≠ 0 ∧
    (operand .f16 (st 32765 16383 5) 2).toNat ≤ (2 ^ Fmt.f16.width - 1) / 4 ∧
    (operand .f16 (st 32765 16383 5) 1).toNat < 2 * (operand .f16 (st 32765 16383 5) 2).toNat ∧
    (operand .f16 (st 1 0 5) 2).toNat = 0 ∧
    (2 ^ Fmt.f16.width - 1) / 4 < (operand .f16 (st 1 16384 5) 2).toNat ∧
    2 * (operand .f16 (st 6 3 5) 2).toNat ≤ (operand .f16 (st 6 3 5) 1).toNat := by decide +kernel

theorem witness_ModshlDatapathRefinesContract :
    (16383 : Nat) ≠ 0 ∧ 16383 ≤ (2 ^ Fmt.f16.width - 1) / 4 ∧ 32765 < 2 * 16383 := by decide +kernel

theorem witness_FmodCommand :
    (st 0x4500 0x4200 0).fc = 0 ∧ isFinite (0x4200 : Pat .f16) = true ∧ isZero (0x4200 : Pat .f16) = false ∧
    |val (0x4200 : Pat .f16)| ≤ |val (0xC200 : Pat .f16)| ∧ isFinite (0xC200 : Pat .f16) = true := by
  refine ⟨rfl, by decide +kernel, by decide +kernel, ?_, by decide +kernel⟩
  have h : val (0xC200 : Pat .f16) = -val (0x4200 : Pat .f16) := by
    have h1 : expf (0xC200 : Pat .f16) = 16 := by decide +kernel
    have h2 : expf (0x4200 : Pat .f16) = 16 := by decide +kernel
    have h3 : sig (0xC200 : Pat .f16) = 512 := by decide +kernel
    have h4 : sig (0x4200 : Pat .f16) = 512 := by decide +kernel
    have h5 : signOf (0xC200 : Pat .f16) = true := by decide +kernel
    have h6 : signOf (0x4200 : Pat .f16) = false := by decide +kernel
    simp only [val, h1, h2, h3, h4, h5, h6]
    norm_num
  rw [h, abs_neg]

theorem witness_FmodProperties :
    isFinite (0x0000 : Pat .f16) = true ∧ isFinite (0x3800 : Pat .f16) = true ∧
    isZero (0x3800 : Pat .f16) = false ∧ |val (0x0000 : Pat .f16)| < |val (0x3800 : Pat .f16)| := by
  refine ⟨by decide +kernel, by decide +kernel, by decide +kernel, ?_⟩
  have h : (0x0000 : Pat .f16) = 0 := rfl
  rw [h, val_zero_f16, val_half_f16]
  norm_num

theorem witness_FmodDatapathRefinesContract :
    isFinite (0x0001 : Pat .f16) = true ∧ isZero (0x0001 : Pat .f16) = false ∧
    |val (0x0001 : Pat .f16)| ≤ |val (0x0001 : Pat .f16)| :=
  ⟨by decide +kernel, by decide +kernel, le_refl _⟩

theorem witness_FmodStepBound :
    isFinite (0x4200 : Pat .f16) = true ∧ isZero (0x4200 : Pat .f16) = false ∧
    |val (0x4200 : Pat .f16)| ≤ |val (0x4200 : Pat .f16)| ∧
    (sigExp (0x4200 : Pat .f16)).1 &&& ((sigExp (0x4200 : Pat .f16)).1 - 1) ≠ 0 :=
  ⟨by decide +kernel, by decide +kernel, le_refl _, by decide +kernel⟩

/-- A unit with the default parameters reduces 1.0; one whose first threshold lies above 1.0 returns it (R273, R274). -/
theorem witness_RempioCommand :
    (st 0x3FF0000000000000 0 0).fc = 0 ∧
    fieldOf (exec (.rempio2 4 1) (st 0x3FF0000000000000 0 0)) (fun t => t.x[(4 : RegNum)]) = some 0xBFE243F6A8885A31 ∧
    fieldOf (exec (.rempio2 4 1)
        { st 0x3FF0000000000000 0 0 with trig := { trigDefaults with quarter1 := 0x3FF00000 } })
      (fun t => t.x[(4 : RegNum)]) = some 0x3FF0000000000000 := by decide +kernel

theorem witness_RempioSmallAndNonFinite :
    ((0x3FE921FBFFFFFFFF : Pat .f64).extractLsb' 32 31).toNat ≤ 0x3FE921FB ∧
    ((0x3FE921FBFFFFFFFF : Pat .f64).extractLsb' 32 31).toNat ≤ trigDefaults.quarter1 ∧
    isNaN (0xFFF0000000000001 : Pat .f64) = true ∧ isInf (0xFFF0000000000000 : Pat .f64) = true := by decide +kernel

theorem witness_RempioSignSymmetry : isFinite (0x7FEFFFFFFFFFFFFF : Pat .f64) = true := by decide +kernel

theorem witness_QuadrantIsNearestInteger :
    regimeOf trigDefaults (highWord 0x413921FAFFFFFFFF) = .medium ∧
    regimeOf trigDefaults (highWord 0xBFF921FB00000000) = .medium := by decide +kernel

theorem witness_QuadrantIndexRange :
    regimeOf trigDefaults (highWord 0x3FE921FBFFFFFFFF) = .small ∧
    regimeOf trigDefaults (highWord 0x3FE921FC00000000) = .direct 1 ∧
    regimeOf trigDefaults (highWord 0x401C463BFFFFFFFF) = .direct 4 ∧
    regimeOf trigDefaults (highWord 0x401C463C00000000) = .medium ∧
    regimeOf trigDefaults (highWord 0x413921FB00000000) = .large ∧
    LrrCountInRange (fun _ => { n := 7, ty0 := 0, ty1 := 0 }) :=
  ⟨by decide +kernel, by decide +kernel, by decide +kernel, by decide +kernel, by decide +kernel,
    fun _ => (by decide : (7#32).toNat ≤ 7)⟩

theorem witness_TrigConstants : |(1048575 : ℤ)| < 2 ^ 20 ∧ |(-1048575 : ℤ)| < 2 ^ 20 :=
  ⟨by norm_num, by norm_num⟩

/-- A unit whose first threshold takes in every finite operand meets the floors, and the default regimes give each floor. -/
theorem witness_RempioPrecisionFloors :
    PrecisionFloors { trigDefaults with quarter1 := 0x7FEFFFFF } ∧
    ({ st 0x3FF0000000000000 0 0 with trig := { trigDefaults with quarter1 := 0x7FEFFFFF } } : State).fc = 0 ∧
    floorBits trigDefaults 0x3FF0000000000000 = some 85 ∧ floorBits trigDefaults 0x4059000000000000 = some 85 ∧
    floorBits trigDefaults 0x412E848000000000 = some 118 ∧ floorBits trigDefaults 0x3FF921FB54442D18 = some 151 ∧
    highWord 0x413921FAFFFFFFFF < 0x413921FB := by
  refine ⟨fun f p => ?_, rfl, by decide +kernel, by decide +kernel, by decide +kernel, by decide +kernel,
    by decide +kernel⟩
  by_cases h : highWord p < 0x7FF00000
  · have e : remPio2 { trigDefaults with quarter1 := 0x7FEFFFFF } f p = (reduceSmall p, none) := by
      have g : regimeOf { trigDefaults with quarter1 := 0x7FEFFFFF } (highWord p) = .small := by
        rw [regimeOf, if_neg (by omega), if_pos (by show highWord p ≤ 0x7FEFFFFF; omega)]
      simp only [remPio2, g]
    rw [e]
    exact meetsFloor_small _ p (isFinite_of_highWord h)
  · have g : regimeOf { trigDefaults with quarter1 := 0x7FEFFFFF } (highWord p) = .nonFinite := by
      rw [regimeOf, if_pos (by omega)]
    intro bits hb
    simp only [floorBits, g] at hb
    exact absurd hb (by simp)

/-- 45_rem_pio2.md R297 gives the residual 0x3FE922055DDE9736 for 0x401C463BFFFFFFFF; it exceeds the binary64 nearest π/4 by
more than the 2^-19 of the same rule and by less than 2^-17 (log 9). -/
theorem test_R297_bound_fails :
    (remPio2 trigDefaults Config.lrr 0x401C463BFFFFFFFF).1.y0 = 0x3FE922055DDE9736 ∧
    val (F := .f64) 0x3FE921FB54442D18 + 1 / 2 ^ 19 < val (F := .f64) 0x3FE922055DDE9736 ∧
    val (F := .f64) 0x3FE922055DDE9736 < val (F := .f64) 0x3FE921FB54442D18 + 1 / 2 ^ 17 :=
  ⟨by decide +kernel, by decide +kernel, by decide +kernel⟩

/-- Both ends of the brackets, and one operand of either sign. -/
theorem witness_DirectRegime :
    0x3FE921FB < highWord 0x3FE921FC00000000 ∧ highWord 0x3FE921FC00000000 % 2 ^ 20 ≠ 0x921FB ∧
    highWord 0x4002D97CFFFFFFFF ≤ 0x4002D97C ∧ 0x4002D97C < highWord 0x4002D97D00000000 ∧
    highWord 0x400F6A7AFFFFFFFF ≤ 0x400F6A7A ∧ 0x400F6A7A < highWord 0x400F6A7B00000000 ∧
    highWord 0x4015FDBCFFFFFFFF ≤ 0x4015FDBC ∧ highWord 0x4015FDBCFFFFFFFF ≠ 0x4012D97C ∧
    0x4015FDBC < highWord 0x4015FDBD00000000 ∧ highWord 0xC01C463BFFFFFFFF ≤ 0x401C463B ∧
    highWord 0xC01C463BFFFFFFFF ≠ 0x401921FB ∧ signOf (0xC01C463BFFFFFFFF : Pat .f64) = true ∧
    signOf (0x3FE921FC00000000 : Pat .f64) = false := by decide +kernel

/-- 100.0 engages the first level, 10^6 the second, π/2 the third (45_rem_pio2.md R298). -/
theorem witness_MediumRegimeLevels :
    0x401C463B < highWord 0x4059000000000000 ∧ highWord 0x412E848000000000 < 0x413921FB ∧
    highWord 0x3FF921FB54442D18 = 0x3FF921FB ∧
    cancelled (highWord 0x4059000000000000 / 2 ^ 20) 16
      (level1 trigDefaults 0x4059000000000000 (quadrant trigDefaults 0x4059000000000000)).y0 = false ∧
    cancelled (highWord 0x412E848000000000 / 2 ^ 20) 16
      (level1 trigDefaults 0x412E848000000000 (quadrant trigDefaults 0x412E848000000000)).y0 = true ∧
    (lastLevel trigDefaults 0x412E848000000000 (quadrant trigDefaults 0x412E848000000000)).y0 =
      0xBFD6E254D0F6B398 ∧
    (lastLevel trigDefaults 0x3FF921FB54442D18 (quadrant trigDefaults 0x3FF921FB54442D18)).y0 =
      0xBC91A62633145C07 := by decide +kernel

/-- Operands near multiples of π/2 at the gaps where the clauses meet: 16 and 17 after the first level, 49 and 50 after the
second (found by computing R284 and R285 in IEEE binary64 outside the model). -/
theorem witness_MediumRegimeLevels_gaps :
    let first (p : Pat .f64) : Level := level1 trigDefaults p (quadrant trigDefaults p)
    let second (p : Pat .f64) : Level :=
      nextLevel trigDefaults.pio2_2 trigDefaults.pio2_2t (quadrant trigDefaults p) (first p)
    let gap (p y : Pat .f64) : ℤ := (highWord p / 2 ^ 20 : ℤ) - expf y
    gap 0x404EA1858B41754F (first 0x404EA1858B41754F).y0 = 16 ∧
    gap 0x406CDD118588FA38 (first 0x406CDD118588FA38).y0 = 17 ∧
    16 < gap 0x405D0F4A996ED42F (first 0x405D0F4A996ED42F).y0 ∧
    gap 0x405D0F4A996ED42F (second 0x405D0F4A996ED42F).y0 = 49 ∧
    16 < gap 0x40935D6EE6AD87C3 (first 0x40935D6EE6AD87C3).y0 ∧
    gap 0x40935D6EE6AD87C3 (second 0x40935D6EE6AD87C3).y0 = 50 := by decide +kernel

theorem witness_LrrRequestDigits :
    0x413921FB ≤ highWord 0x413921FB00000000 ∧ highWord 0x413921FB00000000 < 0x7FF00000 ∧
    0x413921FB ≤ highWord 0x7FEFFFFFFFFFFFFF ∧ highWord 0x7FEFFFFFFFFFFFFF < 0x7FF00000 := by decide +kernel

theorem witness_LrrCallAndSign :
    0x413921FB ≤ highWord 0xC13921FB00000000 ∧ highWord 0xC13921FB00000000 < 0x7FF00000 ∧
    signOf (0xC13921FB00000000 : Pat .f64) = true ∧ signOf (0x413921FB00000000 : Pat .f64) = false := by
  decide +kernel

end Sys2Proof.Tests
end

/-! SUPPORT. The family of 10_state.md: the reset values, and the narrow reads and writes of a command of a format. A relation
between two runs of one command is kept by every state operation; a proof about a command puts these rules together. -/

namespace Sys2Proof.Machine

/-- Settles O11: the reset state and its `FSR` evaluate. -/
theorem resetState : Obligations.ResetState := by
  unfold Obligations.ResetState
  exact ⟨rfl, rfl, rfl, rfl, by decide⟩

/-! The relation between the two runs of R22 and the rule of each state operation. -/

/-- The runs in `t` and `t'` cannot be told apart by response, flags, reducer or LRR request, nor, without a fault, by the
registers `ws` written so far; those of `fs` hold results of W bits (10_state.md R22). -/
structure NarrowAgree (W : Nat) (ws fs : List RegNum) (t t' : State) : Prop where
  resp : t'.resp = t.resp
  nx : t'.nx = t.nx
  fc : t'.fc = t.fc
  br : t'.br = t.br
  lrrReq : t'.lrrReq = t.lrrReq
  same : t.fc = 0 → ∀ r : RegNum, r ∈ ws → readX t' r = readX t r
  fits : t.fc = 0 → ∀ r : RegNum, r ∈ fs → (readX t r).toNat < 2 ^ W

/-- Both meanings answer a next state, and the two agree. -/
def NarrowOut (W : Nat) (ws fs : List RegNum) (o o' : Out) : Prop :=
  ∃ t t', o = .next t ∧ o' = .next t' ∧ NarrowAgree W ws fs t t'

theorem contractCode_ne_zero : contractCode ≠ 0 := by decide

namespace NarrowAgree

/-- Before anything is written the data registers are not compared. -/
theorem of_x (W : Nat) (s : State) (x' : Vector Word 8) : NarrowAgree W [] [] s { s with x := x' } :=
  ⟨rfl, rfl, rfl, rfl, rfl, by simp, by simp⟩

variable {W : Nat} {ws fs : List RegNum} {t t' : State}

theorem respond (h : NarrowAgree W ws fs t t') (d : Word) (st : Status) :
    NarrowAgree W ws fs (respond d st t) (respond d st t') :=
  { h with resp := rfl }

theorem accrue (h : NarrowAgree W ws fs t t') (st : Status) :
    NarrowAgree W ws fs (accrue st t) (accrue st t') :=
  { h with nx := by simp [h.nx] }

theorem setBr (h : NarrowAgree W ws fs t t') (b : Reducer) : NarrowAgree W ws fs (setBr b t) (setBr b t') :=
  { h with br := rfl }

theorem setLrr (h : NarrowAgree W ws fs t t') (q : Option LrrRequest) :
    NarrowAgree W ws fs (setLrr q t) (setLrr q t') :=
  { h with lrrReq := rfl }

/-- After a contract fault nothing is asked of the destinations. -/
theorem raiseContract (h : NarrowAgree W [] [] t t') (ws fs : List RegNum) :
    NarrowAgree W ws fs (raiseFault contractCode t) (raiseFault contractCode t') :=
  { h with
    resp := rfl
    fc := rfl
    same := fun hc => absurd hc contractCode_ne_zero
    fits := fun hc => absurd hc contractCode_ne_zero }

/-- The same value written on both sides makes the register agree. -/
theorem readX_writeX (h : NarrowAgree W ws fs t t') (hc : t.fc = 0) (d : RegNum) (v : Word) {r : RegNum}
    (hr : r ∈ ws ++ [d]) : readX (writeX d v t') r = readX (writeX d v t) r := by
  by_cases hd : r = d
  · subst hd
    simp
  · rw [readX_writeX_ne hd, readX_writeX_ne hd]
    exact h.same hc r (by simpa [hd] using hr)

/-- A write of a result of W bits. -/
theorem writeX (h : NarrowAgree W ws fs t t') (d : RegNum) {v : Word} (hv : v.toNat < 2 ^ W) :
    NarrowAgree W (ws ++ [d]) (fs ++ [d]) (writeX d v t) (writeX d v t') :=
  { h with
    same := fun hc r hr => h.readX_writeX hc d v hr
    fits := fun hc r hr => by
      by_cases hd : r = d
      · subst hd
        simpa using hv
      · rw [readX_writeX_ne hd]
        exact h.fits hc r (by simpa [hd] using hr) }

/-- A write of any value to a register that holds none of the results of W bits. -/
theorem writeX_wide (h : NarrowAgree W ws fs t t') {d : RegNum} (hd : d ∉ fs) (v : Word) :
    NarrowAgree W (ws ++ [d]) fs (Machine.writeX d v t) (Machine.writeX d v t') :=
  { h with
    same := fun hc r hr => h.readX_writeX hc d v hr
    fits := fun hc r hr => by
      rw [readX_writeX_ne (ne_of_mem_of_not_mem hr hd)]
      exact h.fits hc r hr }

theorem finish (h : NarrowAgree W ws fs t t') (d : RegNum) {v : Word} (hv : v.toNat < 2 ^ W) (st : Status) :
    NarrowAgree W (ws ++ [d]) (fs ++ [d]) (finish d v st t) (finish d v st t') :=
  (h.writeX d hv).respond v st

/-- One check on both sides: both effects or both faults. The effects need to agree only where the check passes. -/
theorem checked {s s' : State} (h : NarrowAgree W [] [] s s') {ok : Bool}
    (he : ok = true → NarrowAgree W ws fs t t') :
    NarrowAgree W ws fs (checked ok s t) (checked ok s' t') := by
  cases ok with
  | true => exact he rfl
  | false => exact h.raiseContract ws fs

/-- Serving on two running units. -/
theorem serve {s s' : State} (h : NarrowAgree W [] [] s s') (hs : s.fc = 0) (he : NarrowAgree W ws fs t t') :
    NarrowOut W ws fs (serve s t) (serve s' t') :=
  ⟨t, t', serve_of_running hs t, serve_of_running (h.fc.trans hs) t', he⟩

end NarrowAgree

/-! What a command of format F reads: operands, and the 32 bits of a shift count. -/

theorem operand_withX {F : Fmt} {s : State} {x' : Vector Word 8}
    (hx : ∀ r : RegNum, x'[r].setWidth F.width = (s.x[r]).setWidth F.width) (r : RegNum) :
    operand F { s with x := x' } r = operand F s r := hx r

theorem shiftOperand_eq_setWidth (s : State) (r : RegNum) :
    shiftOperand s r = ((readX s r).setWidth 32).toNat := by
  simp [shiftOperand]

/-- A remainder by an accepted modulus fits the word (44_barrett.md R250). -/
theorem modshl_lt {N x y : Nat} (hok : modshlOk N x y = true) (e : Nat) : modshl x e y < 2 ^ N := by
  simp only [modshlOk, Bool.and_eq_true, decide_eq_true_eq] at hok
  obtain ⟨⟨hy, hmax⟩, -⟩ := hok
  have hlt : modshl x e y < y := Nat.mod_lt _ (Nat.pos_of_ne_zero hy)
  omega

/-- A number below 2^W stays below it in a register. -/
theorem ofNat_word_lt {W v : Nat} (hv : v < 2 ^ W) : (BitVec.ofNat 128 v).toNat < 2 ^ W := by
  rw [BitVec.toNat_ofNat]
  exact (Nat.mod_le _ _).trans_lt hv

theorem width_le (F : Fmt) : F.width ≤ 128 := by cases F <;> decide

/-! The commands of a format on two running states whose operands agree. -/

section Commands

variable {F : Fmt} {s s' : State} (hs : s.fc = 0) (h : NarrowAgree F.width [] [] s s')
  (hop : ∀ r, operand F s' r = operand F s r)
include hs h hop

theorem execRounding_narrow (op : RoundOp) (rd ra : RegNum) :
    NarrowOut F.width [rd] [rd] (execRounding op F rd ra s) (execRounding op F rd ra s') := by
  simp only [execRounding, hop]
  exact h.serve hs ((h.accrue _).finish rd (zext128_lt (width_le F) _) _)

/-- `MUL`, `DIV` and `FMOD`, each a function of the two patterns it reads. -/
theorem finish_binary_narrow (f : Pat F → Pat F → Pat F) (rd ra rb : RegNum) :
    NarrowOut F.width [rd] [rd] (serve s (finish rd (zext128 (f (operand F s ra) (operand F s rb))) .ok s))
      (serve s' (finish rd (zext128 (f (operand F s' ra) (operand F s' rb))) .ok s')) := by
  simp only [hop]
  exact h.serve hs (h.finish rd (zext128_lt (width_le F) _) _)

theorem execBrnew_narrow (ra rb : RegNum) :
    NarrowOut F.width [] [] (execBrnew F ra rb s) (execBrnew F ra rb s') := by
  simp only [execBrnew, hop]
  exact h.serve hs (h.checked fun _ => (h.setBr _).respond 0 .ok)

theorem execModshl_narrow (rd ra rb : RegNum) {rc : RegNum} (hshift : shiftOperand s' rc = shiftOperand s rc) :
    NarrowOut F.width [rd] [rd] (execModshl F rd ra rb rc s) (execModshl F rd ra rb rc s') := by
  simp only [execModshl, hop, hshift]
  exact h.serve hs (h.checked fun hok => h.finish rd (ofNat_word_lt (modshl_lt hok _)) .ok)

end Commands

/-- `REMPIO2` writes two patterns and an integer, the integer last and to a third register. -/
theorem execRempio2_narrow {s s' : State} (hs : s.fc = 0) (h : NarrowAgree 64 [] [] s s')
    (hop : ∀ r, operand .f64 s' r = operand .f64 s r) (htrig : s'.trig = s.trig) (rd ra : RegNum) :
    NarrowOut 64 [rd, rd + 1, rd + 2] [rd, rd + 1] (execRempio2 rd ra s) (execRempio2 rd ra s') := by
  have hthird : rd + 2 ∉ ([rd, rd + 1] : List RegNum) := by revert rd; decide
  have hpat : ∀ p : BitVec 64, (zext128 p).toNat < 2 ^ 64 := zext128_lt (by decide)
  simp only [execRempio2, hop, htrig]
  exact h.serve hs
    (((((h.setLrr _).writeX rd (hpat _)).writeX (rd + 1) (hpat _)).writeX_wide hthird _).respond _ .ok)

/-- The destinations that receive a result of the command's format: all but the integer of `REMPIO2`. -/
def formatWritesOf : Instr → List RegNum
  | .rempio2 rd _ => [rd, rd + 1]
  | i => writesOf i

theorem mem_formatWritesOf {i : Instr} {r : RegNum} (hw : r ∈ writesOf i)
    (hne : ∀ rd ra, i = .rempio2 rd ra → r ≠ rd + 2) : r ∈ formatWritesOf i := by
  unfold formatWritesOf
  split
  next rd ra =>
    have h2 := hne rd ra rfl
    simpa [writesOf, h2] using hw
  next => exact hw

/-- Every command of a format, on two running states that differ in data registers but agree in what it reads of them. -/
theorem exec_narrow {i : Instr} {F : Fmt} {s : State} (hF : fmtOf i = some F) (hs : s.fc = 0) {x' : Vector Word 8}
    (hx : ∀ r : RegNum, x'[r].setWidth F.width = (s.x[r]).setWidth F.width)
    (hshift : ∀ G rd ra rb rc, i = .modshl G rd ra rb rc → x'[rc].setWidth 32 = (s.x[rc]).setWidth 32) :
    NarrowOut F.width (writesOf i) (formatWritesOf i) (exec i s) (exec i { s with x := x' }) := by
  have h := NarrowAgree.of_x F.width s x'
  have hop := operand_withX hx
  cases i with
  | nop | wr | rd | mov | rdst | clrst | brwrd | brshr | brrem => cases hF
  | ceil G rd ra => cases hF; exact execRounding_narrow hs h hop .ceil rd ra
  | floor G rd ra => cases hF; exact execRounding_narrow hs h hop .floor rd ra
  | trunc G rd ra => cases hF; exact execRounding_narrow hs h hop .trunc rd ra
  | round G rd ra => cases hF; exact execRounding_narrow hs h hop .round rd ra
  | roundeven G rd ra => cases hF; exact execRounding_narrow hs h hop .roundeven rd ra
  | mul G rd ra rb => cases hF; exact finish_binary_narrow hs h hop mulPat rd ra rb
  | div G rd ra rb => cases hF; exact finish_binary_narrow hs h hop divPat rd ra rb
  | fmod G rd ra rb => cases hF; exact finish_binary_narrow hs h hop fmodPat rd ra rb
  | brnew G ra rb => cases hF; exact execBrnew_narrow hs h hop ra rb
  | modshl G rd ra rb rc =>
    cases hF
    have hcount : shiftOperand { s with x := x' } rc = shiftOperand s rc := by
      rw [shiftOperand_eq_setWidth, shiftOperand_eq_setWidth]
      exact congrArg BitVec.toNat (hshift _ rd ra rb rc rfl)
    exact execModshl_narrow hs h hop rd ra rb hcount
  | rempio2 rd ra => cases hF; exact execRempio2_narrow hs h hop rfl rd ra

/-- Settles O17: the two runs by `exec_narrow`; the width of the results by the same lemma on one state twice. -/
theorem narrowFormats : Obligations.NarrowFormats := by
  unfold Obligations.NarrowFormats
  intro i F s hF hs
  constructor
  · intro x' hx hshift
    obtain ⟨t, t', ht, ht', h⟩ := exec_narrow hF hs hx hshift
    exact ⟨t, t', ht, ht', h.resp, h.nx, h.fc, h.br, h.lrrReq, h.same⟩
  · intro t ht hc r hw hne
    obtain ⟨u, _, hu, _, h⟩ := exec_narrow hF hs (x' := s.x) (fun _ => rfl) (fun _ _ _ _ _ _ => rfl)
    obtain rfl : t = u := by simpa using ht.symm.trans hu
    exact h.fits hc r (mem_formatWritesOf hw hne)

end Sys2Proof.Machine


/-! The data buses and their byte lanes (20_memory.md R55), bit by bit. -/

namespace Sys2Proof.Machine

theorem getLsbD_byteLane (v : Word) (i : Fin 16) {j : Nat} (hj : j < 8) :
    (byteLane v i).getLsbD j = v.getLsbD (8 * i.val + j) := by
  rw [byteLane, BitVec.getLsbD_extractLsb', decide_eq_true hj, Bool.true_and]

theorem ofByteLanes_cons (b : BitVec 8) (lanes : List (BitVec 8)) :
    ofByteLanes (b :: lanes) = (ofByteLanes lanes <<< 8) ||| b.setWidth 128 := rfl

/-- Bit k of the bus is bit k mod 8 of lane k / 8; a lane that is not given carries zero. -/
theorem getLsbD_ofByteLanes (lanes : List (BitVec 8)) {k : Nat} (hk : k < 128) :
    (ofByteLanes lanes).getLsbD k = (lanes.getD (k / 8) 0).getLsbD (k % 8) := by
  induction lanes generalizing k with
  | nil => simp [ofByteLanes]
  | cons b lanes ih =>
    rw [ofByteLanes_cons]
    by_cases hlow : k < 8
    · simp [hk, hlow, Nat.div_eq_of_lt hlow, Nat.mod_eq_of_lt hlow]
    · obtain ⟨m, rfl⟩ := Nat.exists_eq_add_of_le' (Nat.le_of_not_lt hlow)
      have hm : m < 128 := by omega
      simpa [hk, BitVec.getLsbD_eq_getElem hm] using ih hm

theorem ofByteLanes_byteLane (v : Word) : ofByteLanes ((List.finRange 16).map (byteLane v)) = v := by
  refine BitVec.eq_of_getLsbD_eq fun k hk => ?_
  have hlane : k / 8 < 16 := by omega
  have hget : ((List.finRange 16).map (byteLane v)).getD (k / 8) 0 = byteLane v ⟨k / 8, hlane⟩ := by
    simp [hlane]
  rw [getLsbD_ofByteLanes _ hk, hget, getLsbD_byteLane v _ (Nat.mod_lt k (by decide)), Nat.div_add_mod]

/-- The lanes from n / 8 up of a zero-extended pattern of n bits, n a whole number of lanes, are zero. -/
theorem byteLane_zext128_of_le {n : Nat} (hn : 8 ∣ n) (p : BitVec n) {i : Fin 16} (hi : n / 8 ≤ i.val) :
    byteLane (zext128 p) i = 0 := by
  refine BitVec.eq_of_getLsbD_eq fun j hj => ?_
  have hbit : n ≤ 8 * i.val + j := by omega
  rw [getLsbD_byteLane _ i hj]
  simp [zext128, BitVec.getLsbD_of_ge p _ hbit]

theorem eight_dvd_width (F : Fmt) : 8 ∣ F.width := by cases F <;> decide

/-- Settles O18, bit by bit: `getLsbD_byteLane` and `getLsbD_ofByteLanes` say where each bit of the bus stands. -/
theorem byteLanesLittleEndian : Obligations.ByteLanesLittleEndian := by
  unfold Obligations.ByteLanesLittleEndian
  exact ⟨fun v i j => getLsbD_byteLane v i j.isLt, ofByteLanes_byteLane,
    fun F p _ hi => byteLane_zext128_of_le (eight_dvd_width F) p hi⟩

end Sys2Proof.Machine


/-! SUPPORT. The family of 30_encoding.md: the opcode map read both ways, the fields an instruction is built from and holds,
and which fields are a reserved encoding. -/

namespace Sys2Proof

/-! The opcode map (30_encoding.md R74). -/

theorem Op.mem_all (op : Op) : op ∈ Op.all := by cases op <;> decide

theorem Op.ofCode_eq_some_iff {c : BitVec 6} {op : Op} : Op.ofCode c = some op ↔ c = op.code := by
  constructor
  · intro h
    have hcode : (op.code == c) = true := by simpa using List.find?_some h
    exact (beq_iff_eq.mp hcode).symm
  · rintro rfl
    exact Laws.EncodedFields.ofCode_code op

theorem Op.code_injective : Function.Injective Op.code := fun a b h =>
  Option.some.inj (by rw [← Laws.EncodedFields.ofCode_code a, h, Laws.EncodedFields.ofCode_code])

theorem mem_codes_iff {c : BitVec 6} : c ∈ Op.all.map Op.code ↔ ∃ op : Op, c = op.code := by
  simp [Op.mem_all, eq_comm]

/-! A word read into fields and written back. -/

@[simp] theorem code_fmt_ofCode (c : BitVec 2) : (Fmt.ofCode c).code = c := by revert c; decide

@[simp] theorem regField_regOf (r : BitVec 3) : regField (regOf r) = r := rfl

/-- The fields with those a command does not use cleared (30_encoding.md R72). -/
def Uses.keep (u : Uses) (f : Fields) : Fields :=
  { opcode := f.opcode
    fmt := if u.fmt then f.fmt else 0
    rd := if u.rd then f.rd else 0
    ra := if u.ra then f.ra else 0
    rb := if u.rb then f.rb else 0
    rc := if u.rc then f.rc else 0
    imm12 := if u.imm then f.imm12 else 0 }

theorem ite_of_used_or_zero {n : Nat} {used : Bool} {v : BitVec n} (h : used = true ∨ v = 0) :
    (if used then v else 0) = v := by
  rcases h with rfl | rfl <;> simp

theorem Uses.keep_of_unusedZero {u : Uses} {f : Fields} (h : u.unusedZero f = true) : u.keep f = f := by
  simp only [Uses.unusedZero, Bool.and_eq_true, Bool.or_eq_true, beq_iff_eq] at h
  obtain ⟨⟨⟨⟨⟨hfmt, hrd⟩, hra⟩, hrb⟩, hrc⟩, himm⟩ := h
  simp only [Uses.keep, ite_of_used_or_zero, hfmt, hrd, hra, hrb, hrc, himm]

/-- The instruction built from fields holds the fields its command uses, and no others. -/
theorem fields_build {op : Op} {f : Fields} (hcode : f.opcode = op.code)
    (hfmt : op = .rempio2 → f.fmt = Fmt.f64.code) : (op.build f).fields = op.uses.keep f := by
  cases op with
  | rempio2 => simp [Op.build, Instr.fields, Uses.keep, Op.uses, hcode, hfmt rfl]
  | _ => simp [Op.build, Instr.fields, Uses.keep, Op.uses, hcode]

theorem wf_build (op : Op) (f : Fields) : (op.build f).wf = true := by
  cases op with
  | brshr => exact decide_eq_true f.imm12.isLt
  | _ => rfl

/-- Fields that decode are the fields of a well-formed instruction. -/
theorem wf_and_fields_of_decodeFields {f : Fields} {i : Instr} (h : decodeFields f = .ok i) :
    i.wf = true ∧ i.fields = f := by
  obtain ⟨op, hop, hzero, hfmt, rfl⟩ := (decodeFields_ok_iff f i).mp h
  exact ⟨wf_build op f,
    (fields_build (Op.ofCode_eq_some_iff.mp hop) hfmt).trans (Uses.keep_of_unusedZero hzero)⟩

/-! Reserved encodings (30_encoding.md R77, R78). -/

theorem decodeFields_unassigned {f : Fields} (h : f.opcode ∉ Op.all.map Op.code) :
    ∃ e, decodeFields f = .error e := by
  cases hd : decodeFields f with
  | error e => exact ⟨e, rfl⟩
  | ok i =>
    obtain ⟨op, hop, -⟩ := (decodeFields_ok_iff f i).mp hd
    exact absurd (mem_codes_iff.mpr ⟨op, Op.ofCode_eq_some_iff.mp hop⟩) h

/-- The fields of an assigned opcode are reserved by an unused field or by the format of `REMPIO2`. -/
theorem decodeFields_error_iff_of_code {f : Fields} {op : Op} (h : f.opcode = op.code) :
    (∃ e, decodeFields f = .error e) ↔
      op.uses.unusedZero f = false ∨ (op = .rempio2 ∧ f.fmt ≠ Fmt.f64.code) := by
  simp only [decodeFields, Op.ofCode_eq_some_iff.mpr h]
  split
  next hz => simp [hz]
  next hz =>
    split
    next hr => simp [hr]
    next hr => simp [hz, hr]

/-- The three kinds of reserved encoding of 30_encoding.md R77. -/
theorem decodeFields_error_iff (f : Fields) : (∃ e, decodeFields f = .error e) ↔
    f.opcode ∉ Op.all.map Op.code ∨ (∃ op : Op, f.opcode = op.code ∧ op.uses.unusedZero f = false) ∨
      (f.opcode = Op.rempio2.code ∧ f.fmt ≠ Fmt.f64.code) := by
  by_cases hmem : f.opcode ∈ Op.all.map Op.code
  · obtain ⟨op, hop⟩ := mem_codes_iff.mp hmem
    rw [decodeFields_error_iff_of_code hop]
    simp [hop, Op.code_injective.eq_iff, Op.mem_all]
  · exact iff_of_true (decodeFields_unassigned hmem) (.inl hmem)

theorem decodeFields_brsqs {f : Fields} (h : f.opcode = brsqsCode) : decodeFields f = .error .brsqsOpcode := by
  have hnone : Op.ofCode brsqsCode = none := by decide
  simp only [decodeFields, h, hnone, if_true]

/-- Settles O2: fields that decode are those of the instruction they build, and packing a word's fields gives the word. -/
theorem commandWordsHaveOneSpelling : Obligations.CommandWordsHaveOneSpelling := by
  unfold Obligations.CommandWordsHaveOneSpelling
  constructor
  · intro w i h
    obtain ⟨hwf, hfields⟩ := wf_and_fields_of_decodeFields h
    exact ⟨hwf, by rw [encode, hfields, packFields_fieldsOf]⟩
  · intro w op hcode hzero
    exact (decodeFields_error_iff_of_code hcode).mpr (.inl hzero)

end Sys2Proof

namespace Sys2Proof.Machine

/-- Serving a reserved encoding on a running unit takes the illegal-word fault (60_exceptions.md R331). -/
theorem serveRequest_reserved (run : Instr → State → Out) {q : Request} {s : State} (hs : s.fc = 0)
    (h : ∃ e, decode q.cmd = .error e) :
    serveRequest run q s = .next (raiseFault illegalCode (acceptRequest q s)) := by
  obtain ⟨e, he⟩ := h
  obtain ⟨i, hi, -⟩ | ⟨-, -, hserve⟩ := serveRequest_cases run q s
  · cases he.symm.trans hi
  · have hrunning : (acceptRequest q s).fc = 0 := by simpa using hs
    rw [hserve, serve_of_running hrunning]

/-- Settles O4: `decodeFields_error_iff` is R77, `serveRequest_reserved` is R331. -/
theorem reservedWordsRaiseIllegal : Obligations.ReservedWordsRaiseIllegal := by
  unfold Obligations.ReservedWordsRaiseIllegal
  refine ⟨fun w => decodeFields_error_iff (fieldsOf w), fun w h => decodeFields_brsqs h, ?_⟩
  intro s q rest hinputs hs hreserved
  rw [step_event hinputs]
  exact serveRequest_reserved exec hs hreserved

end Sys2Proof.Machine

/-! SUPPORT. The family of 40_format_and_integer_primitives.md: the fields of a pattern and its magnitude, the category as
a comparison of the magnitude, and the machine's rounding on whole numbers of units against the closed formula of R112. -/

namespace Sys2Proof

/-! The masks and fields of a pattern (R100 to R104). -/

/-- W = S + E + 1 (R100). -/
theorem width_eq_sigBits_add_expBits (F : Fmt) : F.width = F.sigBits + F.expBits + 1 := by cases F <;> rfl

theorem two_pow_width_pred (F : Fmt) : 2 ^ (F.width - 1) = 2 ^ F.sigBits * 2 ^ F.expBits := by
  rw [← Nat.pow_add, width_eq_sigBits_add_expBits, Nat.add_sub_cancel]

@[simp] theorem toNat_absMask (F : Fmt) : (absMask F).toNat = 2 ^ (F.width - 1) - 1 := by cases F <;> rfl

@[simp] theorem toNat_implicitBit (F : Fmt) : (implicitBit F).toNat = 2 ^ F.sigBits := by cases F <;> rfl

@[simp] theorem toNat_infPat (F : Fmt) : (infPat F).toNat = F.expSat * 2 ^ F.sigBits := by cases F <;> rfl

theorem expSat_pos (F : Fmt) : 0 < F.expSat := by cases F <;> decide

section Fields

variable {F : Fmt} (p : Pat F)

theorem expf_eq_div_mod : expf p = p.toNat / 2 ^ F.sigBits % 2 ^ F.expBits := by
  rw [expf, BitVec.extractLsb'_toNat, Nat.shiftRight_eq_div_pow]

theorem sig_eq_mod : sig p = p.toNat % 2 ^ F.sigBits := by
  rw [sig, BitVec.extractLsb'_toNat, Nat.shiftRight_zero]

theorem absOf_eq_mod : absOf p = p.toNat % 2 ^ (F.width - 1) := by
  rw [absOf, BitVec.toNat_and, toNat_absMask, Nat.and_two_pow_sub_one_eq_mod]

theorem sig_lt : sig p < 2 ^ F.sigBits := BitVec.isLt _

theorem expf_le : expf p ≤ F.expSat := Nat.le_sub_one_of_lt (BitVec.isLt _)

/-- The magnitude is the exponent field above the significand (R103). -/
theorem absOf_eq_fields : absOf p = expf p * 2 ^ F.sigBits + sig p := by
  rw [absOf_eq_mod, two_pow_width_pred, Nat.mod_mul, expf_eq_div_mod, sig_eq_mod]
  ring

/-- The sign bit stands above the magnitude (R104). -/
theorem toNat_eq_sign_add_absOf : p.toNat = (signOf p).toNat * 2 ^ (F.width - 1) + absOf p := by
  have hlt : p.toNat < 2 ^ (F.width - 1) * 2 := by
    have hwidth : F.width - 1 + 1 = F.width := by rw [width_eq_sigBits_add_expBits, Nat.add_sub_cancel]
    rw [← Nat.pow_succ, Nat.succ_eq_add_one, hwidth]
    exact p.isLt
  rw [absOf_eq_mod, signOf, BitVec.msb_eq_decide]
  by_cases h : 2 ^ (F.width - 1) ≤ p.toNat
  · rw [Nat.mod_eq_sub_mod h, Nat.mod_eq_of_lt (by omega)]
    simp [h]
  · rw [Nat.mod_eq_of_lt (Nat.lt_of_not_le h)]
    simp [h]

theorem toNat_eq_fields :
    p.toNat = (signOf p).toNat * 2 ^ (F.width - 1) + expf p * 2 ^ F.sigBits + sig p := by
  rw [toNat_eq_sign_add_absOf p, absOf_eq_fields, Nat.add_assoc]

/-! The field conditions of R103 as comparisons of the magnitude. -/

theorem absOf_eq_zero_iff : absOf p = 0 ↔ expf p = 0 ∧ sig p = 0 := by
  simp [absOf_eq_fields]

theorem absOf_div_two_pow_sigBits : absOf p / 2 ^ F.sigBits = expf p := by
  rw [absOf_eq_fields, Nat.mul_comm, Nat.mul_add_div (by positivity), Nat.div_eq_of_lt (sig_lt p), Nat.add_zero]

theorem absOf_lt_two_pow_sigBits_iff : absOf p < 2 ^ F.sigBits ↔ expf p = 0 := by
  rw [← absOf_div_two_pow_sigBits, Nat.div_eq_zero_iff_lt (by positivity)]

theorem absOf_lt_inf_iff : absOf p < F.expSat * 2 ^ F.sigBits ↔ expf p < F.expSat := by
  rw [← absOf_div_two_pow_sigBits, Nat.div_lt_iff_lt_mul (by positivity)]

theorem absOf_eq_inf_iff : absOf p = F.expSat * 2 ^ F.sigBits ↔ expf p = F.expSat ∧ sig p = 0 := by
  have hle := expf_le p
  have hlt := absOf_lt_inf_iff p
  constructor
  · intro h
    have hexp : expf p = F.expSat := by omega
    rw [absOf_eq_fields, hexp] at h
    exact ⟨hexp, by omega⟩
  · rintro ⟨hexp, hsig⟩
    rw [absOf_eq_fields, hexp, hsig, Nat.add_zero]

theorem inf_lt_absOf_iff : F.expSat * 2 ^ F.sigBits < absOf p ↔ expf p = F.expSat ∧ sig p ≠ 0 := by
  have hle := expf_le p
  have hlt := absOf_lt_inf_iff p
  have heq := absOf_eq_inf_iff p
  omega

end Fields

/-- The comparison R103 gives for a category, of a magnitude `a` with `IMPLICIT` and `INF`. -/
def Category.Holds (F : Fmt) (a : ℕ) : Category → Prop
  | .zero => a = 0
  | .subnormal => 0 < a ∧ a < 2 ^ F.sigBits
  | .normal => 2 ^ F.sigBits ≤ a ∧ a < F.expSat * 2 ^ F.sigBits
  | .infinity => a = F.expSat * 2 ^ F.sigBits
  | .nan => F.expSat * 2 ^ F.sigBits < a

/-- Each magnitude is in one category, the one whose comparison it meets. -/
theorem categoryOf_eq_iff {F : Fmt} (p : Pat F) (c : Category) : categoryOf p = c ↔ c.Holds F (absOf p) := by
  have himplicit : 0 < 2 ^ F.sigBits := by positivity
  have hinf : 2 ^ F.sigBits ≤ F.expSat * 2 ^ F.sigBits := Nat.le_mul_of_pos_left _ (expSat_pos F)
  simp only [categoryOf, toNat_implicitBit, toNat_infPat]
  constructor
  · rintro rfl
    split_ifs <;> simp only [Category.Holds] <;> omega
  · intro h
    cases c <;> simp only [Category.Holds] at h
    case zero => exact if_pos h
    case subnormal => rw [if_neg (by omega), if_pos h.2]
    case normal => rw [if_neg (by omega), if_neg (by omega), if_pos h.2]
    case infinity => rw [if_neg (by omega), if_neg (by omega), if_neg (by omega), if_pos h]
    case nan => rw [if_neg (by omega), if_neg (by omega), if_neg (by omega), if_neg (by omega)]

/-- Settles O26: `categoryOf_eq_iff` is R103 by magnitude; the fields follow since the magnitude is the exponent field
above the significand. -/
theorem fieldsAndCategories : Obligations.FieldsAndCategories := by
  unfold Obligations.FieldsAndCategories
  intro F p
  refine ⟨toNat_eq_fields p, ?_, categoryOf_eq_iff p .zero, ?_, categoryOf_eq_iff p .subnormal,
    categoryOf_eq_iff p .normal, ?_, categoryOf_eq_iff p .infinity, ?_, categoryOf_eq_iff p .nan⟩
  · exact (categoryOf_eq_iff p .zero).trans (absOf_eq_zero_iff p)
  · have hzero := absOf_eq_zero_iff p
    have himplicit := absOf_lt_two_pow_sigBits_iff p
    rw [categoryOf_eq_iff, Category.Holds, himplicit]
    omega
  · exact (categoryOf_eq_iff p .infinity).trans (absOf_eq_inf_iff p)
  · exact (categoryOf_eq_iff p .nan).trans (inf_lt_absOf_iff p)

/-! Rounding on whole numbers of units is the closed formula on rationals (R112). -/

/-- The value of one unit, the smallest subnormal of the format, 2^(1−B−S) (R105). -/
def unitValue (F : Fmt) : ℚ := 2 ^ ((1 : ℤ) - F.bias - F.sigBits)

theorem unitValue_pos (F : Fmt) : 0 < unitValue F := by
  unfold unitValue
  positivity

theorem unitsOfOne_pos (F : Fmt) : 0 < unitsOfOne F := by
  unfold unitsOfOne
  positivity

theorem unitValue_eq_inv (F : Fmt) : unitValue F = (unitsOfOne F : ℚ)⁻¹ := by
  have hsig : 0 < F.sigBits := by cases F <;> decide
  rw [unitValue, unitsOfOne, Nat.cast_pow, Nat.cast_ofNat, ← zpow_natCast, ← zpow_neg]
  congr 1
  omega

theorem nearestEvenRat_div (n : ℕ) {d : ℕ} (hd : 0 < d) :
    nearestEvenRat ((n : ℚ) / d) = nearestEven n d := by
  have hd' : (0 : ℚ) < d := by exact_mod_cast hd
  have hfloor : ⌊(n : ℚ) / d⌋ = ((n / d : ℕ) : ℤ) := by
    rw [Rat.floor_natCast_div_natCast, Int.natCast_div]
  have hfract : (n : ℚ) / d - ((n / d : ℕ) : ℤ) = (n % d : ℕ) / d := by
    rw [← hfloor, Int.self_sub_floor, Int.fract_div_natCast_eq_div_natCast_mod]
  have habove : 1 / 2 < ((n % d : ℕ) : ℚ) / d ↔ d < 2 * (n % d) := by
    rw [div_lt_div_iff₀ two_pos hd', one_mul, mul_comm]
    exact_mod_cast Iff.rfl
  have htie : ((n % d : ℕ) : ℚ) / d = 1 / 2 ↔ 2 * (n % d) = d := by
    rw [div_eq_div_iff hd'.ne' two_ne_zero, one_mul, mul_comm]
    exact_mod_cast Iff.rfl
  have hodd : ((n / d : ℕ) : ℤ) % 2 = 1 ↔ n / d % 2 = 1 := by omega
  simp only [nearestEvenRat, nearestEven, hfloor, hfract, habove, htie, hodd]
  split_ifs <;> simp

theorem log_mul_two_zpow {q : ℚ} (hq : 0 < q) (k : ℤ) : Int.log 2 (q * 2 ^ k) = Int.log 2 q + k := by
  refine eq_of_forall_le_iff fun e => ?_
  rw [← Int.zpow_le_iff_le_log one_lt_two (by positivity), ← sub_le_iff_le_add,
    ← Int.zpow_le_iff_le_log one_lt_two hq, Nat.cast_two, zpow_sub₀ two_ne_zero, div_le_iff₀ (by positivity)]

/-- ⌊log2 q⌋ where it matters, above a bound that is not negative: the whole part of q has as many bits. -/
theorem max_log_natCast {n d : ℕ} (b : ℕ) (hn : 0 < n) (hd : 0 < d) :
    max (Int.log 2 ((n : ℚ) / d)) b = (max (Nat.log2 (n / d)) b : ℕ) := by
  have hd' : (0 : ℚ) < d := by exact_mod_cast hd
  by_cases h : d ≤ n
  · have hone : (1 : ℚ) ≤ (n : ℚ) / d := (one_le_div hd').mpr (by exact_mod_cast h)
    rw [Int.log_of_one_le_right 2 hone, Nat.floor_div_eq_div, Nat.log2_eq_log_two, Nat.cast_max]
  · have hlt : n < d := Nat.lt_of_not_le h
    have hneg : Int.log 2 ((n : ℚ) / d) < 0 := by
      rw [← Int.lt_zpow_iff_log_lt one_lt_two (by positivity), zpow_zero, div_lt_one hd']
      exact_mod_cast hlt
    rw [Nat.div_eq_of_lt hlt, Nat.log2_zero]
    omega

/-- The exponent R112 rounds at, of a value of n/d units: `emin` and the bits of the whole units beyond S. -/
theorem max_log_emin (F : Fmt) {n d : ℕ} (hn : 0 < n) (hd : 0 < d) :
    max (Int.log 2 ((n : ℚ) / d * unitValue F)) F.emin = F.emin + (Nat.log2 (n / d) - F.sigBits : ℕ) := by
  have hbits := max_log_natCast F.sigBits hn hd
  rw [unitValue, log_mul_two_zpow (by positivity), Fmt.emin]
  omega

/-- n/d units in units of the last place t bits up. -/
theorem units_div_ulp (F : Fmt) (n d t : ℕ) :
    (n : ℚ) / d * unitValue F / 2 ^ (F.emin + t - F.sigBits) = (n : ℚ) / (d * 2 ^ t : ℕ) := by
  have hulp : (2 : ℚ) ^ (F.emin + t - F.sigBits) = unitValue F * 2 ^ t := by
    rw [unitValue, ← zpow_natCast, ← zpow_add₀ two_ne_zero, Fmt.emin]
    congr 1
    ring
  have hunit := (unitValue_pos F).ne'
  rw [hulp]
  push_cast
  field_simp

theorem toNat_infPat_lt (F : Fmt) : (infPat F).toNat < 2 ^ (F.width - 1) := by cases F <;> decide

/-- A sign joined to the magnitude of a pattern is added above it. -/
theorem signedZero_or_ofNat (F : Fmt) (s : Bool) {m : ℕ} (hm : m < 2 ^ (F.width - 1)) :
    signedZero F s ||| BitVec.ofNat F.width m =
      BitVec.ofInt F.width ((if s then 2 ^ (F.width - 1) else 0) + m) := by
  cases s with
  | false => simp [signedZero]
  | true =>
    have hor : 2 ^ (F.width - 1) + m = 2 ^ (F.width - 1) ||| m := by
      simpa using Nat.two_pow_add_eq_or_of_lt hm 1
    have hcast : (2 : ℤ) ^ (F.width - 1) + m = ((2 ^ (F.width - 1) + m : ℕ) : ℤ) := by push_cast; rfl
    rw [if_pos rfl, hcast, BitVec.ofInt_natCast, hor, BitVec.ofNat_or, signedZero, if_pos rfl, signMask]

/-- The rounding the machine runs, of n/d units, is R112 of that value. -/
theorem rne_eq_rneExact (F : Fmt) (s : Bool) {n d : ℕ} (hn : 0 < n) (hd : 0 < d) :
    rne F s n d = rneExact F s ((n : ℚ) / d * unitValue F) := by
  have hmag (bits : ℕ) : min bits (infPat F).toNat < 2 ^ (F.width - 1) :=
    (Nat.min_le_right _ _).trans_lt (toNat_infPat_lt F)
  simp only [rne, rneExact, max_log_emin F hn hd, units_div_ulp, signedZero_or_ofNat F s (hmag _)]
  rw [nearestEvenRat_div n (by positivity)]
  congr 2
  generalize Nat.log2 (n / d) - F.sigBits = t
  have hfield : F.emin + t + F.bias - 1 = t := by
    rw [Fmt.emin]
    ring
  rw [hfield, min_comm, Nat.cast_min, min_def]
  push_cast
  rfl

/-- The value of a pattern is its units, with its sign (R105). -/
theorem val_eq_units {F : Fmt} (p : Pat F) :
    val p = (if signOf p then -(units p : ℚ) else units p) * unitValue F := by
  have hmag : (if expf p = 0 then (sig p : ℚ) * 2 ^ ((1 : ℤ) - F.bias - F.sigBits)
      else ((2 ^ F.sigBits + sig p : ℕ) : ℚ) * 2 ^ ((expf p : ℤ) - F.bias - F.sigBits)) = units p * unitValue F := by
    unfold units unitValue
    split_ifs with h
    · rfl
    · have hexp : (expf p : ℤ) - F.bias - F.sigBits = (expf p - 1 : ℕ) + (1 - F.bias - F.sigBits) := by omega
      rw [hexp, zpow_add₀ two_ne_zero, zpow_natCast]
      push_cast
      ring
  simp only [val, hmag]
  split_ifs <;> ring

/-! The binary64 operations of R118, each a whole number of fractions of a unit rounded once. -/

theorem natAbs_signedUnits (p : Pat .f64) : (signedUnits p).natAbs = units p := by
  unfold signedUnits
  split_ifs <;> simp

theorem val_eq_signedUnits (p : Pat .f64) : val p = signedUnits p * unitValue .f64 := by
  rw [val_eq_units, signedUnits]
  split_ifs <;> simp

section Round

variable {v : ℚ} {t : ℤ} {d : ℕ} (hd : 0 < d) (hv : v = t / d * unitValue .f64)
include hd hv

theorem value_eq_zero_iff : v = 0 ↔ t = 0 := by
  simp [hv, hd.ne', (unitValue_pos .f64).ne']

theorem value_neg_iff : v < 0 ↔ t < 0 := by
  have hd' : (0 : ℚ) < d := by exact_mod_cast hd
  have hunit := unitValue_pos .f64
  simp [hv, mul_neg_iff, div_neg_iff, hd', hd'.not_gt, hunit, hunit.not_gt]

/-- A non-zero value of t/d units rounds as its magnitude. -/
theorem rne_natAbs_eq_rneExact (ht : t ≠ 0) (s : Bool) : rne .f64 s t.natAbs d = rneExact .f64 s |v| := by
  rw [rne_eq_rneExact .f64 s (Int.natAbs_pos.mpr ht) hd, hv, abs_mul, abs_div, abs_of_pos (unitValue_pos .f64),
    Nat.abs_cast, Nat.cast_natAbs, Int.cast_abs]

/-- What `fadd64` and `fma64` share: the zero they are given, or the value rounded with its own sign. -/
theorem roundSigned_or_zero (z : Pat .f64) :
    (if t = 0 then z else roundSigned t d) = if v = 0 then z else rneExact .f64 (decide (v < 0)) |v| := by
  simp only [value_eq_zero_iff hd hv, value_neg_iff hd hv]
  split_ifs with ht
  · rfl
  · exact rne_natAbs_eq_rneExact hd hv ht _

end Round

theorem fmul64_eq_rneExact (a b : Pat .f64) :
    fmul64 a b = (if val a * val b = 0 then signedZero .f64 (signOf a != signOf b)
      else rneExact .f64 (signOf a != signOf b) |val a * val b|) := by
  have hv : val a * val b = (signedUnits a * signedUnits b : ℤ) / unitsOfOne .f64 * unitValue .f64 := by
    rw [val_eq_signedUnits, val_eq_signedUnits, unitValue_eq_inv]
    push_cast
    ring
  have hunits : units a * units b = (signedUnits a * signedUnits b).natAbs := by
    rw [Int.natAbs_mul, natAbs_signedUnits, natAbs_signedUnits]
  simp only [fmul64, hunits, Int.natAbs_eq_zero, value_eq_zero_iff (unitsOfOne_pos .f64) hv]
  split_ifs with ht
  · rfl
  · exact rne_natAbs_eq_rneExact (unitsOfOne_pos .f64) hv ht _

theorem fadd64_eq_rneExact (a b : Pat .f64) :
    fadd64 a b = (if val a + val b = 0 then signedZero .f64 (signOf a && signOf b)
      else rneExact .f64 (decide (val a + val b < 0)) |val a + val b|) := by
  refine roundSigned_or_zero one_pos ?_ _
  rw [val_eq_signedUnits, val_eq_signedUnits]
  push_cast
  ring

theorem fma64_eq_rneExact (a b c : Pat .f64) :
    fma64 a b c = (if val a * val b + val c = 0 then signedZero .f64 ((signOf a != signOf b) && signOf c)
      else rneExact .f64 (decide (val a * val b + val c < 0)) |val a * val b + val c|) := by
  refine roundSigned_or_zero (unitsOfOne_pos .f64) ?_ _
  have hone : (unitsOfOne .f64 : ℚ) ≠ 0 := by exact_mod_cast (unitsOfOne_pos .f64).ne'
  rw [val_eq_signedUnits, val_eq_signedUnits, val_eq_signedUnits, unitValue_eq_inv]
  push_cast
  generalize (unitsOfOne .f64 : ℚ) = one at hone ⊢
  field_simp

/-- Settles O29: the machine rounds a whole number of fractions of a unit, which is the exact result, by
`rne_eq_rneExact`. -/
theorem binaryArithmeticRoundsOnce : Obligations.BinaryArithmeticRoundsOnce := by
  unfold Obligations.BinaryArithmeticRoundsOnce
  intro a b c _ _ _
  exact ⟨fmul64_eq_rneExact a b, fadd64_eq_rneExact a b, rfl, fma64_eq_rneExact a b c⟩

end Sys2Proof

/-! SUPPORT. The family of 41_rounding.md: when a value is integral, in units of the smallest subnormal, and what a
rounding command can answer. -/

namespace Sys2Proof

/-! The units of a pattern (R105): they grow with the magnitude, and their divisibility says whether the value is integral. -/

section Units

variable {F : Fmt} {p q : Pat F}

theorem units_of_expf_pos (h : 0 < expf p) : units p = (2 ^ F.sigBits + sig p) * 2 ^ (expf p - 1) :=
  if_neg h.ne'

theorem units_lt_two_pow : units p < 2 ^ (F.sigBits + expf p) := by
  have hsig := sig_lt p
  obtain h | h := Nat.eq_zero_or_pos (expf p)
  · rwa [units, if_pos h, h]
  · calc units p = (2 ^ F.sigBits + sig p) * 2 ^ (expf p - 1) := units_of_expf_pos h
      _ < 2 ^ (F.sigBits + 1) * 2 ^ (expf p - 1) := by gcongr; omega
      _ = 2 ^ (F.sigBits + expf p) := by rw [← pow_add]; congr 1; omega

theorem units_eq_zero_iff : units p = 0 ↔ absOf p = 0 := by
  rw [absOf_eq_zero_iff, units]
  split_ifs with h <;> simp [h]

theorem units_lt_units (h : absOf p < absOf q) : units p < units q := by
  have hle : expf p ≤ expf q := by
    rw [← absOf_div_two_pow_sigBits, ← absOf_div_two_pow_sigBits]
    exact Nat.div_le_div_right h.le
  obtain hlt | heq := hle.lt_or_eq
  · calc units p < 2 ^ (F.sigBits + expf p) := units_lt_two_pow
      _ ≤ 2 ^ (F.sigBits + (expf q - 1)) := Nat.pow_le_pow_right two_pos (by omega)
      _ = 2 ^ F.sigBits * 2 ^ (expf q - 1) := pow_add ..
      _ ≤ (2 ^ F.sigBits + sig q) * 2 ^ (expf q - 1) := by gcongr; omega
      _ = units q := (units_of_expf_pos (by omega)).symm
  · have hsig : sig p < sig q := by
      rw [absOf_eq_fields, absOf_eq_fields, heq] at h
      omega
    rw [units, units, heq]
    split_ifs
    · exact hsig
    · gcongr

theorem absOf_eq_of_units_eq (h : units p = units q) : absOf p = absOf q := by
  obtain hlt | heq | hgt := Nat.lt_trichotomy (absOf p) (absOf q)
  · exact absurd h (units_lt_units hlt).ne
  · exact heq
  · exact absurd h (units_lt_units hgt).ne'

theorem abs_val : |val p| = units p * unitValue F := by
  rw [val_eq_units, abs_mul, abs_of_pos (unitValue_pos F)]
  split_ifs <;> simp

theorem absOf_eq_of_val_eq (h : val p = val q) : absOf p = absOf q := by
  have habs : (units p : ℚ) * unitValue F = units q * unitValue F := by rw [← abs_val, ← abs_val, h]
  exact absOf_eq_of_units_eq (by exact_mod_cast mul_right_cancel₀ (unitValue_pos F).ne' habs)

/-- A value is an integer when its units are a whole number of ones. -/
theorem val_integral_iff : (∃ k : ℤ, val p = k) ↔ unitsOfOne F ∣ units p := by
  have hone : (unitsOfOne F : ℚ) ≠ 0 := by exact_mod_cast (unitsOfOne_pos F).ne'
  have hscale (k : ℤ) : val p = k ↔ (if signOf p then -(units p : ℤ) else units p) = unitsOfOne F * k := by
    rw [val_eq_units, unitValue_eq_inv, mul_inv_eq_iff_eq_mul₀ hone, mul_comm (k : ℚ)]
    split_ifs <;> exact_mod_cast Iff.rfl
  simp only [hscale]
  rw [← Int.natCast_dvd_natCast]
  split_ifs
  · exact dvd_neg (α := ℤ)
  · exact Iff.rfl

end Units

end Sys2Proof

namespace Sys2Proof.Machine

/-! The shared rounding algorithm (41_rounding.md R141 to R147): each of its branches against the divisibility of the
units. The fields of an infinity or a NaN fit too: their units are a multiple of those of 1. -/

section Rounding

variable {F : Fmt} {p : Pat F}

/-- The low S − k bits of a pattern, as the remainder of its magnitude (R144). -/
theorem toNat_and_fracMask (p : Pat F) (k : ℕ) :
    (p &&& fracMask F k).toNat = absOf p % 2 ^ (F.sigBits - k) := by
  have hwidth := width_eq_sigBits_add_expBits F
  have hmask : (fracMask F k).toNat = 2 ^ (F.sigBits - k) - 1 := by
    have hlt : 2 ^ F.sigBits - 1 < 2 ^ F.width :=
      (Nat.sub_lt (by positivity) one_pos).trans_le (Nat.pow_le_pow_right two_pos (by omega))
    rw [fracMask, sigMask, BitVec.toNat_ushiftRight, BitVec.toNat_ofNat, Nat.mod_eq_of_lt hlt]
    refine Nat.eq_of_testBit_eq fun i => ?_
    simp only [Nat.testBit_shiftRight, Nat.testBit_two_pow_sub_one, Nat.lt_sub_iff_add_lt']
  rw [BitVec.toNat_and, hmask, Nat.and_two_pow_sub_one_eq_mod, absOf_eq_mod,
    Nat.mod_mod_of_dvd _ (Nat.pow_dvd_pow 2 (by omega))]

@[simp] theorem absOf_signedZero (s : Bool) : absOf (signedZero F s) = 0 := by
  cases F <;> cases s <;> rfl

@[simp] theorem absOf_signedOne (s : Bool) : absOf (signedOne F s) = F.bias * 2 ^ F.sigBits := by
  cases F <;> cases s <;> rfl

/-- Step 6 clears the fraction of what it keeps (R146). -/
theorem absOf_mod_of_cleared (x : Pat F) (k : ℕ) : absOf (x &&& ~~~fracMask F k) % 2 ^ (F.sigBits - k) = 0 := by
  rw [← toNat_and_fracMask, BitVec.and_assoc, BitVec.not_and_self]
  simp

/-- R142: from `e = S` on the value has no fractional part. -/
theorem dvd_units_of_sigBits_le (h : (F.sigBits : ℤ) ≤ unbiasedExp p) : unitsOfOne F ∣ units p := by
  unfold unbiasedExp at h
  have hsig : 0 < F.sigBits := by cases F <;> decide
  rw [units_of_expf_pos (by omega), unitsOfOne]
  exact Dvd.dvd.mul_left (Nat.pow_dvd_pow 2 (by omega)) _

/-- R143: below `e = 0` the magnitude is below 1, and only a zero has no fractional part. -/
theorem dvd_units_iff_of_neg (h : unbiasedExp p < 0) : unitsOfOne F ∣ units p ↔ absOf p = 0 := by
  unfold unbiasedExp at h
  have hlt : units p < unitsOfOne F :=
    units_lt_two_pow.trans_le (Nat.pow_le_pow_right two_pos (by omega))
  rw [← units_eq_zero_iff]
  exact ⟨fun hdvd => Nat.eq_zero_of_dvd_of_lt hdvd hlt, fun hzero => hzero ▸ dvd_zero _⟩

/-- R143: below `e = 0` the magnitude is not that of `ONE_F`, the result the table may give. -/
theorem absOf_ne_one_of_neg (h : unbiasedExp p < 0) : absOf p ≠ F.bias * 2 ^ F.sigBits := by
  unfold unbiasedExp at h
  intro hone
  have hexp := absOf_div_two_pow_sigBits p
  rw [hone, Nat.mul_div_cancel _ (by positivity)] at hexp
  omega

/-- R144, R145: in between, the fractional part is the low S − e bits. -/
theorem dvd_units_iff_of_lt {k : ℕ} (he : unbiasedExp p = k) (hk : k < F.sigBits) :
    unitsOfOne F ∣ units p ↔ absOf p % 2 ^ (F.sigBits - k) = 0 := by
  have hexp : expf p = F.bias + k := by unfold unbiasedExp at he; omega
  have hbias : 0 < F.bias := by cases F <;> decide
  have hone : unitsOfOne F = 2 ^ (F.sigBits - k) * 2 ^ (F.bias + k - 1) := by
    rw [unitsOfOne, ← pow_add]
    congr 1
    omega
  have hdvd : 2 ^ (F.sigBits - k) ∣ 2 ^ F.sigBits := Nat.pow_dvd_pow 2 (Nat.sub_le _ _)
  rw [units_of_expf_pos (by omega), hexp, hone, Nat.mul_dvd_mul_iff_right (by positivity), Nat.dvd_add_right hdvd,
    ← Nat.dvd_iff_mod_eq_zero, absOf_eq_fields, Nat.dvd_add_right (hdvd.mul_left _)]

/-- What a rounding can do (R142 to R147): keep a pattern with no fraction, or answer `INEXACT` with another magnitude. -/
theorem roundPat_cases (op : RoundOp) (p : Pat F) :
    (unitsOfOne F ∣ units p ∧ roundPat op p = (p, .ok)) ∨
    (¬ unitsOfOne F ∣ units p ∧ ∃ r, roundPat op p = (r, .inexact) ∧ absOf r ≠ absOf p) := by
  simp only [roundPat]
  by_cases hbig : (F.sigBits : ℤ) ≤ unbiasedExp p
  · exact .inl ⟨dvd_units_of_sigBits_le hbig, if_pos hbig⟩
  rw [if_neg hbig]
  by_cases hneg : unbiasedExp p < 0
  · rw [if_pos hneg, dvd_units_iff_of_neg hneg, isZero]
    by_cases hzero : absOf p = 0
    · exact .inl ⟨hzero, by simp [hzero]⟩
    · refine .inr ⟨hzero, ?_⟩
      simp only [hzero, decide_false, Bool.false_eq_true, if_false]
      split_ifs
      · exact ⟨_, rfl, by simpa using (absOf_ne_one_of_neg hneg).symm⟩
      · exact ⟨_, rfl, by simpa using Ne.symm hzero⟩
  · obtain ⟨k, hk⟩ := Int.eq_ofNat_of_zero_le (Int.not_lt.mp hneg)
    rw [if_neg hneg, hk, Int.toNat_natCast, toNat_and_fracMask, dvd_units_iff_of_lt hk (by omega)]
    by_cases hfrac : absOf p % 2 ^ (F.sigBits - k) = 0
    · exact .inl ⟨hfrac, if_pos hfrac⟩
    · have hcleared (x : Pat F) : absOf (x &&& ~~~fracMask F k) ≠ absOf p := fun h =>
        hfrac (h ▸ absOf_mod_of_cleared x k)
      refine .inr ⟨hfrac, ?_⟩
      rw [if_neg hfrac]
      split_ifs
      · exact ⟨_, rfl, hcleared _⟩
      · exact ⟨_, rfl, hcleared _⟩

/-- R142: the exponent field of an infinity or a NaN takes the first branch, `B + 1 ≥ S` in all four formats. -/
theorem sigBits_le_unbiasedExp_of_not_finite (h : isFinite p = false) : (F.sigBits : ℤ) ≤ unbiasedExp p := by
  have hexp : F.expSat ≤ expf p := by
    rw [← Nat.not_lt, ← absOf_lt_inf_iff, ← toNat_infPat]
    exact of_decide_eq_false h
  have hformat : F.bias + F.sigBits ≤ F.expSat := by cases F <;> decide
  unfold unbiasedExp
  omega

end Rounding

/-- Settles O31: `roundPat_cases` gives the status by the divisibility of the units, which says whether the value is
integral; an answer `INEXACT` has another magnitude, so another value. -/
theorem roundingStatusAndRoundTrip : Obligations.RoundingStatusAndRoundTrip := by
  unfold Obligations.RoundingStatusAndRoundTrip
  intro op F p
  rw [val_integral_iff]
  obtain ⟨hint, hround⟩ | ⟨hnot, r, hround, hmag⟩ := roundPat_cases op p
  · rw [hround]
    exact ⟨by simp, by simp [hint], fun _ _ => rfl, fun _ => rfl, sigBits_le_unbiasedExp_of_not_finite⟩
  · have hsmall : ¬ (F.sigBits : ℤ) ≤ unbiasedExp p := fun h => hnot (dvd_units_of_sigBits_le h)
    have hfinite : isFinite p = true := by
      by_contra h
      exact hsmall (sigBits_le_unbiasedExp_of_not_finite (Bool.eq_false_iff.mpr h))
    have hval : val r ≠ val p := fun h => hmag (absOf_eq_of_val_eq h)
    exact ⟨by simp [hround, hfinite, hval], by simp [hround, hfinite, hnot], fun _ h => absurd h hnot,
      fun h => absurd h hsmall, sigBits_le_unbiasedExp_of_not_finite⟩

end Sys2Proof.Machine

/-! SUPPORT. The family of 42_multiply.md: a command word of three registers, the signs and NaNs an arithmetic command can
answer, and the multiplication the machine runs against the exact product. -/

namespace Sys2Proof

/-- A command word that uses neither `rc` nor `imm12` ends in 15 zeros (30_encoding.md R71, R72). -/
theorem packFields_of_three_registers (opcode : BitVec 6) (fmt : BitVec 2) (rd ra rb : BitVec 3) :
    packFields ⟨opcode, fmt, rd, ra, rb, 0, 0⟩ = opcode ++ fmt ++ rd ++ ra ++ rb ++ 0#15 :=
  BitVec.append_assoc (x₁ := opcode ++ fmt ++ rd ++ ra ++ rb) (x₂ := 0#3) (x₃ := 0#12)

/-! The sign of the results of the tables and of a rounding (R102, R112), and their NaNs (R106, R107). -/

section Results

variable {F : Fmt}

@[simp] theorem signOf_signedZero (s : Bool) : signOf (signedZero F s) = s := by
  rw [signOf, BitVec.msb_eq_decide]
  cases F <;> cases s <;> rfl

@[simp] theorem signOf_signedInf (s : Bool) : signOf (signedInf F s) = s := by
  rw [signOf, BitVec.msb_eq_decide]
  cases F <;> cases s <;> rfl

@[simp] theorem isNaN_qnan : isNaN (qnan F) = true := by cases F <;> rfl

theorem absOf_le_absOf_quiet (p : Pat F) : absOf p ≤ absOf (quiet p) := by
  simp only [absOf, quiet, BitVec.toNat_and, BitVec.toNat_or, Nat.and_or_distrib_right]
  exact Nat.left_le_or

theorem isNaN_quiet {p : Pat F} (h : isNaN p = true) : isNaN (quiet p) = true :=
  decide_eq_true ((of_decide_eq_true h).trans_le (absOf_le_absOf_quiet p))

/-- A rounding has the sign it is given: its magnitude is at most `INF`, below the sign bit. -/
@[simp] theorem signOf_rne (s : Bool) (n d : ℕ) : signOf (rne F s n d) = s := by
  have hmag (m : ℕ) : (BitVec.ofNat F.width (min m (infPat F).toNat)).msb = false := by
    rw [BitVec.msb_eq_decide, BitVec.toNat_ofNat]
    exact decide_eq_false (Nat.not_le.mpr
      ((Nat.mod_le _ _).trans_lt ((Nat.min_le_right _ _).trans_lt (toNat_infPat_lt F))))
  rw [signOf, rne, BitVec.msb_or, hmag, Bool.or_false]
  exact signOf_signedZero s

end Results

/-- The product of two non-zero magnitudes is rounded as a number of fractions of a unit (R171). -/
theorem rne_units_mul_units {F : Fmt} {a b : Pat F} (ha : absOf a ≠ 0) (hb : absOf b ≠ 0) (s : Bool) :
    rne F s (units a * units b) (unitsOfOne F) = rneExact F s (|val a| * |val b|) := by
  have hpos {p : Pat F} (hp : absOf p ≠ 0) : 0 < units p := Nat.pos_of_ne_zero (mt units_eq_zero_iff.mp hp)
  rw [rne_eq_rneExact F s (Nat.mul_pos (hpos ha) (hpos hb)) (unitsOfOne_pos F), abs_val, abs_val, unitValue_eq_inv]
  push_cast
  congr 1
  ring

end Sys2Proof

namespace Sys2Proof.Machine

section Multiply

variable {F : Fmt} {a b : Pat F}

/-- Every row of the table of R172 answers a NaN or the xor of the signs. -/
theorem isNaN_or_signOf_of_mulSpecial {r : Pat F} (h : mulSpecial a b = some r) :
    isNaN r = true ∨ signOf r = (signOf a != signOf b) := by
  simp only [mulSpecial] at h
  split_ifs at h with hnanA hnanB <;> cases h
  · exact .inl (isNaN_quiet hnanA)
  · exact .inl (isNaN_quiet hnanB)
  · exact .inl isNaN_qnan
  · exact .inr (signOf_signedInf _)
  · exact .inr (signOf_signedZero _)

/-- R173: of the rows of the table and of the rounding alike. -/
theorem signOf_mulPat (h : isNaN (mulPat a b) = false) : signOf (mulPat a b) = (signOf a != signOf b) := by
  unfold mulPat at h ⊢
  cases hrow : mulSpecial a b with
  | none => exact signOf_rne _ _ _
  | some r =>
    rw [hrow] at h
    exact (isNaN_or_signOf_of_mulSpecial hrow).resolve_left (Bool.eq_false_iff.mp h)

/-- The multiplication the machine runs is the table of R172 and the exact product of R171. -/
theorem mulPat_eq_mulExact (a b : Pat F) : mulPat a b = mulExact a b := by
  simp only [mulPat, mulSpecial, mulExact, isNaN, isInf, isZero, Bool.or_eq_true, Bool.and_eq_true, decide_eq_true_eq]
  split_ifs with hnanA hnanB hinvalid hinf hzero
  · rfl
  · rfl
  · rfl
  · rfl
  · rfl
  · rw [not_or] at hzero
    exact rne_units_mul_units hzero.1 hzero.2 _

end Multiply

/-- Settles O33: the machine's product is the exact one, by `mulPat_eq_mulExact`, and its sign is that of the row or of the
rounding. -/
theorem mulCommand : Obligations.MulCommand := by
  unfold Obligations.MulCommand
  refine ⟨fun F rd ra rb => packFields_of_three_registers _ _ _ _ _, fun F rd ra rb s hs => ?_, fun F a b => ?_⟩ <;>
    rw [← mulPat_eq_mulExact]
  · exact serve_of_running hs _
  · exact signOf_mulPat

end Sys2Proof.Machine

/-! SUPPORT. The family of 43_divide.md: the division the machine runs against the exact quotient. -/

namespace Sys2Proof

/-- The quotient of two non-zero magnitudes: the unit cancels, and the quotient is rounded as a number of fractions of a
unit, with the units of 1 as the scale (R191). -/
theorem rne_units_div_units {F : Fmt} {a b : Pat F} (ha : absOf a ≠ 0) (hb : absOf b ≠ 0) (s : Bool) :
    rne F s (units a * unitsOfOne F) (units b) = rneExact F s (|val a| / |val b|) := by
  have hnum : 0 < units a * unitsOfOne F :=
    Nat.mul_pos (Nat.pos_of_ne_zero (mt units_eq_zero_iff.mp ha)) (unitsOfOne_pos F)
  have hden : 0 < units b := Nat.pos_of_ne_zero (mt units_eq_zero_iff.mp hb)
  have hone : (unitsOfOne F : ℚ) ≠ 0 := by exact_mod_cast (unitsOfOne_pos F).ne'
  rw [rne_eq_rneExact F s hnum hden, abs_val, abs_val, mul_div_mul_right _ _ (unitValue_pos F).ne', unitValue_eq_inv]
  push_cast
  congr 1
  field_simp

end Sys2Proof

namespace Sys2Proof.Machine

section Divide

variable {F : Fmt} {a b : Pat F}

/-- Every row of the table of R192 answers a NaN or the xor of the signs. -/
theorem isNaN_or_signOf_of_divSpecial {r : Pat F} (h : divSpecial a b = some r) :
    isNaN r = true ∨ signOf r = (signOf a != signOf b) := by
  simp only [divSpecial] at h
  split_ifs at h with hnanA hnanB <;> cases h
  · exact .inl (isNaN_quiet hnanA)
  · exact .inl (isNaN_quiet hnanB)
  · exact .inl isNaN_qnan
  · exact .inr (signOf_signedInf _)
  · exact .inr (signOf_signedZero _)
  · exact .inl isNaN_qnan
  · exact .inr (signOf_signedZero _)
  · exact .inr (signOf_signedInf _)

/-- R193: of the rows of the table and of the rounding alike. -/
theorem signOf_divPat (h : isNaN (divPat a b) = false) : signOf (divPat a b) = (signOf a != signOf b) := by
  unfold divPat at h ⊢
  cases hrow : divSpecial a b with
  | none => exact signOf_rne _ _ _
  | some r =>
    rw [hrow] at h
    exact (isNaN_or_signOf_of_divSpecial hrow).resolve_left (Bool.eq_false_iff.mp h)

/-- The division the machine runs is the table of R192 and the exact quotient of R191: the rows agree one by one, and
the last one is left with two non-zero magnitudes. -/
theorem divPat_eq_divExact (a b : Pat F) : divPat a b = divExact a b := by
  simp only [divPat, divSpecial, divExact, isNaN, isInf, isZero, Bool.and_eq_true, decide_eq_true_eq]
  split_ifs with hnanA hnanB hinfBoth hinfA hinfB hzeroBoth hzeroA hzeroB
  iterate 8 · rfl
  · exact rne_units_div_units hzeroA hzeroB _

end Divide

/-- Settles O35: the machine's quotient is the exact one, by `divPat_eq_divExact`, and its sign is that of the row or of the
rounding. -/
theorem divCommand : Obligations.DivCommand := by
  unfold Obligations.DivCommand
  refine ⟨fun F rd ra rb => packFields_of_three_registers _ _ _ _ _, fun F rd ra rb s hs => ?_, fun F a b => ?_⟩ <;>
    rw [← divPat_eq_divExact]
  · exact serve_of_running hs _
  · exact signOf_divPat

end Sys2Proof.Machine

/-! SUPPORT. The family of 44_barrett.md: a checked command on a running unit, the reduction step and the extraction on what a
valid reducer holds, the commands of the reducer, and the remainder of FMOD in whole units. -/

namespace Sys2Proof.Machine

/-! A checked command on a running unit (60_exceptions.md R332, R334). -/

section Checked

variable {s : State} (hs : s.fc = 0) {ok : Bool}
include hs

theorem serve_checked_of_pass (hok : ok = true) (effect : State) : serve s (checked ok s effect) = .next effect := by
  rw [serve_of_running hs, hok, checked_true]

theorem serve_checked_of_violation (hok : ok = false) (effect : State) :
    serve s (checked ok s effect) = .next (raiseFault contractCode s) := by
  rw [serve_of_running hs, hok, checked_false]

end Checked

/-! The preconditions as the spec words them. -/

theorem brnewOk_iff {N x n : ℕ} : brnewOk N x n = true ↔ 2 ^ N < 8 * n ∧ 4 * n < 2 ^ N ∧ x < 2 * n := by
  simp [brnewOk, modulusInRange, and_assoc]

theorem modshlOk_iff {N x y : ℕ} : modshlOk N x y = true ↔ y ≠ 0 ∧ y ≤ (2 ^ N - 1) / 4 ∧ x < 2 * y := by
  simp only [modshlOk, Bool.and_eq_true, decide_eq_true_eq, and_assoc]

/-! The fields of `FSR` that show the reducer (10_state.md R24). -/

theorem fsr_valid_and_format (s : State) :
    (fsr s).extractLsb' 1 1 = BitVec.ofBool s.br.valid ∧ (fsr s).extractLsb' 2 2 = s.br.fmt.code := by
  rw [fsr]
  generalize s.nx = nx, s.br.valid = valid, s.br.fmt.code = code, s.fc = fc
  revert nx valid code fc
  decide

/-- Settles O39: `brnewOk_iff` is the precondition; the new reducer and the fault are the model's own, on a running unit. -/
theorem brnewCommand : Obligations.BrnewCommand := by
  unfold Obligations.BrnewCommand
  refine ⟨fun F ra rb => packFields_of_three_registers _ _ _ _ _,
    fun F ra rb s hs => ⟨fun hmin hmax hx => ?_, fun hno => ?_⟩, fsr_valid_and_format⟩
  · exact serve_checked_of_pass hs (brnewOk_iff.mpr ⟨hmin, hmax, hx⟩) _
  · exact serve_checked_of_violation hs (Bool.eq_false_iff.mpr (mt brnewOk_iff.mp hno)) _

/-- Settles O45: `modshlOk_iff` is the precondition, `modshl_eq` the exact remainder. -/
theorem modshlCommand : Obligations.ModshlCommand := by
  unfold Obligations.ModshlCommand
  refine ⟨fun F rd ra rb rc => rfl, fun F rd ra rb rc s hs => ⟨fun hy hmax hx => ?_, fun hno => ?_⟩⟩
  · have hshift : (s.x[rc].extractLsb' 0 32).toNat < 2 ^ 32 := shiftOperand_lt s rc
    rw [← modshl_eq hshift]
    exact serve_checked_of_pass hs (modshlOk_iff.mpr ⟨hy, hmax, hx⟩) _
  · refine serve_checked_of_violation hs (Bool.eq_false_iff.mpr (mt modshlOk_iff.mp ?_)) _
    omega

/-! What a valid reducer holds (44_barrett.md R230, R233, R236). -/

theorem width_pos (F : Fmt) : 0 < F.width := by cases F <;> decide

theorem two_pow_width_le (F : Fmt) : 2 ^ F.width ≤ 2 ^ 128 := Nat.pow_le_pow_right two_pos (width_le F)

theorem two_pow_two_width (F : Fmt) : 2 * 2 ^ (2 * F.width - 1) = 2 ^ F.width * 2 ^ F.width := by
  have hpos := width_pos F
  rw [← pow_succ', ← pow_add]
  congr 1
  omega

theorem two_pow_eq_mul {a b c : ℕ} (h : c = a + b) : 2 ^ c = 2 ^ a * 2 ^ b := by rw [h, pow_add]

/-- R²/2, split where a step by k bits cuts the accumulator (R242). -/
theorem two_pow_half_split {N k : ℕ} (hk : k < N) : 2 ^ (2 * N - 1) = 2 ^ (2 * N - k - 1) * 2 ^ k :=
  two_pow_eq_mul (by omega)

/-- The step of R242 on the bits of the accumulator: those below the estimate are shifted, the estimate is multiplied. -/
theorem reduceStep_eq_mod_add {N k : ℕ} (hk : k < N) (num r : ℕ) :
    reduceStep N k num r = num % 2 ^ (2 * N - k - 1) * 2 ^ k + num / 2 ^ (2 * N - k - 1) * r := by
  have hsplit : 2 ^ (2 * N) = 2 ^ (2 * N - k - 1) * 2 ^ (k + 1) := two_pow_eq_mul (by omega)
  rw [reduceStep, stepEstimate, loPart, hsplit, Nat.mul_mod_mul_right, pow_succ, ← Nat.mul_assoc,
    Nat.mul_div_cancel _ two_pos]

namespace ReducerHolds

variable {b : Reducer} {n x k : ℕ} (h : ReducerHolds b n x)
include h

theorem four_mul_modulus_lt : 4 * n < 2 ^ b.fmt.width := by
  have hrange := h.range
  simp only [modulusInRange, Bool.and_eq_true, decide_eq_true_eq] at hrange
  exact hrange.2

theorem two_mul_modulus_pos : 0 < 2 * n := (Nat.zero_le x).trans_lt h.below

/-- R233: m·q + r = R²/2. -/
theorem div_mul_quo_add_rem : 2 * n * b.quo.toNat + b.rem.toNat = 2 ^ (2 * b.fmt.width - 1) := by
  rw [h.quo_eq, h.rem_eq, Nat.div_add_mod]

theorem rem_lt : b.rem.toNat < 2 * n := h.rem_eq ▸ Nat.mod_lt _ h.two_mul_modulus_pos

theorem quo_pos : 0 < b.quo.toNat := by
  rw [h.quo_eq]
  have hmax := h.four_mul_modulus_lt
  have hle : 2 ^ b.fmt.width ≤ 2 ^ (2 * b.fmt.width - 1) :=
    Nat.pow_le_pow_right two_pos (by have := width_pos b.fmt; omega)
  exact Nat.div_pos (by omega) h.two_mul_modulus_pos

/-- R233: 2·q·m is at most R². -/
theorem two_quo_mul_div_le : 2 * b.quo.toNat * (2 * n) ≤ 2 ^ b.fmt.width * 2 ^ b.fmt.width := by
  rw [← two_pow_two_width, ← h.div_mul_quo_add_rem]
  linarith

/-- R236: the accumulator is below R². -/
theorem num_lt : b.num.toNat < 2 ^ b.fmt.width * 2 ^ b.fmt.width :=
  calc b.num.toNat = 2 * (x * b.quo.toNat) := by rw [h.num_eq, Nat.mul_assoc]
    _ < 2 * (2 * n * b.quo.toNat) :=
      Nat.mul_lt_mul_of_pos_left (Nat.mul_lt_mul_of_pos_right h.below h.quo_pos) two_pos
    _ = 2 * b.quo.toNat * (2 * n) := by ring
    _ ≤ 2 ^ b.fmt.width * 2 ^ b.fmt.width := h.two_quo_mul_div_le

theorem stepEstimate_lt (hk : k < b.fmt.width) : stepEstimate b.fmt.width k b.num.toNat < 2 ^ b.fmt.width := by
  refine Nat.div_lt_of_lt_mul (h.num_lt.trans_le ?_)
  rw [← pow_add, ← pow_add]
  exact Nat.pow_le_pow_right two_pos (by omega)

/-- R242: a step takes the estimate's multiples of the modulus from the shifted value, scaled by 2q. -/
theorem reduceStep_add (hk : k < b.fmt.width) :
    reduceStep b.fmt.width k b.num.toNat b.rem.toNat +
      2 * b.quo.toNat * (stepEstimate b.fmt.width k b.num.toNat * n) = 2 * b.quo.toNat * (x * 2 ^ k) := by
  have hsplit := Nat.mod_add_div b.num.toNat (2 ^ (2 * b.fmt.width - k - 1))
  have hbarrett := h.div_mul_quo_add_rem
  have hnum := h.num_eq
  rw [reduceStep_eq_mod_add hk, stepEstimate]
  rw [two_pow_half_split hk] at hbarrett
  generalize b.num.toNat / 2 ^ (2 * b.fmt.width - k - 1) = u at hsplit ⊢
  generalize b.num.toNat % 2 ^ (2 * b.fmt.width - k - 1) = low at hsplit ⊢
  linear_combination u * hbarrett + 2 ^ k * hsplit + 2 ^ k * hnum

/-- The accumulator after a step is below that of the value 2n. -/
theorem reduceStep_lt (hk : k < b.fmt.width) :
    reduceStep b.fmt.width k b.num.toNat b.rem.toNat < 2 * b.quo.toNat * (2 * n) := by
  have hest := h.stepEstimate_lt hk
  have hmax := h.four_mul_modulus_lt
  have hrem := h.rem_lt
  have hbarrett := h.div_mul_quo_add_rem
  have hsquare := two_pow_two_width b.fmt
  have hlow : b.num.toNat % 2 ^ (2 * b.fmt.width - k - 1) * 2 ^ k < 2 ^ (2 * b.fmt.width - 1) := by
    rw [two_pow_half_split hk]
    exact Nat.mul_lt_mul_of_pos_right (Nat.mod_lt _ (by positivity)) (by positivity)
  have hhigh : (stepEstimate b.fmt.width k b.num.toNat + 2) * (2 * b.rem.toNat) ≤
      2 ^ b.fmt.width * 2 ^ b.fmt.width := by
    generalize 2 ^ b.fmt.width = R at hest hmax ⊢
    have hest' : stepEstimate b.fmt.width k b.num.toNat + 2 ≤ R + 1 := by omega
    have hrem' : 2 * b.rem.toNat + 1 ≤ R := by omega
    linarith [Nat.mul_le_mul_right (2 * b.rem.toNat) hest', Nat.mul_le_mul_left R hrem']
  rw [reduceStep_eq_mod_add hk, ← stepEstimate]
  linarith

/-- R242, R243: after a step the reducer holds the shifted value less the estimate's multiples of the modulus. -/
theorem after_step (hk : k < b.fmt.width) :
    stepEstimate b.fmt.width k b.num.toNat * n ≤ x * 2 ^ k ∧
      ReducerHolds (stepReducer k b) n (x * 2 ^ k - stepEstimate b.fmt.width k b.num.toNat * n) := by
  have hadd := h.reduceStep_add hk
  have hlt := h.reduceStep_lt hk
  have hquo : 0 < 2 * b.quo.toNat := Nat.mul_pos two_pos h.quo_pos
  have hle : stepEstimate b.fmt.width k b.num.toNat * n ≤ x * 2 ^ k :=
    Nat.le_of_mul_le_mul_left (hadd ▸ Nat.le_add_left _ _) hquo
  have hstep : reduceStep b.fmt.width k b.num.toNat b.rem.toNat =
      2 * b.quo.toNat * (x * 2 ^ k - stepEstimate b.fmt.width k b.num.toNat * n) := by
    rw [Nat.mul_sub, ← hadd, Nat.add_sub_cancel]
  have hfits : reduceStep b.fmt.width k b.num.toNat b.rem.toNat < 2 ^ 256 := by
    have hword := two_pow_width_le b.fmt
    calc _ < 2 * b.quo.toNat * (2 * n) := hlt
      _ ≤ 2 ^ b.fmt.width * 2 ^ b.fmt.width := h.two_quo_mul_div_le
      _ ≤ 2 ^ 128 * 2 ^ 128 := Nat.mul_le_mul hword hword
  refine ⟨hle, h.range, ?_, h.div_eq, h.quo_eq, h.rem_eq, ?_⟩
  · rw [hstep] at hlt
    exact Nat.lt_of_mul_lt_mul_left hlt
  · rw [stepReducer, BitVec.toNat_ofNat, Nat.mod_eq_of_lt hfits, hstep]
    ring

/-- R237: the high half of the accumulator gives the value back, rounded up. -/
theorem partialRemainder_eq : partialRemainder b.fmt.width b.div.toNat b.num.toNat = x := by
  have hsplit := Nat.div_add_mod b.num.toNat (2 ^ b.fmt.width)
  have hlow := Nat.mod_lt b.num.toNat (Nat.two_pow_pos b.fmt.width)
  have hnum := h.num_eq
  have hbarrett := h.div_mul_quo_add_rem
  have hsquare := two_pow_two_width b.fmt
  have hmax := h.four_mul_modulus_lt
  have hrem := h.rem_lt
  have hbelow := h.below
  rw [partialRemainder, hiPart, Nat.mod_eq_of_lt (Nat.div_lt_of_lt_mul h.num_lt), h.div_eq]
  generalize b.num.toNat / 2 ^ b.fmt.width = high at hsplit ⊢
  generalize b.num.toNat % 2 ^ b.fmt.width = low at hsplit hlow
  generalize 2 ^ b.fmt.width = R at *
  have hscaled : R * (2 * n * high) + (2 * n * low + 2 * x * b.rem.toNat) = R * (x * R) := by
    linear_combination 2 * n * hsplit + 2 * n * hnum + 2 * x * hbarrett + x * hsquare
  have hgap : 2 * n * low + 2 * x * b.rem.toNat < R * R := by
    have hR : 0 < R := Nat.zero_lt_of_lt hmax
    have hrem' : 2 * b.rem.toNat ≤ R := by omega
    linarith [Nat.mul_le_mul_left (2 * n) hlow.le, Nat.mul_le_mul hbelow.le hrem', Nat.mul_lt_mul_of_pos_right hmax hR]
  have hupper : 2 * n * high ≤ x * R :=
    Nat.le_of_mul_le_mul_left (hscaled ▸ Nat.le_add_right _ _) (Nat.zero_lt_of_lt hmax)
  have hlower : x * R < 2 * n * high + R := by
    refine Nat.lt_of_mul_lt_mul_left (a := R) ?_
    rw [Nat.mul_add, ← hscaled]
    omega
  rw [Nat.div_eq_iff (Nat.zero_lt_of_lt hmax)]
  omega

/-- The value extracted fits a register. -/
theorem toNat_extractRemainder : (extractRemainder b).toNat = x := by
  have hbelow := h.below
  have hmax := h.four_mul_modulus_lt
  have hword := two_pow_width_le b.fmt
  rw [extractRemainder, h.partialRemainder_eq, BitVec.toNat_ofNat, Nat.mod_eq_of_lt (by omega)]

end ReducerHolds

/-! The commands of the reducer. -/

/-- R240 is R242 with k = N − 1: the whole high half is the estimate. -/
theorem reduceStep_pred {N : ℕ} (hN : 0 < N) (num r : ℕ) :
    reduceStep N (N - 1) num r = num * 2 ^ N % 2 ^ (2 * N) / 2 + num / 2 ^ N * r := by
  have hcut : 2 * N - (N - 1) - 1 = N := by omega
  rw [reduceStep, stepEstimate, loPart, Nat.sub_add_cancel hN, hcut]

theorem exec_brwrd_eq_brshr (s : State) : exec .brwrd s = exec (.brshr (s.br.fmt.width - 1)) s := by
  have hk : s.br.fmt.width - 1 < s.br.fmt.width := Nat.sub_one_lt (width_pos _).ne'
  simp [exec, execBrwrd, execBrshr, hk]

section Commands

variable {s : State} (hs : s.fc = 0)
include hs

theorem exec_brshr_of_valid {k : ℕ} (hvalid : s.br.valid = true) (hk : k < s.br.fmt.width) :
    exec (.brshr k) s = .next (respond 0 .ok (setBr (stepReducer k s.br) s)) :=
  serve_checked_of_pass hs (by simp [hvalid, hk]) _

theorem exec_brrem_of_valid (rd : RegNum) (hvalid : s.br.valid = true) :
    exec (.brrem rd) s = .next (finish rd (extractRemainder s.br) .ok (discardBr s)) :=
  serve_checked_of_pass hs hvalid _

end Commands

theorem encode_brshr (k : ℕ) : encode (.brshr k) = 0x22#6 ++ 0#14 ++ BitVec.ofNat 12 k :=
  congrArg (· ++ BitVec.ofNat 12 k) (by decide : 0x22#6 ++ 0#2 ++ 0#3 ++ 0#3 ++ 0#3 ++ 0#3 = 0x22#6 ++ 0#14)

theorem encode_brrem (rd : RegNum) : encode (.brrem rd) = 0x23#6 ++ 0#2 ++ regField rd ++ 0#21 := by
  revert rd
  decide

/-- Settles O41: `exec_brshr_of_valid` is R241 and `reduceStep_pred` R240; the value after a step, by
`ReducerHolds.after_step`, is the shifted one less a multiple of the modulus. -/
theorem brwrdAndBrshrCommands : Obligations.BrwrdAndBrshrCommands := by
  unfold Obligations.BrwrdAndBrshrCommands
  refine ⟨rfl, fun k _ => encode_brshr k, fun s k hs => ⟨fun hvalid hk => ?_, fun hno => ?_⟩,
    fun s hs => ⟨fun hvalid => ?_, fun hno => ?_, exec_brwrd_eq_brshr s⟩,
    fun s n x k hs hvalid hholds hk => ?_⟩
  · exact exec_brshr_of_valid hs hvalid hk
  · exact serve_checked_of_violation hs (by simpa [imp_iff_not_or] using hno) _
  · rw [← reduceStep_pred (width_pos _)]
    exact serve_checked_of_pass hs hvalid _
  · exact serve_checked_of_violation hs hno _
  · obtain ⟨hle, hstep⟩ := hholds.after_step hk
    refine ⟨_, _, exec_brshr_of_valid hs hvalid hk, hstep, ?_⟩
    rw [Nat.mul_comm _ n] at hle ⊢
    exact Nat.sub_mul_mod hle

/-- Settles O43: `exec_brrem_of_valid` is R245; the value is that of the triple by `ReducerHolds.toNat_extractRemainder`. -/
theorem brremCommand : Obligations.BrremCommand := by
  unfold Obligations.BrremCommand
  refine ⟨encode_brrem,
    fun rd s hs => ⟨fun hvalid => ⟨_, exec_brrem_of_valid hs rd hvalid, rfl, rfl, rfl⟩, fun hno => ?_⟩,
    fun rd s t n x hs hvalid hholds ht => ?_⟩
  · exact serve_checked_of_violation hs hno _
  · rw [exec_brrem_of_valid hs rd hvalid] at ht
    cases ht
    refine ⟨?_, hholds.below⟩
    simpa using hholds.toNat_extractRemainder

end Sys2Proof.Machine

/-! The remainder of `FMOD` (44_barrett.md R257): a whole number of units that the format represents. -/

namespace Sys2Proof

section Representable

variable {F : Fmt}

/-- A sign joined above a magnitude leaves the magnitude. -/
theorem absOf_signedZero_or_ofNat (s : Bool) {m : ℕ} (hm : m < 2 ^ (F.width - 1)) :
    absOf (signedZero F s ||| BitVec.ofNat F.width m) = m := by
  have hzero : (signedZero F s).toNat &&& (2 ^ (F.width - 1) - 1) = 0 := by
    rw [← toNat_absMask, ← BitVec.toNat_and]
    exact Machine.absOf_signedZero s
  have hword : m < 2 ^ F.width := hm.trans_le (Nat.pow_le_pow_right two_pos (Nat.sub_le _ _))
  rw [absOf, BitVec.toNat_and, BitVec.toNat_or, toNat_absMask, Nat.and_or_distrib_right, hzero, Nat.zero_or,
    BitVec.toNat_ofNat, Nat.mod_eq_of_lt hword, Nat.and_two_pow_sub_one_eq_mod, Nat.mod_eq_of_lt hm]

/-- The units of a magnitude written as t·2^S + m, m the significand with its leading bit, at the exponent t of the unit in
the last place (R105). -/
theorem units_of_absOf_eq {p : Pat F} {t m : ℕ} (h : absOf p = t * 2 ^ F.sigBits + m) (hm : m < 2 ^ (F.sigBits + 1))
    (ht : t = 0 ∨ 2 ^ F.sigBits ≤ m) : units p = m * 2 ^ t := by
  have hfields := absOf_eq_fields p
  have hsig := sig_lt p
  rw [pow_succ] at hm
  by_cases hlead : m < 2 ^ F.sigBits
  · obtain rfl : t = 0 := ht.resolve_right (by omega)
    have hexp : expf p = 0 := (absOf_lt_two_pow_sigBits_iff p).mp (by omega)
    rw [units, if_pos hexp, pow_zero, Nat.mul_one]
    rw [hexp] at hfields
    omega
  · have hexp : expf p = t + 1 := by
      rw [← absOf_div_two_pow_sigBits, h, Nat.div_eq_iff (by positivity), Nat.add_one_mul]
      omega
    rw [hexp, Nat.add_one_mul] at hfields
    rw [units_of_expf_pos (by omega), hexp, Nat.add_sub_cancel]
    congr 1
    omega

theorem nearestEven_mul {d : ℕ} (hd : 0 < d) (m : ℕ) : nearestEven (d * m) d = m := by
  have hlow : ¬(d < 2 * 0 ∨ 2 * 0 = d ∧ d * m / d % 2 = 1) := by omega
  rw [nearestEven, Nat.mul_mod_right, if_neg hlow, Nat.mul_div_cancel_left m hd]

/-- A number of units below the range of the format and a multiple of the unit in the last place rounds to itself (R112). -/
theorem units_rne_of_dvd (s : Bool) {n : ℕ} (hn : n ≠ 0) (hdvd : 2 ^ (Nat.log2 n - F.sigBits) ∣ n)
    (hlt : n < 2 ^ (F.sigBits + (F.expSat - 1))) : units (rne F s n 1) = n := by
  have hlog : Nat.log2 n < F.sigBits + (F.expSat - 1) := (Nat.log2_lt hn).mpr hlt
  have hself : 2 ^ Nat.log2 n ≤ n := Nat.log2_self_le hn
  have hnext : n < 2 ^ (Nat.log2 n + 1) := Nat.lt_log2_self
  rw [rne, Nat.div_one, Nat.one_mul]
  generalize ht : Nat.log2 n - F.sigBits = t at hdvd ⊢
  obtain ⟨m, rfl⟩ := hdvd
  have hm : m < 2 ^ (F.sigBits + 1) := by
    refine Nat.lt_of_mul_lt_mul_left (a := 2 ^ t) (hnext.trans_le ?_)
    rw [← pow_add]
    exact Nat.pow_le_pow_right two_pos (by omega)
  have hlead : t = 0 ∨ 2 ^ F.sigBits ≤ m := by
    refine or_iff_not_imp_left.mpr fun hpos => Nat.le_of_mul_le_mul_left (c := 2 ^ t) ?_ (by positivity)
    rw [← pow_add]
    exact (Nat.pow_le_pow_right two_pos (by omega)).trans hself
  have hinf : t * 2 ^ F.sigBits + m < (infPat F).toNat := by
    have hsat : 2 ≤ F.expSat := by cases F <;> decide
    have hexp : t + 2 ≤ F.expSat := by omega
    rw [pow_succ] at hm
    rw [toNat_infPat]
    linarith [Nat.mul_le_mul_right (2 ^ F.sigBits) hexp]
  rw [nearestEven_mul (by positivity), Nat.min_eq_left hinf.le,
    units_of_absOf_eq (absOf_signedZero_or_ofNat s (hinf.trans (toNat_infPat_lt F))) hm hlead, Nat.mul_comm]

/-! The exponent of the unit in the last place of a pattern, counted from the smallest subnormal, is `expf − 1` (R105). -/

variable {a b : Pat F}

theorem two_pow_dvd_units (p : Pat F) : 2 ^ (expf p - 1) ∣ units p := by
  rw [units]
  split_ifs with h
  · simp [h]
  · exact Nat.dvd_mul_left _ _

theorem expf_le_expf_of_units_le (h : units b ≤ units a) : expf b ≤ expf a := by
  by_contra hlt
  rw [← absOf_div_two_pow_sigBits, ← absOf_div_two_pow_sigBits] at hlt
  exact (units_lt_units (Nat.lt_of_div_lt_div (Nat.not_le.mp hlt))).not_ge h

/-- The remainder of two magnitudes is one of the format: a multiple of the divisor's unit in the last place, and below the
divisor (R257: no rounding occurs). -/
theorem units_rne_units_mod_units (s : Bool) (hfinite : expf b < F.expSat) (hb : 0 < units b)
    (hle : units b ≤ units a) (hrho : units a % units b ≠ 0) :
    units (rne F s (units a % units b) 1) = units a % units b := by
  have hlt : units a % units b < 2 ^ (F.sigBits + expf b) := (Nat.mod_lt _ hb).trans units_lt_two_pow
  have hlog := (Nat.log2_lt hrho).mpr hlt
  refine units_rne_of_dvd s hrho ?_ (hlt.trans_le (Nat.pow_le_pow_right two_pos (by omega)))
  have hdvd : 2 ^ (expf b - 1) ∣ units a % units b :=
    (Nat.dvd_mod_iff (two_pow_dvd_units b)).mpr
      ((Nat.pow_dvd_pow 2 (Nat.sub_le_sub_right (expf_le_expf_of_units_le hle) 1)).trans (two_pow_dvd_units a))
  exact (Nat.pow_dvd_pow 2 (by omega)).trans hdvd

end Representable

theorem exactRemainder_eq_units {F : Fmt} (a b : Pat F) :
    exactRemainder a b = (units a % units b : ℕ) * unitValue F := by
  have hfloor : ⌊|val a| / |val b|⌋ = ((units a / units b : ℕ) : ℤ) := by
    rw [abs_val, abs_val, mul_div_mul_right _ _ (unitValue_pos F).ne', Rat.floor_natCast_div_natCast, Int.natCast_div]
  have hdiv : ((units b * (units a / units b) + units a % units b : ℕ) : ℚ) = units a := by rw [Nat.div_add_mod]
  rw [exactRemainder, hfloor, abs_val, abs_val, ← hdiv, Int.cast_natCast]
  push_cast
  ring

theorem abs_val_lt_abs_val_iff {F : Fmt} {a b : Pat F} : |val a| < |val b| ↔ units a < units b := by
  rw [abs_val, abs_val, mul_lt_mul_iff_left₀ (unitValue_pos F), Nat.cast_lt]

end Sys2Proof

namespace Sys2Proof.Machine

section Fmod

variable {F : Fmt} {a b : Pat F}

/-- The last row of R257: the remainder in units, zero or rounded, is the exact one. -/
theorem fmod_last_row_eq (a b : Pat F) :
    (if units a % units b = 0 then signedZero F (signOf a) else rne F (signOf a) (units a % units b) 1) =
      if exactRemainder a b = 0 then signedZero F (signOf a) else rneExact F (signOf a) (exactRemainder a b) := by
  have hrho := exactRemainder_eq_units a b
  by_cases hzero : units a % units b = 0
  · rw [if_pos hzero, if_pos (by rw [hrho, hzero, Nat.cast_zero, zero_mul])]
  · have hne : exactRemainder a b ≠ 0 := by
      rw [hrho]
      exact mul_ne_zero (Nat.cast_ne_zero.mpr hzero) (unitValue_pos F).ne'
    rw [if_neg hzero, if_neg hne, rne_eq_rneExact F _ (Nat.pos_of_ne_zero hzero) one_pos, Nat.cast_one, div_one, hrho]

/-- The remainder the machine computes is the table of R257 on exact values: the last row by `fmod_last_row_eq`, and the
rows then agree one by one. -/
theorem fmodPat_eq_fmodExact (a b : Pat F) : fmodPat a b = fmodExact a b := by
  simp only [fmodPat, fmod_last_row_eq, fmodSpecial, fmodExact, isNaN, isInf, isZero, Bool.or_eq_true,
    decide_eq_true_eq, abs_val_lt_abs_val_iff]
  split_ifs <;> rfl

theorem units_pos_of_not_isZero {p : Pat F} (h : isZero p = false) : 0 < units p :=
  Nat.pos_of_ne_zero (mt units_eq_zero_iff.mp (of_decide_eq_false h))

variable (ha : isFinite a = true) (hb : isFinite b = true) (hnz : isZero b = false) (hle : units b ≤ units a)
include ha hb hnz hle

theorem fmodSpecial_eq_none : fmodSpecial a b = none := by
  have hza : isZero a = false := decide_eq_false fun h =>
    (units_pos_of_not_isZero hnz).not_ge (hle.trans_eq (units_eq_zero_iff.mpr h))
  simp only [isFinite, decide_eq_true_eq] at ha hb
  have hnan {p : Pat F} (hp : absOf p < (infPat F).toNat) : isNaN p = false := decide_eq_false hp.not_gt
  have hinf {p : Pat F} (hp : absOf p < (infPat F).toNat) : isInf p = false := decide_eq_false hp.ne
  simp [fmodSpecial, hnan ha, hnan hb, hinf ha, hinf hb, hza, hnz, hle]

/-- In the last row of R257 the machine's answer is the remainder, exactly. -/
theorem units_fmodPat : units (fmodPat a b) = units a % units b := by
  simp only [fmodPat, fmodSpecial_eq_none ha hb hnz hle]
  split_ifs with hrho
  · rw [hrho, units_eq_zero_iff, absOf_signedZero]
  · have hfinite : expf b < F.expSat := by
      rw [← absOf_lt_inf_iff, ← toNat_infPat]
      exact of_decide_eq_true hb
    exact units_rne_units_mod_units _ hfinite (units_pos_of_not_isZero hnz) hle hrho

end Fmod

/-- Settles O47: the machine's remainder is the exact one, by `fmodPat_eq_fmodExact`, and in the last row it is represented
without rounding, by `units_fmodPat`. -/
theorem fmodCommand : Obligations.FmodCommand := by
  unfold Obligations.FmodCommand
  refine ⟨fun F rd ra rb => packFields_of_three_registers _ _ _ _ _, fun F rd ra rb s hs => ?_,
    fun F a b ha hb hnz hle => ?_⟩ <;>
    rw [← fmodPat_eq_fmodExact]
  · exact serve_of_running hs _
  · have hunits : units b ≤ units a := by
      rw [← Nat.not_lt, ← abs_val_lt_abs_val_iff]
      exact hle.not_gt
    rw [abs_val, units_fmodPat ha hb hnz hunits, exactRemainder_eq_units]

end Sys2Proof.Machine

/-! SUPPORT. The family of 45_rem_pio2.md, first the regimes (R273 to R275), the levels of the medium regime (R284 to R287)
and the request of the large one (R290 to R293). -/

namespace Sys2Proof.Machine

/-! The high word of a pattern, and the regime it selects (R273). -/

/-- The high word is the upper part of the magnitude. -/
theorem highWord_eq_div (p : Pat .f64) : highWord p = absOf p / 2 ^ 32 := by
  rw [absOf_eq_mod, highWord, BitVec.extractLsb'_toNat, Nat.shiftRight_eq_div_pow]
  show p.toNat / 2 ^ 32 % 2 ^ 31 = p.toNat % 2 ^ 63 / 2 ^ 32
  omega

theorem highWord_lt_inf_iff {p : Pat .f64} : highWord p < 0x7FF00000 ↔ isFinite p = true := by
  have hinf : (infPat .f64).toNat = 0x7FF00000 * 2 ^ 32 := by decide
  rw [isFinite, decide_eq_true_eq, hinf, highWord_eq_div, Nat.div_lt_iff_lt_mul (by positivity)]

theorem inf_le_highWord_iff {p : Pat .f64} : 0x7FF00000 ≤ highWord p ↔ isNaN p = true ∨ isInf p = true := by
  have hfinite := highWord_lt_inf_iff (p := p)
  simp only [isFinite, isNaN, isInf, decide_eq_true_eq] at hfinite ⊢
  omega

section Regimes

variable {T : TrigParams} (f : LrrRequest → LrrResponse) {p : Pat .f64}

theorem remPio2_of_small (h : regimeOf T (highWord p) = .small) :
    remPio2 T f p = (reduceSmall p, none) := by simp only [remPio2, h]

theorem remPio2_of_nonFinite (h : regimeOf T (highWord p) = .nonFinite) :
    remPio2 T f p = (reduceNonFinite p, none) := by simp only [remPio2, h]

theorem remPio2_of_direct {k : ℕ} (h : regimeOf T (highWord p) = .direct k) :
    remPio2 T f p = (reduceDirect T k p, none) := by simp only [remPio2, h]

theorem remPio2_of_medium (h : regimeOf T (highWord p) = .medium) :
    remPio2 T f p = (reduceMedium T p, none) := by simp only [remPio2, h]

theorem remPio2_of_large (h : regimeOf T (highWord p) = .large) :
    remPio2 T f p = (applySign (signOf p) (f (lrrRequestOf p)), some (lrrRequestOf p)) := by
  simp only [remPio2, h]

theorem lrrCall_eq_none (h : regimeOf T (highWord p) ≠ .large) : (remPio2 T f p).2 = none := by
  unfold remPio2
  cases hreg : regimeOf T (highWord p) with
  | large => exact absurd hreg h
  | _ => rfl

end Regimes

theorem regimeOf_nonFinite (T : TrigParams) {ix : ℕ} (h : 0x7FF00000 ≤ ix) : regimeOf T ix = .nonFinite := if_pos h

theorem regimeOf_small {T : TrigParams} {ix : ℕ} (hle : ix ≤ T.quarter1) (hfinite : ix < 0x7FF00000) :
    regimeOf T ix = .small := by
  rw [regimeOf, if_neg hfinite.not_ge, if_pos hle]

/-- A case distinction whose first branch is not the answer answers with its second. -/
theorem of_ite_eq_of_ne {α : Type} {c : Prop} [Decidable c] {a b x : α} (h : (if c then a else b) = x) (hne : a ≠ x) :
    ¬ c ∧ b = x := by
  by_cases hc : c
  · exact absurd ((if_pos hc).symm.trans h) hne
  · exact ⟨hc, (if_neg hc).symm.trans h⟩

/-- The large regime is the last row of R273. -/
theorem bounds_of_regimeOf_large {T : TrigParams} {ix : ℕ} (h : regimeOf T ix = .large) :
    T.largeMin ≤ ix ∧ ix < 0x7FF00000 := by
  unfold regimeOf at h
  obtain ⟨hfinite, h⟩ := of_ite_eq_of_ne h nofun
  iterate 8 obtain ⟨-, h⟩ := of_ite_eq_of_ne h nofun
  obtain ⟨hlarge, -⟩ := of_ite_eq_of_ne h nofun
  exact ⟨Nat.not_lt.mp hlarge, Nat.not_le.mp hfinite⟩

theorem regimeOf_eq_large_iff {ix : ℕ} :
    regimeOf trigDefaults ix = .large ↔ 0x413921FB ≤ ix ∧ ix < 0x7FF00000 :=
  ⟨bounds_of_regimeOf_large, fun h => regimeOf_large _ _ trigDefaults_rise h.1 h.2⟩

/-- Settles O52: the first two rows of R273 select the regimes of R274 and R275. -/
theorem rempioSmallAndNonFinite : Obligations.RempioSmallAndNonFinite := by
  unfold Obligations.RempioSmallAndNonFinite
  intro T f p
  have hregime := inf_le_highWord_iff (p := p)
  refine ⟨fun hle hfinite => remPio2_of_small f (regimeOf_small hle hfinite), fun hle => ?_, fun hnan => ?_,
    fun hinf => ?_, hregime⟩
  · exact remPio2_of_small f (regimeOf_small hle (lt_of_le_of_lt hle (by decide)))
  · rw [remPio2_of_nonFinite f (regimeOf_nonFinite T (hregime.mpr (.inl hnan))), reduceNonFinite, if_pos hnan]
    rfl
  · have hnan : ¬ isNaN p = true := by
      simp only [isNaN, isInf, decide_eq_true_eq] at hinf ⊢
      omega
    rw [remPio2_of_nonFinite f (regimeOf_nonFinite T (hregime.mpr (.inr hinf))), reduceNonFinite, if_neg hnan]
    rfl

/-! The medium regime (R280 to R287). -/

/-- Rows 3, 6, 8 and 10 of R273 with the default thresholds. -/
def InMediumRows (ix : ℕ) : Prop :=
  (0x401C463B < ix ∧ ix < 0x413921FB) ∨ ix ∈ [0x3FF921FB, 0x400921FB, 0x4012D97C, 0x401921FB]

theorem regimeOf_of_inMediumRows {ix : ℕ} (h : InMediumRows ix) : regimeOf trigDefaults ix = .medium := by
  rcases h with ⟨hlo, hhi⟩ | hmem
  · exact regimeOf_medium _ _ trigDefaults_rise hlo hhi (hhi.trans (by decide))
  · simp only [List.mem_cons, List.not_mem_nil, or_false] at hmem
    rcases hmem with rfl | rfl | rfl | rfl <;> decide

/-- The reduction that a level gives (R287). -/
def Level.reduction (n : BitVec 32) (l : Level) : Reduction := { n := n, y0 := l.y0, y1 := fsub64 (fsub64 l.r l.y0) l.w }

theorem reduceMedium_eq (T : TrigParams) (p : Pat .f64) :
    reduceMedium T p =
      (lastLevel T p (quadrant T p)).reduction (BitVec.ofInt 32 (intOfF64 (quadrant T p))) := rfl

theorem cancelled_highWord_iff (p : Pat .f64) (gap : ℕ) (y0 : Pat .f64) :
    cancelled (highWord p / 2 ^ 20) gap y0 = true ↔ (gap : ℤ) < (highWord p / 2 ^ 20 : ℤ) - expf y0 := by
  rw [cancelled_iff, Int.natCast_div, Nat.cast_pow, Nat.cast_ofNat]

section Levels

variable {T : TrigParams} {p fn : Pat .f64}

theorem lastLevel_eq_level1 (h : (highWord p / 2 ^ 20 : ℤ) - expf (level1 T p fn).y0 ≤ 16) :
    lastLevel T p fn = level1 T p fn := by
  have h1 := cancelled_highWord_iff p 16 (level1 T p fn).y0
  rcases levelsEngaged_cases T p fn with ⟨-, hl, -⟩ | ⟨-, -, hc, -⟩ | ⟨-, -, hc, -⟩
  · exact hl
  · exact absurd (h1.mp hc) (not_lt.mpr h)
  · exact absurd (h1.mp hc) (not_lt.mpr h)

theorem lastLevel_eq_level2 (h : 16 < (highWord p / 2 ^ 20 : ℤ) - expf (level1 T p fn).y0)
    (h' : (highWord p / 2 ^ 20 : ℤ) - expf (level2 T p fn).y0 ≤ 49) : lastLevel T p fn = level2 T p fn := by
  have h1 := (cancelled_highWord_iff p 16 (level1 T p fn).y0).mpr h
  have h2 := cancelled_highWord_iff p 49 (level2 T p fn).y0
  rcases levelsEngaged_cases T p fn with ⟨-, -, hc⟩ | ⟨-, hl, -, -⟩ | ⟨-, -, -, hc⟩
  · exact absurd h1 (by rw [hc]; decide)
  · exact hl
  · exact absurd (h2.mp hc) (not_lt.mpr h')

theorem lastLevel_eq_level3 (h : 16 < (highWord p / 2 ^ 20 : ℤ) - expf (level1 T p fn).y0)
    (h' : 49 < (highWord p / 2 ^ 20 : ℤ) - expf (level2 T p fn).y0) : lastLevel T p fn = level3 T p fn := by
  have h1 := (cancelled_highWord_iff p 16 (level1 T p fn).y0).mpr h
  have h2 := (cancelled_highWord_iff p 49 (level2 T p fn).y0).mpr h'
  rcases levelsEngaged_cases T p fn with ⟨-, -, hc⟩ | ⟨-, -, -, hc⟩ | ⟨-, hl, -, -⟩
  · exact absurd h1 (by rw [hc]; decide)
  · exact absurd h2 (by rw [hc]; decide)
  · exact hl

end Levels

/-- Settles O58: the test on the exponents selects the level, whose working values are R284 to R286 with the default
constants. -/
theorem mediumRegimeLevels : Obligations.MediumRegimeLevels := by
  unfold Obligations.MediumRegimeLevels
  intro f p ix fn n r1 w1 y1 v2 r2 w2 y2 v3 r3 w3 y3 hrow
  have e1 : level1 trigDefaults p fn = ⟨r1, w1, y1⟩ := rfl
  have e2 : level2 trigDefaults p fn = ⟨r2, w2, y2⟩ := by rw [level2, e1]; rfl
  have e3 : level3 trigDefaults p fn = ⟨r3, w3, y3⟩ := by rw [level3, e2]; rfl
  have hresult : remPio2 trigDefaults f p = ((lastLevel trigDefaults p fn).reduction n, none) := by
    rw [remPio2_of_medium f (regimeOf_of_inMediumRows hrow), reduceMedium_eq, quadrant_trigDefaults]
  refine ⟨fun hgap => ?_, fun hgap hgap' => ?_, fun hgap hgap' => ?_⟩
  · rw [hresult, lastLevel_eq_level1 (by rw [e1]; exact hgap), e1, Level.reduction]
  · rw [hresult, lastLevel_eq_level2 (by rw [e1]; exact hgap) (by rw [e2]; exact hgap'), e2, Level.reduction]
  · rw [hresult, lastLevel_eq_level3 (by rw [e1]; exact hgap) (by rw [e2]; exact hgap'), e3, Level.reduction]

/-! The large regime (R290 to R293). -/

theorem signMask_f64 : signMask .f64 = 0x8000000000000000 := rfl

/-- Settles O60: the request is put on the port in the last row of R273 only, and the answer's sign is R293. -/
theorem lrrCallAndSign : Obligations.LrrCallAndSign := by
  unfold Obligations.LrrCallAndSign
  intro f p
  refine ⟨?_, fun hlo hhi => ?_⟩
  · split_ifs with h
    · rw [remPio2_of_large f (regimeOf_eq_large_iff.mpr h)]
    · exact lrrCall_eq_none f (mt regimeOf_eq_large_iff.mp h)
  · rw [remPio2_of_large f (regimeOf_eq_large_iff.mpr ⟨hlo, hhi⟩)]
    refine ⟨fun hs => ?_, fun hs => ?_⟩
    · simp [applySign, hs]
    · simp [applySign, hs, negate64, signMask_f64]

end Sys2Proof.Machine

namespace Sys2Proof.Machine

/-! The digits of a large operand (R290, R291). -/

theorem highWord_div_eq_expf (p : Pat .f64) : highWord p / 2 ^ 20 = expf p := by
  rw [highWord_eq_div, Nat.div_div_eq_div_mul, ← pow_add, ← absOf_div_two_pow_sigBits]

theorem abs_val_of_expf_pos {p : Pat .f64} (h : 0 < expf p) :
    |val p| = (fullSignificand p : ℚ) * 2 ^ ((expf p : ℤ) - 1075) := by
  have hexp : (2 : ℚ) ^ ((expf p : ℤ) - 1075) = 2 ^ (expf p - 1) * unitValue .f64 := by
    rw [unitValue, ← zpow_natCast, ← zpow_add₀ two_ne_zero]
    congr 1
    show (expf p : ℤ) - 1075 = (expf p - 1 : ℕ) + (1 - 1023 - 52)
    omega
  rw [abs_val, units_of_expf_pos h, hexp, Nat.cast_mul, Nat.cast_pow, Nat.cast_ofNat, mul_assoc]
  rfl

/-- The digits of R290 and R291 are those of M in base 2^24, after the first 24 bits. -/
theorem fullSignificand_eq_digits (m : ℕ) : m * 2 ^ 19 = (m / 2 ^ 29 * 2 ^ 24 + m / 2 ^ 5 % 2 ^ 24) * 2 ^ 24 + m % 2 ^ 5 * 2 ^ 19 := by
  omega

/-- The digits a count leaves out are zero. -/
theorem getD_eq_zero_of_digitCount_le {tx0 tx1 tx2 i : ℕ} (h : digitCount tx1 tx2 ≤ i) : [tx0, tx1, tx2].getD i 0 = 0 := by
  unfold digitCount at h
  match i with
  | 0 => split_ifs at h <;> omega
  | 1 => split_ifs at h with h2 h1 <;> simp_all
  | 2 => split_ifs at h with h2 h1 <;> simp_all
  | i + 3 => simp

theorem digitCount_bounds (tx1 tx2 : ℕ) : 1 ≤ digitCount tx1 tx2 ∧ digitCount tx1 tx2 ≤ 3 := by
  unfold digitCount
  split_ifs <;> decide

/-- The last digit counted is not zero, but for a first digit that stands alone. -/
theorem digitCount_eq_one_or (tx0 tx1 tx2 : ℕ) :
    digitCount tx1 tx2 = 1 ∨ [tx0, tx1, tx2].getD (digitCount tx1 tx2 - 1) 0 ≠ 0 := by
  unfold digitCount
  split_ifs with h2 h1
  · exact .inr h2
  · exact .inr h1
  · exact .inl rfl

/-- Dropping the trailing zero digits leaves a sum over the digits. -/
theorem sum_range_digitCount (tx0 tx1 tx2 : ℕ) (w : ℕ → ℚ) :
    ((List.range (digitCount tx1 tx2)).map fun i => ([tx0, tx1, tx2].getD i 0 : ℚ) * w i).sum =
      tx0 * w 0 + tx1 * w 1 + tx2 * w 2 := by
  unfold digitCount
  split_ifs with h2 h1
  · simp [List.range_succ, add_assoc]
  · simp [List.range_succ, not_not.mp h2]
  · simp [List.range_succ, not_not.mp h2, not_not.mp h1]

section Request

variable {p : Pat .f64}

theorem fullSignificand_lt (p : Pat .f64) : fullSignificand p < 2 ^ 53 := by
  have hsig : sig p < 2 ^ 52 := sig_lt p
  rw [fullSignificand]
  omega

theorem lrrRequestOf_nx (p : Pat .f64) : (lrrRequestOf p).nx =
    digitCount (fullSignificand p / 2 ^ 5 % 2 ^ 24) (fullSignificand p % 2 ^ 5 * 2 ^ 19) := rfl

/-- Each digit fits its 24 bits. -/
theorem lrrRequestOf_digits (p : Pat .f64) : (lrrRequestOf p).tx0.toNat = fullSignificand p / 2 ^ 29 ∧
    (lrrRequestOf p).tx1.toNat = fullSignificand p / 2 ^ 5 % 2 ^ 24 ∧
    (lrrRequestOf p).tx2.toNat = fullSignificand p % 2 ^ 5 * 2 ^ 19 := by
  have hlt := fullSignificand_lt p
  simp only [lrrRequestOf, BitVec.toNat_ofNat]
  omega

/-- The exponent offset of a finite operand fits its 12 bits. -/
theorem toInt_lrrRequestOf_e0 (h : highWord p < 0x7FF00000) : (lrrRequestOf p).e0.toInt = (expf p : ℤ) - 1046 := by
  have hexp := highWord_div_eq_expf p
  simp only [lrrRequestOf, hexp, BitVec.toInt_ofInt]
  exact Int.bmod_eq_of_le (by omega) (by omega)

end Request

/-- Settles O59: a large operand is normal, and its digits are its significand in base 2^24. -/
theorem lrrRequestDigits : Obligations.LrrRequestDigits := by
  unfold Obligations.LrrRequestDigits
  intro p hlo hhi
  obtain ⟨h0, h1, h2⟩ := lrrRequestOf_digits p
  have hexp := highWord_div_eq_expf p
  have he0 := toInt_lrrRequestOf_e0 hhi
  have hm := fullSignificand_lt p
  have hmin : 2 ^ 52 ≤ fullSignificand p := Nat.le_add_right _ _
  have hdigits := fullSignificand_eq_digits (fullSignificand p)
  have hval := abs_val_of_expf_pos (p := p) (by omega)
  have hfull : 2 ^ 52 + sig p = fullSignificand p := rfl
  simp only [hfull, h0, h1, h2, lrrRequestOf_nx, he0, hexp, sum_range_digitCount, hval]
  clear hval h0 h1 h2 hfull
  generalize fullSignificand p = m at *
  have hdigits' : (m : ℚ) * 2 ^ 19 = ((m / 2 ^ 29 : ℕ) * 2 ^ 24 + (m / 2 ^ 5 % 2 ^ 24 : ℕ)) * 2 ^ 24 +
    (m % 2 ^ 5 * 2 ^ 19 : ℕ) := by exact_mod_cast hdigits
  refine ⟨trivial, by omega, by linarith, (digitCount_bounds _ _).1, (digitCount_bounds _ _).2,
    digitCount_eq_one_or _ _ _, fun i hi => getD_eq_zero_of_digitCount_le hi, trivial, by omega, by omega, ?_⟩
  have hweight (i : ℕ) : (2 : ℚ) ^ ((expf p : ℤ) - 1046 - 24 * i) = 2 ^ ((expf p : ℤ) - 1075) * 2 ^ 29 / 2 ^ (24 * i) := by
    rw [← zpow_natCast, ← zpow_natCast, ← zpow_add₀ two_ne_zero, ← zpow_sub₀ two_ne_zero]
    congr 1
    push_cast
    ring
  simp only [hweight]
  linear_combination 2 ^ ((expf p : ℤ) - 1075) / 2 ^ 19 * hdigits'

end Sys2Proof.Machine

/-! SUPPORT. The number π to 168 bits, by Machin's formula, for the constants and thresholds of R272 and R273. -/

namespace Sys2Proof

/-- The magnitude of a term of the series of arctan(1/k). -/
def arctanInvTerm {K : Type} [DivisionRing K] (k i : ℕ) : K := 1 / ((2 * i + 1) * k ^ (2 * i + 1))

/-- The first n terms of the series of arctan(1/k). -/
def arctanInvSum (k n : ℕ) : ℚ := ∑ i ∈ Finset.range n, (-1) ^ i * arctanInvTerm k i

theorem antitone_arctanInvTerm {k : ℕ} (hk : 1 < k) : Antitone fun i => (arctanInvTerm k i : ℝ) := by
  have hk' : (1 : ℝ) ≤ k := by exact_mod_cast hk.le
  intro i j hij
  simp only [arctanInvTerm]
  gcongr

theorem hasSum_arctan_inv {k : ℕ} (hk : 1 < k) :
    HasSum (fun i => (-1) ^ i * (arctanInvTerm k i : ℝ)) (Real.arctan (k : ℝ)⁻¹) := by
  have hk' : (1 : ℝ) < k := by exact_mod_cast hk
  have hlt : ‖(k : ℝ)⁻¹‖ < 1 := by
    rw [norm_inv, Real.norm_natCast]
    exact inv_lt_one_of_one_lt₀ hk'
  convert Real.hasSum_arctan hlt using 2 with i
  rw [arctanInvTerm, inv_pow]
  push_cast
  field_simp

/-- A partial sum of the series is off by at most the first term left out. -/
theorem abs_arctan_inv_sub_le {k : ℕ} (hk : 1 < k) (n : ℕ) :
    |Real.arctan (k : ℝ)⁻¹ - arctanInvSum k n| ≤ arctanInvTerm k n := by
  have hsum : ((arctanInvSum k n : ℚ) : ℝ) = ∑ i ∈ Finset.range n, (-1) ^ i * (arctanInvTerm k i : ℝ) := by
    simp [arctanInvSum, arctanInvTerm]
  have hseries := hasSum_arctan_inv hk
  have habs : Summable fun i => (arctanInvTerm k i : ℝ) := by
    refine hseries.summable.abs.congr fun i => ?_
    have hpos : (0 : ℝ) ≤ arctanInvTerm k i := by unfold arctanInvTerm; positivity
    rw [abs_mul, abs_neg_one_pow, one_mul, abs_of_nonneg hpos]
  rw [hsum, ← hseries.tsum_eq]
  exact alternating_series_error_bound _ (antitone_arctanInvTerm hk) habs n

/-- Machin's formula with partial sums of 36 and 11 terms. -/
def machinSum : ℚ := 16 * arctanInvSum 5 36 - 4 * arctanInvSum 239 11

/-- π from below, to 168 bits. -/
def piLo : ℚ := 0x3243f6a8885a308d313198a2e03707344a409382229 / 2 ^ 168

/-- π from above, to 168 bits. -/
def piHi : ℚ := 0x3243f6a8885a308d313198a2e03707344a40938222a / 2 ^ 168

theorem abs_pi_sub_machinSum_le :
    |Real.pi - machinSum| ≤ ((16 * arctanInvTerm 5 36 + 4 * arctanInvTerm 239 11 : ℚ) : ℝ) := by
  have h5 := abs_arctan_inv_sub_le (k := 5) (by decide) 36
  have h239 := abs_arctan_inv_sub_le (k := 239) (by decide) 11
  have hmachin := Real.four_mul_arctan_inv_5_sub_arctan_inv_239
  rw [abs_le] at h5 h239 ⊢
  simp only [machinSum, arctanInvTerm] at h5 h239 ⊢
  push_cast at h5 h239 ⊢
  constructor <;> linarith

theorem piLo_le_machinSum : piLo + (16 * arctanInvTerm 5 36 + 4 * arctanInvTerm 239 11) ≤ machinSum := by decide +kernel

theorem machinSum_le_piHi : machinSum + (16 * arctanInvTerm 5 36 + 4 * arctanInvTerm 239 11) ≤ piHi := by decide +kernel

theorem piLo_le_pi : (piLo : ℝ) ≤ Real.pi := by
  have hlo : ((piLo + (16 * arctanInvTerm 5 36 + 4 * arctanInvTerm 239 11) : ℚ) : ℝ) ≤ (machinSum : ℝ) := by
    exact_mod_cast piLo_le_machinSum
  have herr := (abs_le.mp abs_pi_sub_machinSum_le).1
  push_cast at hlo herr
  linarith

theorem pi_le_piHi : Real.pi ≤ (piHi : ℝ) := by
  have hhi : ((machinSum + (16 * arctanInvTerm 5 36 + 4 * arctanInvTerm 239 11) : ℚ) : ℝ) ≤ (piHi : ℝ) := by
    exact_mod_cast machinSum_le_piHi
  have herr := (abs_le.mp abs_pi_sub_machinSum_le).2
  push_cast at hhi herr
  linarith

end Sys2Proof

/-! SUPPORT. The default constants and thresholds as functions of π (R272, R273): each inequality on π is one on its rational
bounds. -/

namespace Sys2Proof.Machine

/-- Every real between two rationals is p when rounded to 53 bits. -/
abbrev RoundsBracket (p : Pat .f64) (lo hi : ℚ) : Prop :=
  signOf p = false ∧ 0 < expf p ∧ expf p < 2047 ∧
    (2 : ℚ) ^ ((expf p : ℤ) - 1023) ≤ lo ∧ hi < (2 : ℚ) ^ ((expf p : ℤ) - 1022) ∧
    val p - (2 : ℚ) ^ ((expf p : ℤ) - 1023 - 53) ≤ lo ∧ hi ≤ val p + (2 : ℚ) ^ ((expf p : ℤ) - 1023 - 53)

theorem ratCast_two_zpow (k : ℤ) : (((2 : ℚ) ^ k : ℚ) : ℝ) = 2 ^ k := by
  rw [Rat.cast_zpow, Rat.cast_ofNat]

theorem RoundsBracket.roundedTo53 {p : Pat .f64} {lo hi : ℚ} {r : ℝ} (h : RoundsBracket p lo hi) (hlo : (lo : ℝ) ≤ r)
    (hhi : r ≤ (hi : ℝ)) : RoundedTo53 p r := by
  obtain ⟨hsign, hpos, hsat, hbinade, hnext, hbelow, habove⟩ := h
  have hbelow' := Rat.cast_le (K := ℝ).mpr hbelow
  have habove' := Rat.cast_le (K := ℝ).mpr habove
  rw [Rat.cast_sub] at hbelow'
  rw [Rat.cast_add] at habove'
  simp only [RoundedTo53, ← ratCast_two_zpow]
  exact ⟨hsign, hpos, hsat, (Rat.cast_le.mpr hbinade).trans hlo, hhi.trans_lt (Rat.cast_lt.mpr hnext),
    abs_le.mpr ⟨by linarith, by linarith⟩⟩

/-- A multiple of π less a rational, rounded to 53 bits. -/
theorem roundedTo53_mul_pi_sub {p : Pat .f64} {a c : ℚ} (ha : 0 ≤ a)
    (h : RoundsBracket p (a * piLo - c) (a * piHi - c)) : RoundedTo53 p (a * Real.pi - c) := by
  have ha' : (0 : ℝ) ≤ a := by exact_mod_cast ha
  refine h.roundedTo53 ?_ ?_ <;> push_cast
  · exact sub_le_sub_right (mul_le_mul_of_nonneg_left piLo_le_pi ha') _
  · exact sub_le_sub_right (mul_le_mul_of_nonneg_left pi_le_piHi ha') _

/-- A multiple of π rounded down to an integer. -/
theorem floor_mul_pi {a : ℚ} {m : ℤ} (ha : 0 ≤ a) (hlo : (m : ℚ) ≤ a * piLo) (hhi : a * piHi < m + 1) :
    ⌊(a : ℝ) * Real.pi⌋ = m := by
  have ha' : (0 : ℝ) ≤ a := by exact_mod_cast ha
  have hlo' : (m : ℝ) ≤ a * piLo := by exact_mod_cast hlo
  have hhi' : (a : ℝ) * piHi < m + 1 := by exact_mod_cast hhi
  exact Int.floor_eq_iff.mpr ⟨hlo'.trans (mul_le_mul_of_nonneg_left piLo_le_pi ha'),
    (mul_le_mul_of_nonneg_left pi_le_piHi ha').trans_lt hhi'⟩

/-- A sum of limbs is the first bits of π/2 (R272). -/
theorem eq_floor_half_pi {c : ℚ} {k : ℕ} {m : ℤ} (hc : c = m / 2 ^ k) (hlo : (m : ℚ) ≤ 2 ^ k / 2 * piLo)
    (hhi : 2 ^ k / 2 * piHi < m + 1) : (c : ℝ) = ⌊Real.pi / 2 * 2 ^ k⌋ / 2 ^ k := by
  have hfloor := floor_mul_pi (by positivity) hlo hhi
  have hmul : Real.pi / 2 * 2 ^ k = ((2 ^ k / 2 : ℚ) : ℝ) * Real.pi := by
    push_cast
    ring
  rw [hmul, hfloor, hc]
  push_cast
  rfl

/-- What is left of π/2 after a sum of limbs, rounded to 53 bits. -/
theorem roundedTo53_half_pi_sub {p : Pat .f64} {c : ℚ} (h : RoundsBracket p (1 / 2 * piLo - c) (1 / 2 * piHi - c)) :
    RoundedTo53 p (Real.pi / 2 - c) := by
  have hr := roundedTo53_mul_pi_sub (by norm_num) h
  have hhalf : ((1 / 2 : ℚ) : ℝ) * Real.pi = Real.pi / 2 := by
    push_cast
    ring
  rwa [hhalf] at hr

theorem roundedTo53_two_div_pi : RoundedTo53 0x3FE45F306DC9C883 (2 / Real.pi) := by
  have hlo : (0 : ℝ) < piLo := by exact_mod_cast (by decide +kernel : 0 < piLo)
  have hcheck : RoundsBracket 0x3FE45F306DC9C883 (2 / piHi) (2 / piLo) := by decide +kernel
  refine hcheck.roundedTo53 ?_ ?_ <;> push_cast
  · exact div_le_div_of_nonneg_left zero_le_two Real.pi_pos pi_le_piHi
  · exact div_le_div_of_nonneg_left zero_le_two hlo piLo_le_pi

/-- The default constants are those of R272. -/
theorem constantsOfPi_trigDefaults : ConstantsOfPi trigDefaults := by
  have h12 : val (F := .f64) 0x3FF921FB54400000 + val (F := .f64) 0x3DD0B4611A600000 =
      (0x3243f6a8885a308d3 : ℤ) / 2 ^ 65 := by decide +kernel
  have h123 : val (F := .f64) 0x3FF921FB54400000 + val (F := .f64) 0x3DD0B4611A600000 +
      val (F := .f64) 0x3BA3198A2E000000 = (0x6487ed5110b4611a62633145c : ℤ) / 2 ^ 98 := by decide +kernel
  simp only [ConstantsOfPi, trigDefaults_pio2_1, trigDefaults_pio2_1t, trigDefaults_pio2_2, trigDefaults_pio2_2t,
    trigDefaults_pio2_3, trigDefaults_pio2_3t]
  refine ⟨roundedTo53_two_div_pi, eq_floor_half_pi (m := 0x1921fb544) (by decide +kernel) (by decide +kernel) (by decide +kernel),
    roundedTo53_half_pi_sub (by decide +kernel), ?_, ?_, ?_, ?_, (by decide +kernel)⟩
  · exact_mod_cast eq_floor_half_pi h12 (by decide +kernel) (by decide +kernel)
  · rw [sub_sub]
    exact_mod_cast roundedTo53_half_pi_sub (c := _ + _) (by decide +kernel)
  · exact_mod_cast eq_floor_half_pi h123 (by decide +kernel) (by decide +kernel)
  · rw [sub_sub, sub_sub]
    exact_mod_cast roundedTo53_half_pi_sub (c := _ + _) (by decide +kernel)

/-- The high word of the binary64 nearest a multiple of π. -/
theorem highWordOf_mul_pi (a : ℚ) (p : Pat .f64) {h : ℕ} {r : ℝ} (ha : 0 ≤ a) (hr : r = a * Real.pi) (hword : h = highWord p)
    (hcheck : RoundsBracket p (a * piLo - 0) (a * piHi - 0)) : HighWordOf h r := by
  have hround := roundedTo53_mul_pi_sub ha hcheck
  rw [Rat.cast_zero, sub_zero, ← hr] at hround
  exact ⟨p, hround, hword⟩

/-- The default thresholds are those of R273. -/
theorem thresholdsOfPi_trigDefaults : ThresholdsOfPi trigDefaults := by
  have quarters (k : ℕ) {h : ℕ} (p : Pat .f64) (hword : h = highWord p)
      (hcheck : RoundsBracket p (k / 4 * piLo - 0) (k / 4 * piHi - 0)) : HighWordOf h (k * (Real.pi / 4)) :=
    highWordOf_mul_pi (k / 4) p (by positivity) (by push_cast; ring) hword hcheck
  refine ⟨?_, quarters 3 0x4002D97C7F3321D2 (by decide) (by decide +kernel),
    quarters 5 0x400F6A7A2955385E (by decide) (by decide +kernel),
    quarters 6 0x4012D97C7F3321D2 (by decide) (by decide +kernel),
    ⟨0x4015FDBB, rfl, quarters 7 0x4015FDBBE9BBA775 (by decide) (by decide +kernel)⟩,
    quarters 8 0x401921FB54442D18 (by decide) (by decide +kernel),
    ⟨0x401C463A, rfl, quarters 9 0x401C463ABECCB2BB (by decide) (by decide +kernel)⟩, ?_⟩
  · exact highWordOf_mul_pi (1 / 4) 0x3FE921FB54442D18 (by norm_num) (by push_cast; ring) (by decide) (by decide +kernel)
  · exact highWordOf_mul_pi (2 ^ 19) 0x413921FB54442D18 (by norm_num) (by push_cast; ring) (by decide) (by decide +kernel)

end Sys2Proof.Machine

/-! SUPPORT. Rounding to binary64 as a relation on exact values (R112, R118): the result is a value of the format and none is
nearer. What the error analysis of the argument reduction needs of rounding follows from this alone. -/

namespace Sys2Proof

/-! Multiples of a power of two. -/

/-- q is a whole number of 2^g. -/
def OnGrid (g : ℤ) (q : ℚ) : Prop := ∃ m : ℤ, q = m * 2 ^ g

namespace OnGrid

variable {g g' : ℤ} {a b q : ℚ}

theorem add (ha : OnGrid g a) (hb : OnGrid g b) : OnGrid g (a + b) := by
  obtain ⟨m, rfl⟩ := ha
  obtain ⟨n, rfl⟩ := hb
  exact ⟨m + n, by push_cast; ring⟩

theorem neg (ha : OnGrid g a) : OnGrid g (-a) := by
  obtain ⟨m, rfl⟩ := ha
  exact ⟨-m, by push_cast; ring⟩

theorem sub (ha : OnGrid g a) (hb : OnGrid g b) : OnGrid g (a - b) := sub_eq_add_neg a b ▸ ha.add hb.neg

theorem intCast_mul (n : ℤ) (ha : OnGrid g a) : OnGrid g (n * a) := by
  obtain ⟨m, rfl⟩ := ha
  exact ⟨n * m, by push_cast; ring⟩

theorem two_zpow (h : g ≤ g') : OnGrid g (2 ^ g') := by
  obtain ⟨k, rfl⟩ := Int.le.dest h
  exact ⟨2 ^ k, by rw [zpow_add₀ two_ne_zero, zpow_natCast, mul_comm]; push_cast; rfl⟩

theorem mono (h : g ≤ g') (ha : OnGrid g' a) : OnGrid g a := by
  obtain ⟨m, rfl⟩ := ha
  exact (two_zpow h).intCast_mul m

theorem intCast (n : ℤ) : OnGrid 0 n := ⟨n, by simp⟩

theorem abs (ha : OnGrid g a) : OnGrid g |a| := by
  obtain h | h := abs_choice a
  · exact h.symm ▸ ha
  · exact h.symm ▸ ha.neg

/-- A multiple below another is a whole step below. -/
theorem add_le_of_lt (ha : OnGrid g a) (hb : OnGrid g b) (h : a < b) : a + 2 ^ g ≤ b := by
  obtain ⟨m, rfl⟩ := ha
  obtain ⟨n, rfl⟩ := hb
  have hpos : (0 : ℚ) < 2 ^ g := by positivity
  have hmn : m < n := by exact_mod_cast lt_of_mul_lt_mul_right h hpos.le
  have hstep : ((m + 1 : ℤ) : ℚ) ≤ n := by exact_mod_cast hmn
  calc (m : ℚ) * 2 ^ g + 2 ^ g = ((m + 1 : ℤ) : ℚ) * 2 ^ g := by push_cast; ring
    _ ≤ n * 2 ^ g := mul_le_mul_of_nonneg_right hstep hpos.le

/-- Two different multiples are a whole step apart. -/
theorem eq_of_abs_sub_lt (ha : OnGrid g a) (hb : OnGrid g b) (h : |a - b| < 2 ^ g) : a = b := by
  obtain ⟨m, hm⟩ := ha.sub hb
  have hpos : (0 : ℚ) < 2 ^ g := by positivity
  rw [hm, abs_mul, abs_of_pos hpos, mul_lt_iff_lt_one_left hpos] at h
  have hzero : m = 0 := Int.abs_lt_one_iff.mp (by exact_mod_cast h)
  rw [hzero, Int.cast_zero, zero_mul] at hm
  exact sub_eq_zero.mp hm

/-- A multiple within half a step of any number. -/
theorem exists_abs_sub_le (g : ℤ) (q : ℚ) : ∃ c, OnGrid g c ∧ |c - q| ≤ 2 ^ (g - 1) := by
  have hpos : (0 : ℚ) < 2 ^ g := by positivity
  refine ⟨round (q / 2 ^ g) * 2 ^ g, ⟨_, rfl⟩, ?_⟩
  have hround := abs_sub_round (q / 2 ^ g)
  have hscale : (round (q / 2 ^ g) : ℚ) * 2 ^ g - q = -(q / 2 ^ g - round (q / 2 ^ g)) * 2 ^ g := by
    field_simp
    ring
  rw [hscale, abs_mul, abs_neg, abs_of_pos hpos, zpow_sub_one₀ two_ne_zero, mul_comm]
  gcongr
  simpa using hround

end OnGrid

/-! The values of the format. -/

/-- q has at most 53 bits above a power of two not below the smallest subnormal: a value of binary64, were its exponent not
bounded above (R105). -/
def IsBinary64 (q : ℚ) : Prop := ∃ g : ℤ, -1074 ≤ g ∧ OnGrid g q ∧ |q| < 2 ^ (g + 53)

theorem two_zpow_add_one (g : ℤ) : (2 : ℚ) ^ (g + 1) = 2 * 2 ^ g := by rw [zpow_add_one₀ two_ne_zero, mul_comm]

theorem two_zpow_le {g g' : ℤ} (h : g ≤ g') : (2 : ℚ) ^ g ≤ 2 ^ g' := zpow_le_zpow_right₀ one_le_two h

theorem unitValue_f64 : unitValue .f64 = 2 ^ (-1074 : ℤ) := rfl

namespace IsBinary64

variable {g : ℤ} {q : ℚ}

theorem two_zpow (hg : -1074 ≤ g) : IsBinary64 (2 ^ g) :=
  ⟨g, hg, OnGrid.two_zpow le_rfl, by rw [abs_of_pos (by positivity)]; exact zpow_lt_zpow_right₀ one_lt_two (by omega)⟩

theorem neg (h : IsBinary64 q) : IsBinary64 (-q) := by
  obtain ⟨g, hg, hgrid, hlt⟩ := h
  exact ⟨g, hg, hgrid.neg, by rwa [abs_neg]⟩

/-- The bound of 53 bits may be reached, since then the last bit is free. -/
theorem of_le (hg : -1074 ≤ g) (hgrid : OnGrid g q) (hle : |q| ≤ 2 ^ (g + 53)) : IsBinary64 q := by
  obtain hlt | heq := hle.lt_or_eq
  · exact ⟨g, hg, hgrid, hlt⟩
  · have hpow : IsBinary64 (2 ^ (g + 53)) := two_zpow (by omega)
    obtain h | h := eq_or_eq_neg_of_abs_eq heq
    · exact h ▸ hpow
    · exact h ▸ hpow.neg

theorem intCast {n : ℤ} (h : |n| ≤ 2 ^ 53) : IsBinary64 n :=
  of_le (g := 0) (by decide) (OnGrid.intCast n) (by exact_mod_cast h)

/-- A value as large as 53 bits above 2^g is a multiple of 2^g. -/
theorem onGrid_of_le (hq : IsBinary64 q) (hle : 2 ^ (g + 52) ≤ |q|) : OnGrid g q := by
  obtain ⟨k, -, hgrid, hlt⟩ := hq
  have hexp : g + 52 < k + 53 := (zpow_lt_zpow_iff_right₀ one_lt_two).mp (hle.trans_lt hlt)
  exact hgrid.mono (by omega)

/-- The exponent of the unit in the last place of a pattern is `expf − 1`, counted from the smallest subnormal. -/
theorem val (p : Pat .f64) : IsBinary64 (Sys2Proof.val p) := by
  have hunit : (2 : ℚ) ^ (((expf p - 1 : ℕ) : ℤ) - 1074) = 2 ^ (expf p - 1) * unitValue .f64 := by
    rw [unitValue_f64, ← zpow_natCast, ← zpow_add₀ two_ne_zero, sub_eq_add_neg]
  refine ⟨(expf p - 1 : ℕ) - 1074, by omega, ?_, ?_⟩
  · obtain ⟨m, hm⟩ := two_pow_dvd_units p
    have habs : OnGrid ((expf p - 1 : ℕ) - 1074) |Sys2Proof.val p| := ⟨m, by rw [abs_val, hm, hunit]; push_cast; ring⟩
    obtain h | h := abs_choice (Sys2Proof.val p)
    · exact h ▸ habs
    · exact neg_neg (Sys2Proof.val p) ▸ (h ▸ habs).neg
  · have hlt : (units p : ℚ) < 2 ^ (52 + expf p) := by exact_mod_cast units_lt_two_pow (p := p)
    calc |Sys2Proof.val p| = units p * unitValue .f64 := abs_val
      _ < 2 ^ (52 + expf p) * unitValue .f64 := mul_lt_mul_of_pos_right hlt (unitValue_pos .f64)
      _ = 2 ^ ((52 + expf p : ℕ) + -1074 : ℤ) := by rw [unitValue_f64, ← zpow_natCast, ← zpow_add₀ two_ne_zero]
      _ ≤ 2 ^ (((expf p - 1 : ℕ) : ℤ) - 1074 + 53) := two_zpow_le (by omega)

end IsBinary64

/-! Rounding. -/

/-- v is a value nearest to q (R112). -/
structure Rounds (q v : ℚ) : Prop where
  isBinary64 : IsBinary64 v
  nearest : ∀ c, IsBinary64 c → |v - q| ≤ |c - q|

namespace Rounds

variable {q v R : ℚ} {g e : ℤ}

/-- An exact value rounds to itself. -/
theorem eq_of_isBinary64 (h : Rounds q v) (hq : IsBinary64 q) : v = q := by
  have hnear := h.nearest q hq
  rw [sub_self, abs_zero] at hnear
  exact sub_eq_zero.mp (abs_eq_zero.mp (le_antisymm hnear (abs_nonneg _)))

theorem self (hq : IsBinary64 q) : Rounds q q := ⟨hq, fun c _ => by simp⟩

theorem neg (h : Rounds q v) : Rounds (-q) (-v) := by
  refine ⟨h.isBinary64.neg, fun c hc => ?_⟩
  have hnear := h.nearest (-c) hc.neg
  rw [← abs_neg (-v - -q), ← abs_neg (c - -q)]
  convert hnear using 2 <;> ring

theorem le_of_le (h : Rounds q v) (hR : IsBinary64 R) (hle : q ≤ R) : v ≤ R := by
  by_contra hlt
  have hnear := h.nearest R hR
  rw [abs_of_nonneg (sub_nonneg.mpr hle), abs_of_pos (by linarith)] at hnear
  linarith

theorem ge_of_ge (h : Rounds q v) (hR : IsBinary64 R) (hle : R ≤ q) : R ≤ v :=
  neg_le_neg_iff.mp (h.neg.le_of_le hR.neg (neg_le_neg hle))

/-- Rounding does not pass a value of the format. -/
theorem abs_le_of_le (h : Rounds q v) (hR : IsBinary64 R) (hle : |q| ≤ R) : |v| ≤ R :=
  abs_le.mpr ⟨h.ge_of_ge hR.neg (abs_le.mp hle).1, h.le_of_le hR (abs_le.mp hle).2⟩

theorem le_abs_of_le (h : Rounds q v) (hR : IsBinary64 R) (hle : R ≤ |q|) : R ≤ |v| := by
  obtain hq | hq := le_abs.mp hle
  · exact (h.ge_of_ge hR hq).trans (le_abs_self v)
  · exact (h.neg.ge_of_ge hR hq).trans (neg_le_abs v)

/-- Half a unit in the last place of a number of at most 2^e. -/
theorem error (h : Rounds q v) (he : -1021 ≤ e) (hle : |q| ≤ 2 ^ e) : |v - q| ≤ 2 ^ (e - 54) := by
  obtain ⟨c, hgrid, hc⟩ := OnGrid.exists_abs_sub_le (e - 53) q
  have hpow : IsBinary64 (2 ^ e) := .two_zpow (by omega)
  rw [show e - 53 - 1 = e - 54 by ring] at hc
  obtain ⟨hlo, hhi⟩ := abs_le.mp hle
  obtain ⟨hclo, hchi⟩ := abs_le.mp hc
  by_cases habove : 2 ^ e < c
  · have hnear := h.nearest _ hpow
    rw [abs_of_nonneg (sub_nonneg.mpr hhi)] at hnear
    linarith
  by_cases hbelow : c < -2 ^ e
  · have hnear := h.nearest _ hpow.neg
    rw [abs_of_nonpos (sub_nonpos.mpr hlo)] at hnear
    linarith
  · refine (h.nearest c (.of_le (by omega) hgrid ?_)).trans hc
    rw [show e - 53 + 53 = e by ring]
    exact abs_le.mpr ⟨not_lt.mp hbelow, not_lt.mp habove⟩

theorem onGrid (h : Rounds q v) (hg : -1074 ≤ g) (hq : OnGrid g q) : OnGrid g v := by
  by_cases hle : |q| ≤ 2 ^ (g + 53)
  · rw [h.eq_of_isBinary64 (.of_le hg hq hle)]
    exact hq
  · exact h.isBinary64.onGrid_of_le ((two_zpow_le (by omega)).trans
      (h.le_abs_of_le (.two_zpow (by omega)) (not_le.mp hle).le))

end Rounds

/-! The error of an addition, recovered by two more (R118). -/

section TwoSum

variable {a b s t u : ℚ}

theorem Rounds.abs_error_le (hs : Rounds (a + b) s) (ha : IsBinary64 a) : |a + b - s| ≤ |b| := by
  have hnear := hs.nearest a ha
  rwa [abs_sub_comm, sub_add_cancel_left, abs_neg] at hnear

/-- The rounding error of a sum of two values is a value. -/
theorem Rounds.isBinary64_error (hs : Rounds (a + b) s) (ha : IsBinary64 a) (hb : IsBinary64 b) :
    IsBinary64 (a + b - s) := by
  obtain ⟨k, hk, hagrid, halt⟩ := id ha
  obtain ⟨l, hl, hbgrid, hblt⟩ := id hb
  obtain h | h := le_total l k
  · have hsum := (hagrid.mono h).add hbgrid
    exact ⟨l, hl, hsum.sub (hs.onGrid hl hsum), (hs.abs_error_le ha).trans_lt hblt⟩
  · have hsum := hagrid.add (hbgrid.mono h)
    rw [add_comm] at hs
    exact ⟨k, hk, hsum.sub ((add_comm b a ▸ hs).onGrid hk hsum), add_comm a b ▸ (hs.abs_error_le hb).trans_lt halt⟩

/-- A value no larger than another has 53 bits on a grid no coarser. -/
theorem IsBinary64.exists_grid_le {k : ℤ} (hb : IsBinary64 b) (hk : -1074 ≤ k) (hlt : |b| < 2 ^ (k + 53)) :
    ∃ l ≤ k, -1074 ≤ l ∧ OnGrid l b ∧ |b| < 2 ^ (l + 53) := by
  obtain ⟨l, hl, hgrid, hblt⟩ := hb
  obtain h | h := le_total l k
  · exact ⟨l, h, hl, hgrid, hblt⟩
  · exact ⟨k, le_rfl, hk, hgrid.mono h, hlt⟩

/-- The rounded sum of a value and one no larger, less the first, is a value: it is on the grid of the sum or of `a`, one of
which is coarser than that of `b`. -/
theorem Rounds.isBinary64_sub_left (hs : Rounds (a + b) s) (ha : IsBinary64 a) (hb : IsBinary64 b) (hle : |b| ≤ |a|) :
    IsBinary64 (s - a) := by
  obtain ⟨k, hk, hagrid, halt⟩ := id ha
  obtain ⟨l, hlk, hl, hbgrid, hblt⟩ := hb.exists_grid_le hk (hle.trans_lt halt)
  by_cases hexact : |a + b| ≤ 2 ^ (l + 53)
  · rw [hs.eq_of_isBinary64 (.of_le hl ((hagrid.mono hlk).add hbgrid) hexact), add_sub_cancel_left]
    exact hb
  have hbig : (2 : ℚ) ^ (l + 53) < |a + b| := not_le.mp hexact
  have hpos : 0 < |a + b| := lt_trans (by positivity) hbig
  obtain ⟨e, he⟩ : ∃ e, Int.log 2 |a + b| = e + 52 := ⟨Int.log 2 |a + b| - 52, by ring⟩
  have hlow : (2 : ℚ) ^ (e + 52) ≤ |a + b| := he ▸ Int.zpow_log_le_self one_lt_two hpos
  have hhigh : |a + b| < (2 : ℚ) ^ (e + 53) := by
    have hsucc := Int.lt_zpow_succ_log_self one_lt_two |a + b|
    rw [he, add_assoc] at hsucc
    exact_mod_cast hsucc
  have hle' : l < e := by
    have := (zpow_lt_zpow_iff_right₀ (one_lt_two (α := ℚ))).mp (hbig.trans hhigh)
    omega
  have hek : e ≤ k + 1 := by
    have hdouble : |a + b| < 2 ^ (k + 53 + 1) := by
      rw [two_zpow_add_one]
      linarith [abs_add_le a b]
    have := (zpow_lt_zpow_iff_right₀ (one_lt_two (α := ℚ))).mp (hlow.trans_lt hdouble)
    omega
  have hsgrid : OnGrid e s := hs.isBinary64.onGrid_of_le (hs.le_abs_of_le (.two_zpow (by omega)) hlow)
  have herr : |s - (a + b)| ≤ 2 ^ (e - 1) := by
    have := hs.error (by omega) hhigh.le
    rwa [show e + 53 - 54 = e - 1 by ring] at this
  have hdiff : |s - a| ≤ |b| + 2 ^ (e - 1) := by
    rw [show s - a = b + (s - (a + b)) by ring]
    exact (abs_add_le _ _).trans (add_le_add_right herr _)
  obtain h | rfl := hek.lt_or_eq
  · refine .of_le (by omega) (hsgrid.sub (hagrid.mono (by omega))) (hdiff.trans ?_)
    have h52 : (2 : ℚ) ^ (l + 53) ≤ 2 ^ (e + 52) := two_zpow_le (by omega)
    have h1 : (2 : ℚ) ^ (e - 1) ≤ 2 ^ (e + 52) := two_zpow_le (by omega)
    rw [show e + 53 = e + 52 + 1 by ring, two_zpow_add_one]
    linarith
  · refine .of_le hk ((hsgrid.mono (by omega)).sub hagrid) (hdiff.trans ?_)
    have hstep := hagrid.abs.add_le_of_lt (OnGrid.two_zpow (by omega)) halt
    rw [show k + 1 - 1 = k by ring]
    linarith

/-- `(a ⊖ s) ⊖ b` with `s = a ⊖ b` is the rounding error of s, when b is no larger than a or s is exact. -/
theorem Rounds.tail_exact (hs : Rounds (a - b) s) (ht : Rounds (a - s) t) (hu : Rounds (t - b) u) (ha : IsBinary64 a)
    (hb : IsBinary64 b) (h : |b| ≤ |a| ∨ IsBinary64 (a - b)) : u = a - b - s := by
  rw [sub_eq_add_neg] at hs
  obtain hle | hexact := h
  · have hdiff : IsBinary64 (a - s) := neg_sub s a ▸ (hs.isBinary64_sub_left ha hb.neg (by rwa [abs_neg])).neg
    rw [ht.eq_of_isBinary64 hdiff, sub_right_comm, sub_eq_add_neg a b] at hu
    rw [hu.eq_of_isBinary64 (hs.isBinary64_error ha hb.neg), sub_eq_add_neg a b]
  · rw [← sub_eq_add_neg] at hs
    rw [hs.eq_of_isBinary64 hexact, sub_sub_cancel] at ht
    rw [ht.eq_of_isBinary64 hb, sub_self] at hu
    rw [hs.eq_of_isBinary64 hexact, sub_self, hu.eq_of_isBinary64 (by exact_mod_cast IsBinary64.intCast (n := 0) (by decide))]

end TwoSum

end Sys2Proof

/-! SUPPORT. The binary64 operations of R118 round in that sense. -/

namespace Sys2Proof

/-! The pattern `rne` answers (R112). -/

theorem div_le_nearestEven (n d : ℕ) : n / d ≤ nearestEven n d := by
  unfold nearestEven
  split_ifs <;> omega

theorem nearestEven_le (n d : ℕ) : nearestEven n d ≤ n / d + 1 := by
  unfold nearestEven
  split_ifs <;> omega

theorem abs_nearestEvenRat_sub_le (q : ℚ) : |(nearestEvenRat q : ℚ) - q| ≤ 1 / 2 := by
  have hlo := Int.floor_le q
  have hhi := Int.lt_floor_add_one q
  simp only [nearestEvenRat]
  rw [abs_le]
  split_ifs with h
  · have hge : 1 / 2 ≤ q - ⌊q⌋ := h.elim le_of_lt fun h => h.1.ge
    push_cast
    constructor <;> linarith
  · have hle : q - ⌊q⌋ ≤ 1 / 2 := not_lt.mp fun hlt => h (.inl hlt)
    constructor <;> linarith

theorem abs_nearestEven_sub_le (n : ℕ) {d : ℕ} (hd : 0 < d) : |(nearestEven n d : ℚ) - n / d| ≤ 1 / 2 := by
  have h := abs_nearestEvenRat_sub_le ((n : ℚ) / d)
  rw [nearestEvenRat_div n hd] at h
  exact_mod_cast h

section Pattern

variable {F : Fmt} {n d t : ℕ} (ht : Nat.log2 (n / d) - F.sigBits = t)
include ht

theorem div_lt_of_log2 : n / d / 2 ^ t < 2 ^ (F.sigBits + 1) := by
  have hlt : n / d < 2 ^ (Nat.log2 (n / d) + 1) := Nat.lt_log2_self
  rw [Nat.div_lt_iff_lt_mul (by positivity), ← pow_add]
  exact hlt.trans_le (Nat.pow_le_pow_right two_pos (by omega))

theorem le_div_of_log2 : t = 0 ∨ 2 ^ F.sigBits ≤ n / d / 2 ^ t := by
  refine or_iff_not_imp_left.mpr fun hpos => ?_
  have hne : n / d ≠ 0 := fun h => by
    rw [h, Nat.log2_zero] at ht
    omega
  rw [Nat.le_div_iff_mul_le (by positivity), ← pow_add]
  exact (Nat.pow_le_pow_right two_pos (by omega)).trans (Nat.log2_self_le hne)

/-- Below the range of the format a value rounds to the nearest multiple of its unit in the last place (R112). -/
theorem absOf_rne (s : Bool) (htop : t + 2 < F.expSat) :
    absOf (rne F s n d) = t * 2 ^ F.sigBits + nearestEven n (d * 2 ^ t) ∧
      absOf (rne F s n d) < (infPat F).toNat := by
  have hlt := div_lt_of_log2 ht
  have hle := nearestEven_le n (d * 2 ^ t)
  rw [← Nat.div_div_eq_div_mul] at hle
  have hinf : t * 2 ^ F.sigBits + nearestEven n (d * 2 ^ t) < (infPat F).toNat := by
    rw [toNat_infPat]
    calc t * 2 ^ F.sigBits + nearestEven n (d * 2 ^ t) ≤ (t + 2) * 2 ^ F.sigBits := by
          rw [pow_succ] at hlt
          linarith
      _ < F.expSat * 2 ^ F.sigBits := Nat.mul_lt_mul_of_pos_right htop (by positivity)
  have habs : absOf (rne F s n d) = t * 2 ^ F.sigBits + nearestEven n (d * 2 ^ t) := by
    rw [rne, ht, Nat.min_eq_left hinf.le, absOf_signedZero_or_ofNat s (hinf.trans (toNat_infPat_lt F))]
  exact ⟨habs, habs ▸ hinf⟩

theorem units_rne (s : Bool) (htop : t + 2 < F.expSat) : units (rne F s n d) = nearestEven n (d * 2 ^ t) * 2 ^ t := by
  obtain ⟨habs, -⟩ := absOf_rne ht s htop
  have hlow := le_div_of_log2 ht
  have hhigh := div_lt_of_log2 ht
  have hge := div_le_nearestEven n (d * 2 ^ t)
  have hle := nearestEven_le n (d * 2 ^ t)
  rw [Nat.div_div_eq_div_mul] at hlow hhigh
  obtain hlt | heq := (hle.trans (Nat.succ_le_of_lt hhigh)).lt_or_eq
  · exact units_of_absOf_eq habs hlt (hlow.imp_right fun h => h.trans hge)
  · have hnext : absOf (rne F s n d) = (t + 1) * 2 ^ F.sigBits + 2 ^ F.sigBits := by
      rw [habs, heq, pow_succ]
      ring
    rw [units_of_absOf_eq hnext (Nat.pow_lt_pow_right one_lt_two (Nat.lt_succ_self _)) (.inr le_rfl), heq]
    ring

end Pattern

/-- The nearest multiple of the unit in the last place is a nearest value: a value not on that grid is below the binade. -/
theorem Rounds.of_grid {q v : ℚ} {g : ℤ} (hg : -1074 ≤ g) (hv : OnGrid g v) (herr : |v - q| ≤ 2 ^ (g - 1))
    (hpos : 0 ≤ q) (hhigh : q < 2 ^ (g + 53)) (hlow : g = -1074 ∨ 2 ^ (g + 52) ≤ q) : Rounds q v := by
  have hstep : (2 : ℚ) ^ g = 2 * 2 ^ (g - 1) := by rw [← two_zpow_add_one, sub_add_cancel]
  have hhalf : (0 : ℚ) < 2 ^ (g - 1) := by positivity
  obtain ⟨hlo, hhi⟩ := abs_le.mp herr
  have hgrid {c : ℚ} (hc : OnGrid g c) : |v - q| ≤ |c - q| := by
    by_cases heq : v = c
    · rw [heq]
    · have hfar := not_lt.mp (mt (hv.eq_of_abs_sub_lt hc) heq)
      have htri : |v - c| ≤ |v - q| + |c - q| := abs_sub_comm c q ▸ abs_sub_le v q c
      linarith
  refine ⟨.of_le hg hv ?_, fun c hc => ?_⟩
  · have htop : OnGrid g (2 ^ (g + 53)) := OnGrid.two_zpow (by omega)
    have hsmall : (2 : ℚ) ^ (g - 1) ≤ 2 ^ (g + 53) := two_zpow_le (by omega)
    rw [abs_le]
    refine ⟨by linarith, not_lt.mp fun hlt => ?_⟩
    have := htop.add_le_of_lt hv hlt
    linarith
  · by_cases hbig : 2 ^ (g + 52) ≤ |c|
    · exact hgrid (hc.onGrid_of_le hbig)
    obtain rfl | hlow := hlow
    · obtain ⟨k, hk, hck, -⟩ := hc
      exact hgrid (hck.mono hk)
    · have hnear := hgrid (OnGrid.two_zpow (g := g) (g' := g + 52) (by omega))
      rw [abs_of_nonpos (sub_nonpos.mpr hlow)] at hnear
      have hc' := (abs_lt.mp (not_le.mp hbig)).2
      rw [abs_of_nonpos (sub_nonpos.mpr (by linarith : c ≤ q))]
      linarith

/-- p is finite and its value a nearest one to q. -/
structure RoundsTo (q : ℚ) (p : Pat .f64) : Prop where
  finite : isFinite p = true
  rounds : Rounds q (val p)

/-- A number of t bits above the smallest subnormal. -/
theorem two_pow_mul_unitValue (k : ℕ) : (2 : ℚ) ^ k * unitValue .f64 = 2 ^ ((k : ℤ) - 1074) := by
  rw [unitValue_f64, ← zpow_natCast, ← zpow_add₀ two_ne_zero, sub_eq_add_neg]

section Value

variable {n d t : ℕ} (hd : 0 < d) (ht : Nat.log2 (n / d) - Fmt.sigBits .f64 = t)
include hd ht

theorem value_lt_of_log2 : (n : ℚ) / d * unitValue .f64 < 2 ^ ((t : ℤ) - 1074 + 53) := by
  have hlt := div_lt_of_log2 ht
  rw [Nat.div_lt_iff_lt_mul (by positivity), ← pow_add, Nat.div_lt_iff_lt_mul hd] at hlt
  have hlt' : (n : ℚ) / d < 2 ^ (53 + t) := by
    rw [div_lt_iff₀ (by exact_mod_cast hd)]
    exact_mod_cast hlt
  calc (n : ℚ) / d * unitValue .f64 < 2 ^ (53 + t) * unitValue .f64 := mul_lt_mul_of_pos_right hlt' (unitValue_pos .f64)
    _ = 2 ^ ((t : ℤ) - 1074 + 53) := by
      rw [two_pow_mul_unitValue]
      congr 1
      push_cast
      ring

omit hd in
theorem le_value_of_log2 : t = 0 ∨ 2 ^ ((t : ℤ) - 1074 + 52) ≤ (n : ℚ) / d * unitValue .f64 := by
  refine (le_div_of_log2 ht).imp_right fun hle => ?_
  rw [Nat.le_div_iff_mul_le (by positivity), ← pow_add] at hle
  have hle' : (2 : ℚ) ^ (52 + t) ≤ (n : ℚ) / d := le_trans (by exact_mod_cast hle) Nat.cast_div_le
  calc 2 ^ ((t : ℤ) - 1074 + 52) = 2 ^ (52 + t) * unitValue .f64 := by
        rw [two_pow_mul_unitValue]
        congr 1
        push_cast
        ring
    _ ≤ (n : ℚ) / d * unitValue .f64 := mul_le_mul_of_nonneg_right hle' (unitValue_pos .f64).le

/-- A value of n/d units rounded to the unit in its last place. -/
theorem rounds_nearestEven :
    Rounds ((n : ℚ) / d * unitValue .f64) ((nearestEven n (d * 2 ^ t) : ℚ) * 2 ^ ((t : ℤ) - 1074)) := by
  have hulp : (0 : ℚ) < 2 ^ ((t : ℤ) - 1074) := by positivity
  have hnear := abs_nearestEven_sub_le n (d := d * 2 ^ t) (by positivity)
  have hvalue : (n : ℚ) / d * unitValue .f64 = n / (d * 2 ^ t : ℕ) * 2 ^ ((t : ℤ) - 1074) := by
    rw [← two_pow_mul_unitValue]
    push_cast
    field_simp
  refine .of_grid (g := t - 1074) (by omega) ⟨_, rfl⟩ ?_ (by have := unitValue_pos .f64; positivity)
    (value_lt_of_log2 hd ht) ((le_value_of_log2 ht).imp_left fun h => by rw [h]; rfl)
  rw [hvalue, ← sub_mul, abs_mul, abs_of_pos hulp, zpow_sub_one₀ two_ne_zero, mul_comm _ (2 : ℚ)⁻¹]
  gcongr
  rwa [← one_div]

end Value

/-- The machine's rounding of n/d units, below 2^1023. -/
theorem roundsTo_rne (s : Bool) {n d : ℕ} (hd : 0 < d) (hlt : (n : ℚ) / d * unitValue .f64 < 2 ^ (1023 : ℤ)) :
    RoundsTo (if s then -((n : ℚ) / d * unitValue .f64) else (n : ℚ) / d * unitValue .f64) (rne .f64 s n d) := by
  obtain ⟨t, ht⟩ : ∃ t, Nat.log2 (n / d) - Fmt.sigBits .f64 = t := ⟨_, rfl⟩
  have htop : t + 2 < Fmt.expSat .f64 := by
    show t + 2 < 2047
    obtain rfl | hle := le_value_of_log2 ht
    · decide
    · have := (zpow_lt_zpow_iff_right₀ (one_lt_two (α := ℚ))).mp (hle.trans_lt hlt)
      omega
  have hunits : (units (rne .f64 s n d) : ℚ) * unitValue .f64 = nearestEven n (d * 2 ^ t) * 2 ^ ((t : ℤ) - 1074) := by
    rw [units_rne ht s htop, ← two_pow_mul_unitValue]
    push_cast
    ring
  have hround := rounds_nearestEven hd ht
  refine ⟨decide_eq_true (absOf_rne ht s htop).2, ?_⟩
  rw [val_eq_units, signOf_rne, ite_mul, neg_mul, hunits]
  cases s
  · exact hround
  · exact hround.neg

theorem roundsTo_signedZero (s : Bool) : RoundsTo 0 (signedZero .f64 s) := by
  have hunits : units (signedZero .f64 s) = 0 := units_eq_zero_iff.mpr (Machine.absOf_signedZero s)
  refine ⟨by cases s <;> decide, ?_⟩
  rw [val_eq_units, hunits]
  simpa using Rounds.self (IsBinary64.intCast (n := 0) (by decide))

/-- What the operations share: the zero they are given, or t/d units rounded with their own sign. -/
theorem roundsTo_roundSigned {q : ℚ} {t : ℤ} {d : ℕ} (s : Bool) (hd : 0 < d) (hq : q = t / d * unitValue .f64)
    (hlt : |q| < 2 ^ (1023 : ℤ)) : RoundsTo q (if t = 0 then signedZero .f64 s else roundSigned t d) := by
  split_ifs with ht
  · rw [(value_eq_zero_iff hd hq).mpr ht]
    exact roundsTo_signedZero s
  · have habs : (t.natAbs : ℚ) / d * unitValue .f64 = |q| := by
      rw [hq, abs_mul, abs_div, abs_of_pos (unitValue_pos .f64), Nat.abs_cast, Nat.cast_natAbs, Int.cast_abs]
    have hround := roundsTo_rne (decide (t < 0)) hd (habs ▸ hlt)
    simp only [habs, decide_eq_true_eq, ← value_neg_iff hd hq] at hround
    rw [roundSigned, ← decide_eq_decide.mpr (value_neg_iff hd hq)]
    split_ifs at hround with hneg
    · rwa [abs_of_neg hneg, neg_neg] at hround
    · rwa [abs_of_nonneg (not_lt.mp hneg)] at hround

@[simp] theorem val_negate64 (p : Pat .f64) : val (negate64 p) = -val p := by
  have hexp : expf (negate64 p) = expf p := by
    have hclear : (signMask .f64).extractLsb' (Fmt.sigBits .f64) (Fmt.expBits .f64) = 0#_ := by decide
    rw [expf, negate64, BitVec.extractLsb'_xor, hclear, BitVec.xor_zero, expf]
  have hsig : sig (negate64 p) = sig p := by
    have hclear : (signMask .f64).extractLsb' 0 (Fmt.sigBits .f64) = 0#_ := by decide
    rw [sig, negate64, BitVec.extractLsb'_xor, hclear, BitVec.xor_zero, sig]
  have hsign : signOf (negate64 p) = !signOf p := by
    have hset : (signMask .f64).msb = true := by decide
    rw [signOf, negate64, BitVec.msb_xor, hset, Bool.xor_true, signOf]
  rw [val_eq_units, val_eq_units, hsign, units, units, hexp, hsig]
  cases signOf p <;> simp

section Operations

variable (a b c : Pat .f64)

theorem roundsTo_fadd64 (hlt : |val a + val b| < 2 ^ (1023 : ℤ)) : RoundsTo (val a + val b) (fadd64 a b) := by
  refine roundsTo_roundSigned _ one_pos ?_ hlt
  rw [val_eq_signedUnits, val_eq_signedUnits]
  push_cast
  ring

theorem roundsTo_fsub64 (hlt : |val a - val b| < 2 ^ (1023 : ℤ)) : RoundsTo (val a - val b) (fsub64 a b) := by
  have h := roundsTo_fadd64 a (negate64 b)
  rw [val_negate64, ← sub_eq_add_neg] at h
  exact h hlt

theorem roundsTo_fma64 (hlt : |val a * val b + val c| < 2 ^ (1023 : ℤ)) :
    RoundsTo (val a * val b + val c) (fma64 a b c) := by
  refine roundsTo_roundSigned _ (unitsOfOne_pos .f64) ?_ hlt
  have hone : (unitsOfOne .f64 : ℚ) ≠ 0 := by exact_mod_cast (unitsOfOne_pos .f64).ne'
  rw [val_eq_signedUnits, val_eq_signedUnits, val_eq_signedUnits, unitValue_eq_inv]
  push_cast
  generalize (unitsOfOne .f64 : ℚ) = one at hone ⊢
  field_simp

theorem val_mul_val_eq_units : val a * val b = if signOf a != signOf b then
    -(((units a * units b : ℕ) : ℚ) / unitsOfOne .f64 * unitValue .f64)
    else ((units a * units b : ℕ) : ℚ) / unitsOfOne .f64 * unitValue .f64 := by
  rw [val_eq_units, val_eq_units, unitValue_eq_inv]
  generalize unitsOfOne .f64 = one
  push_cast
  cases signOf a <;> cases signOf b <;> simp <;> ring

theorem roundsTo_fmul64 (hlt : |val a * val b| < 2 ^ (1023 : ℤ)) : RoundsTo (val a * val b) (fmul64 a b) := by
  have hval := val_mul_val_eq_units a b
  have hpos : 0 ≤ ((units a * units b : ℕ) : ℚ) / unitsOfOne .f64 * unitValue .f64 :=
    mul_nonneg (div_nonneg (Nat.cast_nonneg _) (Nat.cast_nonneg _)) (unitValue_pos .f64).le
  have hround := roundsTo_rne (n := units a * units b) (signOf a != signOf b) (unitsOfOne_pos .f64)
    ((le_of_eq (by rw [hval, apply_ite abs, abs_neg, ite_self, abs_of_nonneg hpos])).trans_lt hlt)
  rw [← hval] at hround
  rw [fmul64]
  split_ifs with hzero
  · rw [hzero, Nat.cast_zero, zero_div, zero_mul, neg_zero, ite_self] at hval
    rw [hval]
    exact roundsTo_signedZero _
  · exact hround

theorem roundsTo_f64OfInt {k : ℤ} (hlt : |k| < 2 ^ 53) : RoundsTo k (f64OfInt k) := by
  have hone := unitsOfOne_pos .f64
  have hscale : k = 0 ↔ k * unitsOfOne .f64 = 0 := by
    rw [mul_eq_zero, or_iff_left (by exact_mod_cast hone.ne')]
  have hlt' : |(k : ℚ)| < 2 ^ (1023 : ℤ) := by
    have h53 : |(k : ℚ)| < 2 ^ (53 : ℤ) := by exact_mod_cast hlt
    exact h53.trans_le (two_zpow_le (by decide))
  have h := roundsTo_roundSigned (t := k * unitsOfOne .f64) (d := 1) false one_pos ?_ hlt'
  · simp only [← hscale] at h
    exact h
  · rw [unitValue_eq_inv]
    push_cast
    rw [div_one, mul_inv_cancel_right₀ (by exact_mod_cast hone.ne')]

/-- An integer of 53 bits is converted exactly (R119). -/
theorem val_f64OfInt {k : ℤ} (hlt : |k| < 2 ^ 53) : val (f64OfInt k) = k :=
  (roundsTo_f64OfInt hlt).rounds.eq_of_isBinary64 (.intCast hlt.le)

end Operations

end Sys2Proof

/-! SUPPORT. The exact operations of the argument reduction: a limb of π/2 times an integer, and the first subtraction. -/

namespace Sys2Proof

/-! A limb of π/2 times an integer (R272). -/

/-- The value of the first limb of π/2 (R272). -/
abbrev limb1 : ℚ := val (F := .f64) 0x3FF921FB54400000

/-- The value of what is left of π/2 after the first limb (R272). -/
abbrev tail1 : ℚ := val (F := .f64) 0x3DD0B4611A626331

/-- The value of the second limb. -/
abbrev limb2 : ℚ := val (F := .f64) 0x3DD0B4611A600000

/-- The value of what is left after the second limb. -/
abbrev tail2 : ℚ := val (F := .f64) 0x3BA3198A2E037073

/-- The value of the third limb. -/
abbrev limb3 : ℚ := val (F := .f64) 0x3BA3198A2E000000

/-- The value of what is left after the third limb. -/
abbrev tail3 : ℚ := val (F := .f64) 0x397B839A252049C1

/-- The value of the constant for 2/π (R272). -/
abbrev invHalfPi : ℚ := val (F := .f64) 0x3FE45F306DC9C883

theorem limb1_eq : limb1 = 0x6487ED51 * 2 ^ (-30 : ℤ) := by decide +kernel
theorem limb2_eq : limb2 = 0x85A308D3 * 2 ^ (-65 : ℤ) := by decide +kernel
theorem limb3_eq : limb3 = 0x98CC517 * 2 ^ (-96 : ℤ) := by decide +kernel

/-- Scaling up by a power of two leaves the bits. -/
theorem IsBinary64.two_pow_mul {q : ℚ} (h : IsBinary64 q) (j : ℕ) : IsBinary64 (2 ^ j * q) := by
  obtain ⟨g, hg, ⟨m, rfl⟩, hlt⟩ := h
  have hpos : (0 : ℚ) < 2 ^ j := by positivity
  refine ⟨g + j, by omega, ⟨m, ?_⟩, ?_⟩
  · rw [zpow_add₀ two_ne_zero, zpow_natCast]
    ring
  · rw [abs_mul, abs_of_pos hpos, add_right_comm, zpow_add₀ two_ne_zero _ (j : ℤ), zpow_natCast, mul_comm]
    exact mul_lt_mul_of_pos_right hlt hpos

theorem lt_two_zpow_1023 {q : ℚ} {e : ℤ} (h : |q| ≤ 2 ^ e) (he : e < 1023 := by decide) : |q| < 2 ^ (1023 : ℤ) :=
  h.trans_lt (zpow_lt_zpow_right₀ one_lt_two he)

/-- An integer of 21 bits times one of 32 bits has 53 bits. -/
theorem isBinary64_int_mul_limb {n m g : ℤ} {c : ℚ} (hn : |n| ≤ 2 ^ 21) (hc : c = m * 2 ^ g) (hm : |m| ≤ 2 ^ 32)
    (hg : -1074 ≤ g) : IsBinary64 (n * c) ∧ |n * c| ≤ 2 ^ (g + 53) := by
  have hnm : |(n * m : ℚ)| ≤ 2 ^ (53 : ℤ) := by
    have : |n * m| ≤ 2 ^ 21 * 2 ^ 32 := abs_mul n m ▸ mul_le_mul hn hm (abs_nonneg m) (by norm_num)
    exact_mod_cast this
  have hle : |n * c| ≤ 2 ^ (g + 53) := by
    rw [hc, ← mul_assoc, abs_mul, abs_of_pos (by positivity : (0 : ℚ) < 2 ^ g), add_comm g, zpow_add₀ two_ne_zero]
    gcongr
  exact ⟨.of_le hg (hc ▸ OnGrid.intCast_mul n ⟨m, rfl⟩) hle, hle⟩

theorem val_fmul64_limb {a c : Pat .f64} {n m g : ℤ} (ha : val a = n) (hn : |n| ≤ 2 ^ 21) (hc : val c = m * 2 ^ g)
    (hm : |m| ≤ 2 ^ 32) (hg : -1074 ≤ g) (hg0 : g ≤ 0) : val (fmul64 a c) = n * val c := by
  obtain ⟨hexact, hle⟩ := isBinary64_int_mul_limb hn hc hm hg
  have hround := roundsTo_fmul64 a c (by rw [ha]; exact lt_two_zpow_1023 hle (by omega))
  rw [ha] at hround
  exact hround.rounds.eq_of_isBinary64 hexact

section Limbs

variable {a : Pat .f64} {n : ℤ} (ha : val a = n) (hn : |n| ≤ 2 ^ 21)
include ha hn

theorem val_fmul64_pio2_1 : val (fmul64 a 0x3FF921FB54400000) = n * limb1 :=
  val_fmul64_limb (m := 0x6487ED51) ha hn limb1_eq (by decide) (by decide) (by decide)

theorem val_fmul64_pio2_2 : val (fmul64 a 0x3DD0B4611A600000) = n * limb2 :=
  val_fmul64_limb (m := 0x85A308D3) ha hn limb2_eq (by decide) (by decide) (by decide)

theorem val_fmul64_pio2_3 : val (fmul64 a 0x3BA3198A2E000000) = n * limb3 :=
  val_fmul64_limb (m := 0x98CC517) ha hn limb3_eq (by decide) (by decide) (by decide)

end Limbs

/-- Settles O56: the constants by the bounds of π, the products since 21 and 32 bits are 53. -/
theorem trigConstants : Obligations.TrigConstants := by
  unfold Obligations.TrigConstants
  refine ⟨Machine.constantsOfPi_trigDefaults, Machine.thresholdsOfPi_trigDefaults, fun k c hk hc => ?_⟩
  have hval : val (f64OfInt k) = k := val_f64OfInt (hk.trans (by norm_num))
  have hk' : |k| ≤ 2 ^ 21 := hk.le.trans (by norm_num)
  simp only [List.mem_cons, List.not_mem_nil, or_false] at hc
  obtain rfl | rfl | rfl := hc
  · exact val_fmul64_pio2_1 hval hk'
  · exact val_fmul64_pio2_2 hval hk'
  · exact val_fmul64_pio2_3 hval hk'

/-! What the regimes that subtract a multiple of π/2 know of the operand and of the multiple. -/

/-- x is a value of the binade 2^e, and n·limb the multiple of the first limb of π/2 that is subtracted from it. -/
structure Reducible (x : ℚ) (n e : ℤ) : Prop where
  isBinary64 : IsBinary64 x
  low : 2 ^ e ≤ |x|
  high : |x| < 2 ^ (e + 1)
  exp_ge : -1 ≤ e
  exp_le : e ≤ 20
  index : |(n : ℚ)| ≤ 2 ^ (e + 1)
  index_le : |n| ≤ 2 ^ 20
  residue : |x - n * limb1| ≤ 1

namespace Reducible

variable {x : ℚ} {n e : ℤ}

theorem neg (h : Reducible x n e) : Reducible (-x) (-n) e where
  isBinary64 := h.isBinary64.neg
  low := by rw [abs_neg]; exact h.low
  high := by rw [abs_neg]; exact h.high
  exp_ge := h.exp_ge
  exp_le := h.exp_le
  index := by rw [Int.cast_neg, abs_neg]; exact h.index
  index_le := by rw [abs_neg]; exact h.index_le
  residue := by rw [Int.cast_neg, neg_mul, sub_neg_eq_add, ← abs_neg, neg_add, neg_neg, ← sub_eq_add_neg]; exact h.residue

theorem abs_index_le (h : Reducible x n e) : |(n : ℚ)| ≤ 2 ^ (20 : ℤ) := by
  have hcast := Int.cast_le (R := ℚ).mpr h.index_le
  rw [Int.cast_abs] at hcast
  exact_mod_cast hcast

theorem onGrid (h : Reducible x n e) : OnGrid (e - 52) x := h.isBinary64.onGrid_of_le (by rw [sub_add_cancel]; exact h.low)

theorem onGrid_sub (h : Reducible x n e) : OnGrid (e - 52) (x - n * limb1) := by
  have hlimb : OnGrid (-30) limb1 := ⟨0x6487ED51, limb1_eq⟩
  have hle := h.exp_le
  exact h.onGrid.sub ((hlimb.intCast_mul n).mono (by omega))

/-- The difference of R277 and R284 is exact: at most 1, and a multiple of the last place of x. -/
theorem isBinary64_sub (h : Reducible x n e) : IsBinary64 (x - n * limb1) := by
  have hge := h.exp_ge
  exact .of_le (by omega) h.onGrid_sub (h.residue.trans (one_le_zpow₀ one_le_two (by omega)))

end Reducible

theorem units_eq_of_absOf_eq {F : Fmt} {p q : Pat F} (h : absOf p = absOf q) : units p = units q := by
  have hexp : expf p = expf q := by rw [← absOf_div_two_pow_sigBits, h, absOf_div_two_pow_sigBits]
  have hsig : sig p = sig q := by
    have hp := absOf_eq_fields p
    have hq := absOf_eq_fields q
    rw [hexp] at hp
    omega
  rw [units, units, hexp, hsig]

end Sys2Proof

namespace Sys2Proof.Machine

/-! Magnitudes from high words (R273). -/

section HighWords

variable {p q : Pat .f64}

theorem abs_val_lt_of_highWord_lt (h : highWord p < highWord q) : |val p| < |val q| := by
  rw [highWord_eq_div, highWord_eq_div] at h
  exact abs_val_lt_abs_val_iff.mpr (units_lt_units (Nat.lt_of_div_lt_div h))

theorem abs_val_le_of_highWord_le (h : highWord q ≤ highWord p) (hq : absOf q % 2 ^ 32 = 0) : |val q| ≤ |val p| := by
  rw [highWord_eq_div, highWord_eq_div] at h
  obtain heq | hlt := (by omega : absOf q ≤ absOf p).eq_or_lt
  · rw [abs_val, abs_val, units_eq_of_absOf_eq heq]
  · exact (abs_val_lt_abs_val_iff.mpr (units_lt_units hlt)).le

end HighWords

/-! The brackets of the direct regime (R273, R277). -/

/-- Rows 4, 5, 7 and 9 of R273 with the default thresholds. -/
def InDirectBracket (k ix : ℕ) : Prop :=
  (k = 1 ∧ 0x3FE921FB < ix ∧ ix ≤ 0x4002D97C ∧ ix % 2 ^ 20 ≠ 0x921FB) ∨
    (k = 2 ∧ 0x4002D97C < ix ∧ ix ≤ 0x400F6A7A ∧ ix % 2 ^ 20 ≠ 0x921FB) ∨
    (k = 3 ∧ 0x400F6A7A < ix ∧ ix ≤ 0x4015FDBC ∧ ix ≠ 0x4012D97C) ∨
    (k = 4 ∧ 0x4015FDBC < ix ∧ ix ≤ 0x401C463B ∧ ix ≠ 0x401921FB)

theorem regimeOf_of_inDirectBracket {k ix : ℕ} (h : InDirectBracket k ix) : regimeOf trigDefaults ix = .direct k := by
  have q1 : trigDefaults.quarter1 = 0x3FE921FB := rfl
  have q3 : trigDefaults.quarter3 = 0x4002D97C := rfl
  have q5 : trigDefaults.quarter5 = 0x400F6A7A := rfl
  have q6 : trigDefaults.quarter6 = 0x4012D97C := rfl
  have q7 : trigDefaults.quarter7 = 0x4015FDBC := rfl
  have q8 : trigDefaults.quarter8 = 0x401921FB := rfl
  have q9 : trigDefaults.quarter9 = 0x401C463B := rfl
  obtain ⟨rfl, lo, hi, near⟩ | ⟨rfl, lo, hi, near⟩ | ⟨rfl, lo, hi, near⟩ | ⟨rfl, lo, hi, near⟩ := h <;>
    rw [regimeOf, if_neg (by omega), if_neg (by omega), if_neg (by omega)]
  · rw [if_pos (by omega)]
  · rw [if_neg (by omega), if_pos (by omega)]
  · rw [if_neg (by omega), if_neg (by omega), if_neg (by omega), if_pos (by omega)]
  · rw [if_neg (by omega), if_neg (by omega), if_neg (by omega), if_neg (by omega), if_neg (by omega), if_pos (by omega)]

/-- How far an operand of a bracket is from the multiple of the first limb: not far, and not near. -/
structure NearMultiple (k : ℕ) (p : Pat .f64) : Prop where
  not_far : |(|val p| - k * limb1)| ≤ 785403 / 10 ^ 6
  not_near : (2 : ℚ) ^ (-22 : ℤ) ≤ |(|val p| - k * limb1)|

/-- The bracket of k lies between the patterns a and d, without the words between b and c. -/
theorem NearMultiple.of_bounds {k : ℕ} {p : Pat .f64} (a b c d : Pat .f64)
    (hlo : highWord a ≤ highWord p) (hhi : highWord p < highWord d) (hmid : highWord p < highWord b ∨ highWord c ≤ highWord p)
    (hwords : absOf a % 2 ^ 32 = 0 ∧ absOf c % 2 ^ 32 = 0)
    (ha : k * limb1 - 785403 / 10 ^ 6 ≤ |val a|) (hb : |val b| ≤ k * limb1 - 2 ^ (-22 : ℤ))
    (hc : k * limb1 + 2 ^ (-22 : ℤ) ≤ |val c|) (hd : |val d| ≤ k * limb1 + 785403 / 10 ^ 6) : NearMultiple k p := by
  have hpa := abs_val_le_of_highWord_le hlo hwords.1
  have hpd := abs_val_lt_of_highWord_lt hhi
  refine ⟨abs_le.mpr ⟨by linarith, by linarith⟩, ?_⟩
  obtain h | h := hmid
  · have hpb := abs_val_lt_of_highWord_lt h
    exact le_abs.mpr (.inr (by linarith))
  · have hpc := abs_val_le_of_highWord_le h hwords.2
    exact le_abs.mpr (.inl (by linarith))

theorem nearMultiple_of_inDirectBracket {k : ℕ} {p : Pat .f64} (h : InDirectBracket k (highWord p)) : NearMultiple k p := by
  have a1 : highWord 0x3FE921FC00000000 = 0x3FE921FC := by decide
  have b1 : highWord 0x3FF921FB00000000 = 0x3FF921FB := by decide
  have c1 : highWord 0x3FF921FC00000000 = 0x3FF921FC := by decide
  have a2 : highWord 0x4002D97D00000000 = 0x4002D97D := by decide
  have b2 : highWord 0x400921FB00000000 = 0x400921FB := by decide
  have c2 : highWord 0x400921FC00000000 = 0x400921FC := by decide
  have a3 : highWord 0x400F6A7B00000000 = 0x400F6A7B := by decide
  have b3 : highWord 0x4012D97C00000000 = 0x4012D97C := by decide
  have c3 : highWord 0x4012D97D00000000 = 0x4012D97D := by decide
  have a4 : highWord 0x4015FDBD00000000 = 0x4015FDBD := by decide
  have b4 : highWord 0x401921FB00000000 = 0x401921FB := by decide
  have c4 : highWord 0x401921FC00000000 = 0x401921FC := by decide
  have d4 : highWord 0x401C463C00000000 = 0x401C463C := by decide
  obtain ⟨rfl, lo, hi, near⟩ | ⟨rfl, lo, hi, near⟩ | ⟨rfl, lo, hi, near⟩ | ⟨rfl, lo, hi, near⟩ := h
  · exact .of_bounds 0x3FE921FC00000000 0x3FF921FB00000000 0x3FF921FC00000000 0x4002D97D00000000 (by omega) (by omega)
      (by omega) (by decide) (by decide +kernel) (by decide +kernel) (by decide +kernel) (by decide +kernel)
  · exact .of_bounds 0x4002D97D00000000 0x400921FB00000000 0x400921FC00000000 0x400F6A7B00000000 (by omega) (by omega)
      (by omega) (by decide) (by decide +kernel) (by decide +kernel) (by decide +kernel) (by decide +kernel)
  · exact .of_bounds 0x400F6A7B00000000 0x4012D97C00000000 0x4012D97D00000000 0x4015FDBD00000000 (by omega) (by omega)
      (by omega) (by decide) (by decide +kernel) (by decide +kernel) (by decide +kernel) (by decide +kernel)
  · exact .of_bounds 0x4015FDBD00000000 0x401921FB00000000 0x401921FC00000000 0x401C463C00000000 (by omega) (by omega)
      (by omega) (by decide) (by decide +kernel) (by decide +kernel) (by decide +kernel) (by decide +kernel)

/-- The binade of a normal pattern. -/
theorem abs_val_mem_binade {p : Pat .f64} (h : 0 < expf p) :
    2 ^ ((expf p : ℤ) - 1023) ≤ |val p| ∧ |val p| < 2 ^ ((expf p : ℤ) - 1023 + 1) := by
  have hlow : ((2 ^ 52 : ℕ) : ℚ) ≤ fullSignificand p := by exact_mod_cast Nat.le_add_right _ _
  have hhigh : (fullSignificand p : ℚ) < (2 ^ 53 : ℕ) := by exact_mod_cast fullSignificand_lt p
  have hulp : (0 : ℚ) < 2 ^ ((expf p : ℤ) - 1075) := by positivity
  have hbinade (k : ℕ) : (2 : ℚ) ^ ((expf p : ℤ) - 1075 + k) = (2 ^ k : ℕ) * 2 ^ ((expf p : ℤ) - 1075) := by
    rw [zpow_add₀ two_ne_zero, zpow_natCast, mul_comm, Nat.cast_pow, Nat.cast_ofNat]
  rw [abs_val_of_expf_pos h, show (expf p : ℤ) - 1023 = expf p - 1075 + (52 : ℕ) by push_cast; ring, add_assoc,
    show ((52 : ℕ) : ℤ) + 1 = (53 : ℕ) by rfl, hbinade, hbinade]
  exact ⟨mul_le_mul_of_nonneg_right hlow hulp.le, mul_lt_mul_of_pos_right hhigh hulp⟩

theorem val_of_nonneg {p : Pat .f64} (h : signOf p = false) : val p = |val p| := by
  rw [abs_val, val_eq_units, h]
  simp

theorem val_of_neg {p : Pat .f64} (h : signOf p = true) : val p = -|val p| := by
  rw [abs_val, val_eq_units, h]
  simp

theorem isBinary64_abs_val (p : Pat .f64) : IsBinary64 |val p| := by
  obtain h | h := abs_choice (val p)
  · exact h.symm ▸ .val p
  · exact h.symm ▸ (IsBinary64.val p).neg

/-- A bracket's operand and k are as the error analysis takes them. -/
theorem reducible_of_inDirectBracket {k : ℕ} {p : Pat .f64} (h : InDirectBracket k (highWord p)) :
    Reducible |val p| k ((expf p : ℤ) - 1023) := by
  obtain ⟨hfar, -⟩ := nearMultiple_of_inDirectBracket h
  have hexp := highWord_div_eq_expf p
  have hrange : k ≤ 4 ∧ 1022 ≤ expf p ∧ expf p ≤ 1025 ∧ (1024 ≤ expf p ∨ k = 1) := by
    rw [← hexp]
    unfold InDirectBracket at h
    omega
  obtain ⟨hk, hlo, hhi, hbig⟩ := hrange
  obtain ⟨hlow, hhigh⟩ := abs_val_mem_binade (p := p) (by omega)
  have hindex : (k : ℚ) ≤ 2 ^ ((expf p : ℤ) - 1023 + 1) := by
    obtain h4 | rfl := hbig
    · have hfour : (2 : ℚ) ^ (2 : ℤ) ≤ 2 ^ ((expf p : ℤ) - 1023 + 1) := two_zpow_le (by omega)
      exact le_trans (by exact_mod_cast hk) hfour
    · rw [Nat.cast_one]
      exact one_le_zpow₀ one_le_two (by omega)
  exact {
    isBinary64 := isBinary64_abs_val p
    low := by rwa [abs_abs]
    high := by rwa [abs_abs]
    exp_ge := by omega
    exp_le := by omega
    index := by simpa using hindex
    index_le := by rw [Nat.abs_cast]; omega
    residue := hfar.trans (by norm_num) }

/-! The direct regime (R277). -/

section Direct

variable {k : ℕ} {p : Pat .f64} (h : InDirectBracket k (highWord p))
include h

theorem val_direct_multiple :
    val (fmul64 (f64OfInt k) 0x3FF921FB54400000) = k * limb1 := by
  have hk := (reducible_of_inDirectBracket h).index_le
  exact val_fmul64_pio2_1 (val_f64OfInt (hk.trans_lt (by norm_num))) (hk.trans (by norm_num))

theorem val_direct_first_of_nonneg (hs : signOf p = false) :
    val (fsub64 p (fmul64 (f64OfInt k) 0x3FF921FB54400000)) = val p - k * limb1 := by
  have hred := reducible_of_inDirectBracket h
  have hsub := hred.isBinary64_sub
  have hres := hred.residue
  rw [Int.cast_natCast, ← val_of_nonneg hs] at hsub hres
  have hround := roundsTo_fsub64 p (fmul64 (f64OfInt k) 0x3FF921FB54400000)
  rw [val_direct_multiple h] at hround
  exact (hround (lt_two_zpow_1023 (e := 0) hres)).rounds.eq_of_isBinary64 hsub

theorem val_direct_first_of_neg (hs : signOf p = true) :
    val (fadd64 p (fmul64 (f64OfInt k) 0x3FF921FB54400000)) = val p + k * limb1 := by
  have hred := (reducible_of_inDirectBracket h).neg
  have hsub := hred.isBinary64_sub
  have hres := hred.residue
  rw [Int.cast_neg, Int.cast_natCast, neg_mul, sub_neg_eq_add, ← val_of_neg hs] at hsub hres
  have hround := roundsTo_fadd64 p (fmul64 (f64OfInt k) 0x3FF921FB54400000)
  rw [val_direct_multiple h] at hround
  exact (hround (lt_two_zpow_1023 (e := 0) hres)).rounds.eq_of_isBinary64 hsub

end Direct

theorem reduceDirect_of_nonneg (T : TrigParams) (k : ℕ) {p : Pat .f64} (hs : signOf p = false) :
    reduceDirect T k p = (level1 T p (f64OfInt k)).reduction (BitVec.ofNat 32 k) := by
  simp only [reduceDirect, hs, Bool.false_eq_true, if_false, BitVec.ofInt_natCast, level1, Level.reduction]

theorem reduceDirect_of_neg (T : TrigParams) (k : ℕ) {p : Pat .f64} (hs : signOf p = true) :
    reduceDirect T k p =
      { n := -BitVec.ofNat 32 k
        y0 := fadd64 (fadd64 p (fmul64 (f64OfInt k) T.pio2_1)) (fmul64 (f64OfInt k) T.pio2_1t)
        y1 := fadd64 (fsub64 (fadd64 p (fmul64 (f64OfInt k) T.pio2_1))
          (fadd64 (fadd64 p (fmul64 (f64OfInt k) T.pio2_1)) (fmul64 (f64OfInt k) T.pio2_1t)))
          (fmul64 (f64OfInt k) T.pio2_1t) } := by
  simp only [reduceDirect, hs, if_true, BitVec.ofInt_neg, BitVec.ofInt_natCast]

/-- A power of two times the tail of the first limb is exact (R277). -/
theorem val_fmul64_pio2_1t {k : ℤ} {j : ℕ} (hk : k = 2 ^ j) (hj : j ≤ 20) :
    val (fmul64 (f64OfInt k) 0x3DD0B4611A626331) = k * tail1 := by
  have hpow : (k : ℚ) = 2 ^ j := by exact_mod_cast congrArg (Int.cast (R := ℚ)) hk
  have hk20 : |k| ≤ 2 ^ 20 := by
    rw [hk, abs_of_pos (by positivity)]
    exact pow_le_pow_right₀ one_le_two hj
  have htail : |tail1| ≤ 1 := by decide +kernel
  have hle : |k * tail1| ≤ 2 ^ (20 : ℤ) := by
    rw [abs_mul, ← mul_one (2 ^ (20 : ℤ))]
    exact mul_le_mul (by exact_mod_cast hk20) htail (abs_nonneg _) (by positivity)
  have hround := roundsTo_fmul64 (f64OfInt k) 0x3DD0B4611A626331
  rw [val_f64OfInt (hk20.trans_lt (by norm_num))] at hround
  refine (hround (lt_two_zpow_1023 hle)).rounds.eq_of_isBinary64 ?_
  rw [hpow]
  exact (IsBinary64.val _).two_pow_mul j

/-- Settles O57: the regime is direct in each bracket, and the multiple and the first difference are values of the format. -/
theorem directRegime : Obligations.DirectRegime := by
  unfold Obligations.DirectRegime
  refine ⟨?_, fun k hk => ?_, fun k hk => ?_⟩
  · intro f p k ix k1 k1t hbracket
    have hregime := regimeOf_of_inDirectBracket hbracket
    refine ⟨fun hs => ⟨?_, val_direct_first_of_nonneg hbracket hs⟩, fun hs => ⟨?_, val_direct_first_of_neg hbracket hs⟩⟩
    · rw [remPio2_of_direct f hregime, reduceDirect_of_nonneg _ _ hs, level1, Level.reduction, trigDefaults_pio2_1, trigDefaults_pio2_1t]
    · rw [remPio2_of_direct f hregime, reduceDirect_of_neg _ _ hs, trigDefaults_pio2_1, trigDefaults_pio2_1t]
  · simp only [List.mem_cons, List.not_mem_nil, or_false] at hk
    obtain rfl | rfl | rfl := hk
    · exact val_fmul64_pio2_1t (j := 0) (by norm_num) (by norm_num)
    · exact val_fmul64_pio2_1t (j := 1) (by norm_num) (by norm_num)
    · exact val_fmul64_pio2_1t (j := 2) (by norm_num) (by norm_num)
  · simp only [List.mem_cons, List.not_mem_nil, or_false] at hk
    obtain rfl | rfl | rfl | rfl := hk <;> exact val_fmul64_pio2_1 (val_f64OfInt (by norm_num)) (by norm_num)

end Sys2Proof.Machine

/-! SUPPORT. The error of one level of the reduction (R284 to R287), on exact values related by rounding. -/

namespace Sys2Proof

/-- Powers of two against one of them, so that sums of them compare by linear arithmetic. -/
theorem two_zpow_sub (e : ℤ) (k : ℕ) [k.AtLeastTwo] : (2 : ℚ) ^ (e - (OfNat.ofNat k : ℤ)) = 2 ^ e / 2 ^ (OfNat.ofNat k : ℕ) := by
  rw [zpow_sub₀ two_ne_zero, zpow_ofNat]

namespace Rounds

variable {q v : ℚ} {e : ℤ}

theorem abs_lt_of_abs_lt (h : Rounds q v) (he : -1074 ≤ e) (hlt : |v| < 2 ^ e) : |q| < 2 ^ e :=
  not_le.mp fun hle => (h.le_abs_of_le (.two_zpow he) hle).not_gt hlt

theorem lt_abs_of_le_abs (h : Rounds q v) (he : -1074 ≤ e - 1) (hle : 2 ^ e ≤ |v|) : 2 ^ (e - 1) < |q| :=
  not_le.mp fun hq => ((h.abs_le_of_le (.two_zpow he) hq).trans_lt (zpow_lt_zpow_right₀ one_lt_two (sub_one_lt e))).not_ge hle

end Rounds

/-! The tail of a level: `y0 = r ⊖ w`, `y1 = (r ⊖ y0) ⊖ w` (R277, R287). -/

/-- y0 and y1 come of r and w by the three subtractions. -/
structure TailRounds (r w y0 y1 : ℚ) : Prop where
  isBinary64_r : IsBinary64 r
  isBinary64_w : IsBinary64 w
  head : Rounds (r - w) y0
  tail : ∃ d, Rounds (r - y0) d ∧ Rounds (d - w) y1

namespace TailRounds

variable {r w y0 y1 : ℚ} {e : ℤ}

/-- The two results are together `r − w` when w is no larger than r. -/
theorem add_eq (h : TailRounds r w y0 y1) (hle : |w| ≤ |r|) : y0 + y1 = r - w := by
  obtain ⟨d, hd, hy1⟩ := h.tail
  rw [h.head.tail_exact hd hy1 h.isBinary64_r h.isBinary64_w (.inl hle)]
  ring

/-- Whatever their order, the error is small against the bound of both. -/
theorem abs_add_sub_le (h : TailRounds r w y0 y1) (he : -900 ≤ e) (hr : |r| ≤ 2 ^ e) (hw : |w| ≤ 2 ^ e) :
    |y0 + y1 - (r - w)| ≤ 2 ^ (e - 51) := by
  obtain ⟨d, hd, hy1⟩ := h.tail
  have h2 : (2 : ℚ) ^ (e + 2) = 4 * 2 ^ e := by rw [zpow_add₀ two_ne_zero, mul_comm]; norm_num
  have hpos : (0 : ℚ) < 2 ^ e := by positivity
  rw [abs_le] at hr hw
  have hrw : |r - w| ≤ 2 ^ (e + 1) := by rw [two_zpow_add_one]; exact abs_le.mpr ⟨by linarith, by linarith⟩
  have hhead := abs_le.mp (h.head.error (by omega) hrw)
  have hbound := abs_le.mp (h.head.abs_le_of_le (.two_zpow (by omega)) hrw)
  rw [two_zpow_add_one] at hbound
  have hmid := abs_le.mp (hd.error (e := e + 2) (by omega) (by rw [h2]; exact abs_le.mpr ⟨by linarith, by linarith⟩))
  rw [show e + 1 - 54 = e - 53 by ring, two_zpow_sub] at hhead
  rw [show e + 2 - 54 = e - 52 by ring, two_zpow_sub] at hmid
  have hlast := abs_le.mp (hy1.error (e := e - 51) (by omega) (by
    rw [two_zpow_sub]; exact abs_le.mpr ⟨by linarith, by linarith⟩))
  rw [sub_sub, show (51 + 54 : ℤ) = 105 by rfl, two_zpow_sub] at hlast
  rw [two_zpow_sub]
  exact abs_le.mpr ⟨by linarith, by linarith⟩

/-- As the last level needs it: only w is known to be small. -/
theorem abs_add_sub_le_of_abs_w_le (h : TailRounds r w y0 y1) (he : -900 ≤ e) (hw : |w| ≤ 2 ^ e) :
    |y0 + y1 - (r - w)| ≤ 2 ^ (e - 51) := by
  by_cases hle : |w| ≤ |r|
  · rw [h.add_eq hle, sub_self, abs_zero]
    positivity
  · exact h.abs_add_sub_le he ((not_le.mp hle).le.trans hw) hw

end TailRounds

/-- From one level to the next (R285, R286): with v the limb's multiple, exact, and q the exact multiple of the tail, the new
`r − w` is `t − v − q` but for two roundings. -/
theorem nextLevel_error {t v q r d1 d m w : ℚ} {a b c : ℤ} (ht : IsBinary64 t) (hv : IsBinary64 v)
    (hexact : |v| ≤ |t| ∨ IsBinary64 (t - v)) (hr : Rounds (t - v) r) (hd1 : Rounds (t - r) d1) (hd : Rounds (d1 - v) d)
    (hm : Rounds q m) (hw : Rounds (m - d) w) (hbound : |t - v| ≤ 2 ^ a) (hq : |q| ≤ 2 ^ b)
    (ha : -1021 ≤ a) (hb : -1021 ≤ b) (hc : -1021 ≤ c) (hsum : (2 : ℚ) ^ b + 2 ^ (a - 54) ≤ 2 ^ c) :
    |r - w - (t - v - q)| ≤ 2 ^ (b - 54) + 2 ^ (c - 54) ∧ |w| ≤ 2 ^ c := by
  have hdelta : d = t - v - r := hr.tail_exact hd1 hd ht hv hexact
  have hdle : |d| ≤ 2 ^ (a - 54) := by
    rw [hdelta, abs_sub_comm]
    exact hr.error ha hbound
  have hmle : |m| ≤ 2 ^ b := hm.abs_le_of_le (.two_zpow (by omega)) hq
  have hmd : |m - d| ≤ 2 ^ c := (abs_sub _ _).trans ((add_le_add hmle hdle).trans hsum)
  refine ⟨?_, hw.abs_le_of_le (.two_zpow (by omega)) hmd⟩
  have hsplit : r - w - (t - v - q) = -((m - q) + (w - (m - d))) := by
    rw [hdelta]
    ring
  rw [hsplit, abs_neg]
  exact (abs_add_le _ _).trans (add_le_add (hm.error hb hq) (hw.error hc hmd))

end Sys2Proof

/-! SUPPORT. The levels of the reduction with the default constants (R284 to R286): what each leaves in r, w and y0. -/

namespace Sys2Proof.Machine

/-! The magnitudes of the constants. -/

theorem abs_tail1_le : |tail1| ≤ 2 ^ (-33 : ℤ) := by decide +kernel
theorem abs_limb2_le : |limb2| ≤ 2 ^ (-33 : ℤ) := by decide +kernel
theorem abs_tail2_le : |tail2| ≤ 2 ^ (-68 : ℤ) := by decide +kernel
theorem abs_limb3_le : |limb3| ≤ 2 ^ (-68 : ℤ) := by decide +kernel
theorem abs_tail3_le : |tail3| ≤ 2 ^ (-103 : ℤ) := by decide +kernel

theorem abs_mul_le_two_zpow {n c : ℚ} {a b : ℤ} (hn : |n| ≤ 2 ^ a) (hc : |c| ≤ 2 ^ b) : |n * c| ≤ 2 ^ (a + b) := by
  rw [abs_mul, zpow_add₀ two_ne_zero]
  exact mul_le_mul hn hc (abs_nonneg c) (by positivity)

/-! Magnitudes from exponent fields (R285, R286). -/

theorem abs_val_lt_of_expf_le {y : Pat .f64} {k : ℕ} (h : expf y ≤ k) : |val y| < 2 ^ ((k : ℤ) - 1022) := by
  have hlt : (units y : ℚ) < 2 ^ (52 + k) := by
    have hle : 2 ^ (52 + expf y) ≤ 2 ^ (52 + k) := Nat.pow_le_pow_right two_pos (by omega)
    exact_mod_cast (units_lt_two_pow (p := y)).trans_le hle
  calc |val y| = units y * unitValue .f64 := abs_val
    _ < 2 ^ (52 + k) * unitValue .f64 := mul_lt_mul_of_pos_right hlt (unitValue_pos .f64)
    _ = 2 ^ ((k : ℤ) - 1022) := by
      rw [two_pow_mul_unitValue]
      congr 1
      push_cast
      ring

section Cancelled

variable {p y : Pat .f64} {gap : ℕ} {e : ℤ} (he : e = (expf p : ℤ) - 1023)
include he

theorem abs_val_lt_of_cancelled (h : cancelled (highWord p / 2 ^ 20) gap y = true) : |val y| < 2 ^ (e - gap) := by
  rw [cancelled_iff, highWord_div_eq_expf] at h
  have hlt := abs_val_lt_of_expf_le (y := y) (k := expf p - gap - 1) (by omega)
  rwa [show ((expf p - gap - 1 : ℕ) : ℤ) - 1022 = e - gap by omega] at hlt

theorem le_abs_val_of_not_cancelled (hgap : gap < expf p) (h : cancelled (highWord p / 2 ^ 20) gap y = false) :
    2 ^ (e - gap) ≤ |val y| := by
  rw [← Bool.not_eq_true, cancelled_iff, highWord_div_eq_expf] at h
  exact (two_zpow_le (by omega)).trans (abs_val_mem_binade (p := y) (by omega)).1

end Cancelled

/-! The values of a level. -/

/-- A level's r and w are together the target but for ε, of moderate size, w at most 2^b, and y0 is their rounded difference. -/
structure LevelHolds (l : Level) (target ε : ℚ) (b : ℤ) : Prop where
  head : RoundsTo (val l.r - val l.w) l.y0
  error : |val l.r - val l.w - target| ≤ ε
  abs_r_le : |val l.r| ≤ 2 ^ (11 : ℤ)
  abs_w_le : |val l.w| ≤ 2 ^ b

/-- The difference of two values of moderate size, rounded. -/
theorem roundsTo_fsub64_of_le {a b : Pat .f64} {k : ℤ} (ha : |val a| ≤ 2 ^ k) (hb : |val b| ≤ 2 ^ k)
    (hk : -1021 ≤ k ∧ k < 1000 := by decide) :
    RoundsTo (val a - val b) (fsub64 a b) ∧ |val (fsub64 a b)| ≤ 2 ^ (k + 1) := by
  have hle : |val a - val b| ≤ 2 ^ (k + 1) := by
    rw [two_zpow_add_one, two_mul]
    exact (abs_sub _ _).trans (add_le_add ha hb)
  have hround := roundsTo_fsub64 a b (lt_two_zpow_1023 hle (by omega))
  exact ⟨hround, hround.rounds.abs_le_of_le (.two_zpow (by omega)) hle⟩

/-- The three subtractions of a level (R277, R287). -/
theorem LevelHolds.tailRounds {l : Level} {target ε : ℚ} {b : ℤ} (h : LevelHolds l target ε b) (hb : b ≤ 11) (n : BitVec 32) :
    TailRounds (val l.r) (val l.w) (val (F := .f64) (l.reduction n).y0) (val (F := .f64) (l.reduction n).y1) ∧
      isFinite (F := .f64) (l.reduction n).y0 = true ∧ isFinite (F := .f64) (l.reduction n).y1 = true := by
  have hw : |val l.w| ≤ 2 ^ (11 : ℤ) := h.abs_w_le.trans (two_zpow_le hb)
  have hdiff : |val l.r - val l.w| ≤ 2 ^ (12 : ℤ) := (abs_sub _ _).trans ((add_le_add h.abs_r_le hw).trans (by norm_num))
  have hy0 := h.head.rounds.abs_le_of_le (.two_zpow (by decide)) hdiff
  obtain ⟨hd, hdle⟩ := roundsTo_fsub64_of_le (h.abs_r_le.trans (two_zpow_le (by decide))) hy0
  obtain ⟨hy1, -⟩ := roundsTo_fsub64_of_le hdle (hw.trans (two_zpow_le (by decide)))
  exact ⟨⟨.val _, .val _, h.head.rounds, _, hd.rounds, hy1.rounds⟩, h.head.finite, hy1.finite⟩

/-- A first level: r the exact difference, w the rounded multiple of the tail (R277, R284). -/
theorem LevelHolds.of_first {l : Level} {x : ℚ} {n e : ℤ} (hx : Reducible x n e) (hy0 : l.y0 = fsub64 l.r l.w)
    (hr : val l.r = x - n * limb1) (hw : |val l.w - n * tail1| ≤ 2 ^ (e - 86)) (hwle : |val l.w| ≤ 2 ^ (e - 32)) :
    LevelHolds l (x - n * (limb1 + tail1)) (2 ^ (e - 86)) (e - 32) := by
  have hle := hx.exp_le
  have hrle : |val l.r| ≤ 2 ^ (0 : ℤ) := hr ▸ hx.residue
  obtain ⟨hround, -⟩ := roundsTo_fsub64_of_le hrle (hwle.trans (two_zpow_le (by omega)))
  refine ⟨hy0 ▸ hround, ?_, hrle.trans (two_zpow_le (by decide)), hwle⟩
  have herr : val l.r - val l.w - (x - n * (limb1 + tail1)) = -(val l.w - n * tail1) := by rw [hr]; ring
  rw [herr, abs_neg]
  exact hw

theorem level1_r (p fn : Pat .f64) : (level1 trigDefaults p fn).r = fsub64 p (fmul64 fn 0x3FF921FB54400000) := by
  rw [level1, trigDefaults_pio2_1]

theorem level1_w (p fn : Pat .f64) : (level1 trigDefaults p fn).w = fmul64 fn 0x3DD0B4611A626331 := by
  rw [level1, trigDefaults_pio2_1t]

theorem level1_y0 (T : TrigParams) (p fn : Pat .f64) : (level1 T p fn).y0 = fsub64 (level1 T p fn).r (level1 T p fn).w := by
  rw [level1]

/-- A next level of moderate size. -/
theorem nextLevel_holds {limb tail fn : Pat .f64} {l : Level} {n a b c : ℤ} (hlimb : val (fmul64 fn limb) = n * val limb)
    (hfn : val fn = n) (hexact : |n * val limb| ≤ |val l.r| ∨ IsBinary64 (val l.r - n * val limb))
    (hbound : |val l.r - n * val limb| ≤ 2 ^ a) (hq : |n * val tail| ≤ 2 ^ b) (hr : |val l.r| ≤ 2 ^ (10 : ℤ))
    (hv : |n * val limb| ≤ 2 ^ (10 : ℤ)) (hrange : (-900 ≤ a) ∧ (-900 ≤ b ∧ b ≤ 10) ∧ -900 ≤ c ∧ c ≤ 10)
    (hsum : (2 : ℚ) ^ b + 2 ^ (a - 54) ≤ 2 ^ c) :
    LevelHolds (nextLevel limb tail fn l) (val l.r - n * val limb - n * val tail) (2 ^ (b - 54) + 2 ^ (c - 54)) c ∧
      Rounds (val l.r - n * val limb) (val (nextLevel limb tail fn l).r) := by
  obtain ⟨ha, ⟨hb, hb'⟩, hc, hc'⟩ := hrange
  rw [← hlimb] at hexact hbound hv ⊢
  rw [← hfn] at hq ⊢
  have hm := roundsTo_fmul64 fn tail (lt_two_zpow_1023 hq (by omega))
  obtain ⟨hr', hr'le⟩ := roundsTo_fsub64_of_le hr hv
  obtain ⟨hd1, hd1le⟩ := roundsTo_fsub64_of_le (hr.trans (two_zpow_le (by decide))) hr'le
  obtain ⟨hd, hdle⟩ := roundsTo_fsub64_of_le hd1le (hv.trans (two_zpow_le (by decide)))
  have hmle := hm.rounds.abs_le_of_le (.two_zpow (by omega)) (hq.trans (two_zpow_le (by omega : b ≤ 13)))
  obtain ⟨hw, -⟩ := roundsTo_fsub64_of_le hmle hdle
  obtain ⟨herr, hwle⟩ := nextLevel_error (.val _) (.val _) hexact hr'.rounds hd1.rounds hd.rounds hm.rounds hw.rounds hbound hq
    (by omega) (by omega) (by omega) hsum
  obtain ⟨hy0, -⟩ := roundsTo_fsub64_of_le hr'le (hwle.trans (two_zpow_le (by omega)))
  exact ⟨⟨hy0, herr, hr'le, hwle⟩, hr'.rounds⟩

section Levels

variable {p fn : Pat .f64} {n e : ℤ} (hfn : val fn = n) (hred : Reducible (val p) n e)
include hfn hred

/-- The first difference is exact, and the tail's multiple is rounded (R284). -/
theorem level1_values : val (level1 trigDefaults p fn).r = val p - n * limb1 ∧
    |val (level1 trigDefaults p fn).w - n * tail1| ≤ 2 ^ (e - 86) ∧ |val (level1 trigDefaults p fn).w| ≤ 2 ^ (e - 32) := by
  have hge := hred.exp_ge
  have hle := hred.exp_le
  have htail := abs_mul_le_two_zpow hred.index abs_tail1_le
  rw [show e + 1 + -33 = e - 32 by ring] at htail
  have hw := roundsTo_fmul64 fn 0x3DD0B4611A626331
  have hr := roundsTo_fsub64 p (fmul64 fn 0x3FF921FB54400000)
  rw [hfn] at hw
  rw [val_fmul64_pio2_1 hfn (hred.index_le.trans (by norm_num))] at hr
  have hw := (hw (lt_two_zpow_1023 htail (by omega))).rounds
  have herr := hw.error (by omega) htail
  rw [show e - 32 - 54 = e - 86 by ring] at herr
  rw [level1_r, level1_w]
  exact ⟨(hr (lt_two_zpow_1023 (e := 0) hred.residue)).rounds.eq_of_isBinary64 hred.isBinary64_sub, herr,
    hw.abs_le_of_le (.two_zpow (by omega)) htail⟩

theorem level1_holds : LevelHolds (level1 trigDefaults p fn) (val p - n * (limb1 + tail1)) (2 ^ (e - 86)) (e - 32) := by
  obtain ⟨hr, herr, hwle⟩ := level1_values hfn hred
  exact .of_first hred (level1_y0 _ _ _) hr herr hwle

omit hfn in
/-- The limb's multiple is no larger than what it is subtracted from, or the difference is exact (R285, R286). -/
theorem limb_le_or_isBinary64_sub {t c : ℚ} {m g k : ℤ} (hc : c = m * 2 ^ g) (hg : -1074 ≤ g) (hgk : 21 - k ≤ g + 53)
    (ht : OnGrid g t) (hlimb : |c| ≤ 2 ^ (-k)) : |n * c| ≤ |t| ∨ IsBinary64 (t - n * c) := by
  by_cases hle : |n * c| ≤ |t|
  · exact .inl hle
  have hv := abs_mul_le_two_zpow hred.abs_index_le hlimb
  refine .inr (.of_le hg (ht.sub (OnGrid.intCast_mul n ⟨m, hc⟩)) ?_)
  calc |t - n * c| ≤ |t| + |n * c| := abs_sub _ _
    _ ≤ 2 * 2 ^ (20 + -k) := by linarith
    _ = 2 ^ (20 + -k + 1) := (two_zpow_add_one _).symm
    _ ≤ 2 ^ (g + 53) := two_zpow_le (by omega)

/-- The level of a limb of magnitude 2^−k, where as many bits have cancelled. -/
theorem nextLevel_of_reducible {limb tail : Pat .f64} {l : Level} {m g k : ℤ} (hc : val limb = m * 2 ^ g)
    (hm : |m| ≤ 2 ^ 32) (hg : -1074 ≤ g ∧ g ≤ 0) (hk : 33 ≤ k ∧ k ≤ 100) (hgk : 21 - k ≤ g + 53)
    (hgrid : OnGrid g (val l.r)) (hlimb : |val limb| ≤ 2 ^ (-k)) (htail : |val tail| ≤ 2 ^ (-k - 35))
    (hr : |val l.r| + 2 ^ (e - k + 1) ≤ 2 ^ (e - k + 20)) :
    LevelHolds (nextLevel limb tail fn l) (val l.r - n * val limb - n * val tail) (2 ^ (e - k - 86)) (e - k - 33) ∧
      Rounds (val l.r - n * val limb) (val (nextLevel limb tail fn l).r) := by
  have hge := hred.exp_ge
  have hle := hred.exp_le
  have hv := abs_mul_le_two_zpow hred.index hlimb
  have hq := abs_mul_le_two_zpow hred.index htail
  rw [show e + 1 + -k = e - k + 1 by ring] at hv
  rw [show e + 1 + (-k - 35) = e - k - 34 by ring] at hq
  have hstep : (2 : ℚ) ^ (e - k - 33) = 2 * 2 ^ (e - k - 34) := by rw [← two_zpow_add_one]; congr 1; ring
  have hmul := val_fmul64_limb hfn (hred.index_le.trans (by norm_num)) hc hm hg.1 hg.2
  have hrle : |val l.r| ≤ 2 ^ (e - k + 20) := le_trans (le_add_of_nonneg_right (by positivity)) hr
  obtain ⟨⟨hhead, herr, hr', hw⟩, hround⟩ := nextLevel_holds (a := e - k + 20) (c := e - k - 33) hmul hfn
    (limb_le_or_isBinary64_sub hred hc hg.1 hgk hgrid hlimb) ((abs_sub _ _).trans ((add_le_add_right hv _).trans hr)) hq
    (hrle.trans (two_zpow_le (by omega))) (hv.trans (two_zpow_le (by omega)))
    ⟨by omega, ⟨by omega, by omega⟩, by omega, by omega⟩ (by rw [hstep, two_mul, show e - k + 20 - 54 = e - k - 34 by ring])
  refine ⟨⟨hhead, herr.trans ?_, hr', hw⟩, hround⟩
  have hpos : (0 : ℚ) < 2 ^ (e - k) := by positivity
  rw [sub_sub (e - k), sub_sub (e - k), show (34 + 54 : ℤ) = 88 by rfl, show (33 + 54 : ℤ) = 87 by rfl, two_zpow_sub,
    two_zpow_sub, two_zpow_sub]
  linarith

variable (hpos : 0 ≤ e)
include hpos

/-- The second level, where the first cancelled 16 bits (R285). -/
theorem level2_holds (hcancel : |val (level1 trigDefaults p fn).r - val (level1 trigDefaults p fn).w| < 2 ^ (e - 16)) :
    LevelHolds (level2 trigDefaults p fn) (val p - n * (limb1 + limb2 + tail2)) (2 ^ (e - 119)) (e - 66) ∧
    Rounds (val p - n * (limb1 + limb2)) (val (level2 trigDefaults p fn).r) ∧
    OnGrid (-65) (val p - n * (limb1 + limb2)) := by
  obtain ⟨hr, -, hwle⟩ := level1_values hfn hred
  have hgrid : OnGrid (-65) (val (level1 trigDefaults p fn).r) := hr ▸ hred.onGrid_sub.mono (by omega)
  have hsize : |val (level1 trigDefaults p fn).r| + 2 ^ (e - 33 + 1) ≤ 2 ^ (e - 33 + 20) := by
    have hsplit := abs_sub_abs_le_abs_sub (val (level1 trigDefaults p fn).r) (val (level1 trigDefaults p fn).w)
    have hu : (0 : ℚ) < 2 ^ e := by positivity
    rw [two_zpow_sub] at hcancel hwle
    rw [show e - 33 + 1 = e - 32 by ring, show e - 33 + 20 = e - 13 by ring, two_zpow_sub, two_zpow_sub]
    linarith
  obtain ⟨hlevel, hround⟩ := nextLevel_of_reducible (m := 0x85A308D3) hfn hred limb2_eq (by decide) (by decide) (by decide)
    (by decide) hgrid abs_limb2_le abs_tail2_le hsize
  have hlimb : OnGrid (-65) limb2 := ⟨0x85A308D3, limb2_eq⟩
  have hnext := hgrid.sub (hlimb.intCast_mul n)
  rw [hr, sub_sub, ← mul_add] at hlevel hround hnext
  rw [sub_sub, ← mul_add, ← add_assoc, show e - 33 - 86 = e - 119 by ring, show e - 33 - 33 = e - 66 by ring] at hlevel
  rw [level2, trigDefaults_pio2_2, trigDefaults_pio2_2t]
  exact ⟨hlevel, hround, hnext⟩

/-- The third level, where the second cancelled 49 bits: so few are left that the second subtraction was exact (R286). -/
theorem level3_holds (hcancel : |val (level1 trigDefaults p fn).r - val (level1 trigDefaults p fn).w| < 2 ^ (e - 16))
    (hcancel' : |val (level2 trigDefaults p fn).r - val (level2 trigDefaults p fn).w| < 2 ^ (e - 49)) :
    LevelHolds (level3 trigDefaults p fn) (val p - n * (limb1 + limb2 + limb3 + tail3)) (2 ^ (e - 154)) (e - 101) := by
  obtain ⟨⟨-, -, -, hwle⟩, hround, hgrid⟩ := level2_holds hfn hred hpos hcancel
  have hu : (0 : ℚ) < 2 ^ e := by positivity
  have hle := hred.exp_le
  have hsplit := abs_sub_abs_le_abs_sub (val (level2 trigDefaults p fn).r) (val (level2 trigDefaults p fn).w)
  have hsize : |val (level2 trigDefaults p fn).r| + 2 ^ (e - 68 + 1) ≤ 2 ^ (e - 68 + 20) := by
    rw [two_zpow_sub] at hcancel' hwle
    rw [show e - 68 + 1 = e - 67 by ring, show e - 68 + 20 = e - 48 by ring, two_zpow_sub, two_zpow_sub]
    linarith
  have hsmall : |val (level2 trigDefaults p fn).r| < 2 ^ (-12 : ℤ) :=
    (lt_of_lt_of_le (lt_add_of_pos_right _ (by positivity)) hsize).trans_le (two_zpow_le (by omega))
  have hexact := hround.eq_of_isBinary64 (.of_le (by decide) hgrid (hround.abs_lt_of_abs_lt (by decide) hsmall).le)
  obtain ⟨hlevel, -⟩ := nextLevel_of_reducible (m := 0x98CC517) hfn hred limb3_eq (by decide) (by decide) (by decide)
    (by decide) (hexact ▸ hgrid.mono (by decide)) abs_limb3_le abs_tail3_le hsize
  rw [hexact, sub_sub, sub_sub, ← mul_add, ← mul_add, ← add_assoc, show e - 68 - 86 = e - 154 by ring,
    show e - 68 - 33 = e - 101 by ring] at hlevel
  rw [level3, trigDefaults_pio2_3, trigDefaults_pio2_3t]
  exact hlevel

end Levels

end Sys2Proof.Machine

/-! SUPPORT. The quadrant of the medium regime (R283), fused or not: an integer no more than half a unit, and two small roundings,
from the exact quotient. -/

namespace Sys2Proof.Machine

/-- The default constants and thresholds with either quadrant multiply (R283, log 7). -/
abbrev trigWith (fused : Bool) : TrigParams := { trigDefaults with fused := fused }

theorem val_toInt : val (F := .f64) 0x4338000000000000 = 6755399441055744 := by decide +kernel

theorem val_invPio2_bounds : 0.63661977 ≤ invHalfPi ∧ invHalfPi ≤ 0.63661978 := by
  decide +kernel

/-- Adding and taking away 1.5·2^52 rounds to an integer. -/
theorem round_by_toInt {s : ℚ} {tmp : Pat .f64} (hs : |s| ≤ 2 ^ (22 : ℤ))
    (htmp : Rounds (s + val (F := .f64) 0x4338000000000000) (val tmp)) :
    ∃ n : ℤ, val (fsub64 tmp 0x4338000000000000) = n ∧ |n - s| ≤ 1 / 2 := by
  rw [val_toInt] at htmp
  obtain ⟨hlo, hhi⟩ := abs_le.mp hs
  have hle : |s + 6755399441055744| ≤ 2 ^ (53 : ℤ) := by
    norm_num at hlo hhi ⊢
    exact abs_le.mpr ⟨by linarith, by linarith⟩
  have hge : 2 ^ (52 : ℤ) ≤ |s + 6755399441055744| := by
    norm_num at hlo hhi ⊢
    exact le_abs.mpr (.inl (by linarith))
  obtain ⟨m, hm⟩ := htmp.isBinary64.onGrid_of_le (g := 0) (htmp.le_abs_of_le (.two_zpow (by decide)) hge)
  have herr := htmp.error (by decide) hle
  rw [zpow_zero, mul_one] at hm
  obtain ⟨n, rfl⟩ : ∃ n : ℤ, m = n + 6755399441055744 := ⟨m - 6755399441055744, by ring⟩
  push_cast at hm
  rw [hm, add_sub_add_right_eq_sub, show (53 : ℤ) - 54 = -1 by rfl, zpow_neg_one, ← one_div] at herr
  have hsmall : |(n : ℚ)| ≤ 2 ^ (23 : ℤ) := by
    have hsplit := abs_sub_abs_le_abs_sub (n : ℚ) s
    norm_num at hs ⊢
    linarith
  have hround := roundsTo_fsub64 tmp 0x4338000000000000
  rw [hm, val_toInt, add_sub_cancel_right] at hround
  refine ⟨n, (hround (lt_two_zpow_1023 hsmall)).rounds.eq_of_isBinary64 (.intCast ?_), herr⟩
  have hsmall' : |n| ≤ 2 ^ 23 := by exact_mod_cast hsmall
  exact hsmall'.trans (by norm_num)

/-- The exact quotient the quadrant rounds: x times the constant for 2/π. -/
def quotientOf (p : Pat .f64) : ℚ := val p * invHalfPi

theorem quadrant_trigWith (fused : Bool) (p : Pat .f64) : quadrant (trigWith fused) p =
    fsub64 (if fused then fma64 p 0x3FE45F306DC9C883 0x4338000000000000
      else fadd64 (fmul64 p 0x3FE45F306DC9C883) 0x4338000000000000) 0x4338000000000000 := by
  simp only [quadrant, trigDefaults]

/-- The quadrant is an integer close to the exact quotient. -/
theorem exists_quadrant (fused : Bool) {p : Pat .f64} (hp : |val p| ≤ 2 ^ (21 : ℤ)) :
    ∃ n : ℤ, val (quadrant (trigWith fused) p) = n ∧ |n - quotientOf p| ≤ 1 / 2 + 1 / 2 ^ 33 := by
  unfold quotientOf
  have hq : |val p * invHalfPi| ≤ 2 ^ (21 : ℤ) := by
    obtain ⟨hlo, hhi⟩ := val_invPio2_bounds
    rw [abs_mul, ← mul_one (2 ^ (21 : ℤ))]
    exact mul_le_mul hp (abs_le.mpr ⟨by linarith, by linarith⟩) (abs_nonneg _) (by positivity)
  have hsum {s : ℚ} (hs : |s| ≤ 2 ^ (22 : ℤ)) : |s + val (F := .f64) 0x4338000000000000| ≤ 2 ^ (53 : ℤ) := by
    rw [val_toInt]
    refine (abs_add_le _ _).trans ((add_le_add_left hs _).trans ?_)
    norm_num
  rw [quadrant_trigWith]
  cases fused <;> simp only [Bool.false_eq_true, if_false, if_true]
  · have hmul := roundsTo_fmul64 p 0x3FE45F306DC9C883 (lt_two_zpow_1023 hq)
    have hle : |val (fmul64 p 0x3FE45F306DC9C883)| ≤ 2 ^ (22 : ℤ) :=
      (hmul.rounds.abs_le_of_le (.two_zpow (by decide)) hq).trans (two_zpow_le (by decide))
    obtain ⟨n, hval, herr⟩ := round_by_toInt hle (roundsTo_fadd64 _ _ (lt_two_zpow_1023 (hsum hle))).rounds
    refine ⟨n, hval, (abs_sub_le _ (val (fmul64 p 0x3FE45F306DC9C883)) _).trans (add_le_add herr ?_)⟩
    refine (hmul.rounds.error (by decide) hq).trans ?_
    norm_num
  · have hle := hq.trans (two_zpow_le (by decide : (21 : ℤ) ≤ 22))
    obtain ⟨n, hval, herr⟩ := round_by_toInt hle (roundsTo_fma64 _ _ _ (lt_two_zpow_1023 (hsum hle))).rounds
    exact ⟨n, hval, herr.trans (by norm_num)⟩

end Sys2Proof.Machine

/-! SUPPORT. The distance of a reduction's results from x − n·π/2, regime by regime (R288, R296, R297). -/

namespace Sys2Proof.Machine

/-- The results are finite, as close to x − n·π/2 as the bits say, and that residual is little more than π/4. -/
structure Reduces (p : Pat .f64) (bits : ℕ) (r : Reduction) : Prop where
  finite_y0 : isFinite (F := .f64) r.y0 = true
  finite_y1 : isFinite (F := .f64) r.y1 = true
  close : |(val p : ℝ) - (r.n.toInt * (Real.pi / 2) + (val (F := .f64) r.y0 : ℝ) + (val (F := .f64) r.y1 : ℝ))| ≤
    |(val p : ℝ)| / 2 ^ bits
  residual : |(val p : ℝ) - r.n.toInt * (Real.pi / 2)| ≤ 785405 / 10 ^ 6

/-! The error of the constants (R272). -/

/-- A tail is within 2^−k of what is left of π/2 after the limbs. -/
def TailClose (c t : ℚ) (k : ℤ) : Prop := |(t : ℝ) - (Real.pi / 2 - c)| ≤ 2 ^ (-k)

theorem tailClose_1 : TailClose limb1 tail1 87 := by
  obtain ⟨-, -, ⟨-, -, -, -, -, h⟩, -⟩ := constantsOfPi_trigDefaults
  exact h

theorem tailClose_2 : TailClose (limb1 + limb2) tail2 122 := by
  obtain ⟨-, -, -, -, ⟨-, -, -, -, -, h⟩, -⟩ := constantsOfPi_trigDefaults
  rw [TailClose, Rat.cast_add, ← sub_sub]
  exact h

theorem tailClose_3 : TailClose (limb1 + limb2 + limb3) tail3 157 := by
  obtain ⟨-, -, -, -, -, -, ⟨-, -, -, -, -, h⟩, -⟩ := constantsOfPi_trigDefaults
  rw [TailClose, Rat.cast_add, Rat.cast_add, ← sub_sub, ← sub_sub]
  exact h

/-- What a level leaves, against n multiples of its constants, and those against π/2. -/
theorem close_of_error {x y0 y1 c t ε : ℚ} {n e k : ℤ} {bits : ℕ} (hx : Reducible x n e) (hconst : TailClose c t k)
    (herr : |y0 + y1 - (x - n * (c + t))| ≤ ε) (hsum : ε + 2 ^ (e + 1 - k) ≤ 2 ^ e / 2 ^ bits) :
    |(x : ℝ) - (n * (Real.pi / 2) + y0 + y1)| ≤ |(x : ℝ)| / 2 ^ bits := by
  have hlow := Rat.cast_le (K := ℝ).mpr hx.low
  have hindex := Rat.cast_le (K := ℝ).mpr hx.index
  have herr' := Rat.cast_le (K := ℝ).mpr herr
  have hsum' := Rat.cast_le (K := ℝ).mpr hsum
  push_cast at hlow hindex herr' hsum'
  have hmul : |(n : ℝ) * (t - (Real.pi / 2 - c))| ≤ 2 ^ (e + 1 - k) := by
    rw [abs_mul, sub_eq_add_neg (e + 1), zpow_add₀ two_ne_zero]
    exact mul_le_mul hindex hconst (abs_nonneg _) (by positivity)
  calc |(x : ℝ) - (n * (Real.pi / 2) + y0 + y1)|
      = |-(y0 + y1 - (x - n * (c + t))) + n * (t - (Real.pi / 2 - c))| := by congr 1; ring
    _ ≤ ε + 2 ^ (e + 1 - k) := (abs_add_le _ _).trans (add_le_add (by rwa [abs_neg]) hmul)
    _ ≤ 2 ^ e / 2 ^ bits := hsum'
    _ ≤ |(x : ℝ)| / 2 ^ bits := by gcongr

section Level

variable {p : Pat .f64} {l : Level} {c t ε : ℚ} {n e k b : ℤ} {m : BitVec 32} {bits : ℕ} (hx : Reducible (val p) n e)
  (hlevel : LevelHolds l (val p - n * (c + t)) ε b) (hconst : TailClose c t k) (hb : b ≤ 11) (hm : m.toInt = n)
  (hres : |(val p : ℝ) - n * (Real.pi / 2)| ≤ 785405 / 10 ^ 6)
include hx hlevel hconst hb hm hres

/-- The last level engaged gives the results but for the error δ of the three subtractions (R287, R288). -/
theorem reduces_of_level {δ : ℚ} (htail : ∀ y0 y1, TailRounds (val l.r) (val l.w) y0 y1 → |y0 + y1 - (val l.r - val l.w)| ≤ δ)
    (hsum : δ + ε + 2 ^ (e + 1 - k) ≤ 2 ^ e / 2 ^ bits) : Reduces p bits (l.reduction m) := by
  obtain ⟨hrounds, hy0, hy1⟩ := hlevel.tailRounds hb m
  refine ⟨hy0, hy1, ?_, hm ▸ hres⟩
  rw [show (l.reduction m).n.toInt = n from hm]
  exact close_of_error hx hconst ((abs_sub_le _ (val l.r - val l.w) _).trans (add_le_add (htail _ _ hrounds) hlevel.error)) hsum

/-- When w is no larger than r the three subtractions are exact. -/
theorem reduces_of_level_of_le (hle : |val l.w| ≤ |val l.r|) (hsum : ε + 2 ^ (e + 1 - k) ≤ 2 ^ e / 2 ^ bits) :
    Reduces p bits (l.reduction m) :=
  reduces_of_level hx hlevel hconst hb hm hres (δ := 0) (fun y0 y1 h => by rw [h.add_eq hle, sub_self, abs_zero])
    (by rwa [zero_add])

end Level

/-- The first level's errors: 85 bits. -/
theorem level1_error_sum (e : ℤ) : (2 : ℚ) ^ (e - 86) + 2 ^ (e + 1 - 87) ≤ 2 ^ e / 2 ^ 85 := by
  have hu : (0 : ℚ) < 2 ^ e := by positivity
  rw [show e + 1 - 87 = e - 86 by ring, two_zpow_sub]
  linarith

/-! The small and the direct regime (R274, R277). -/

theorem reduces_small {p : Pat .f64} (h : highWord p ≤ 0x3FE921FB) : Reduces p 85 (reduceSmall p) := by
  have hfinite : highWord p < 0x7FF00000 := h.trans_lt (by decide)
  have hfloor : floorBits trigDefaults p = some 85 := by simp only [floorBits, regimeOf_small (T := trigDefaults) h hfinite]
  have hbound : |val p| ≤ 785405 / 10 ^ 6 := by
    have hword : highWord 0x3FE921FC00000000 = 0x3FE921FC := by decide
    have hlt := abs_val_lt_of_highWord_lt (p := p) (q := 0x3FE921FC00000000) (by omega)
    exact hlt.le.trans (by decide +kernel)
  have hbound' := Rat.cast_le (K := ℝ).mpr hbound
  push_cast at hbound'
  obtain ⟨hy0, hy1, hclose⟩ := meetsFloor_small trigDefaults p (isFinite_of_highWord hfinite) 85 hfloor
  exact ⟨hy0, hy1, hclose, by simpa [reduceSmall] using hbound'⟩

/-- The first limb is π/2 but for 2^−33. -/
theorem abs_sub_pio2_1_le : |Real.pi / 2 - limb1| ≤ 2 ^ (-33 : ℤ) := by
  obtain ⟨-, -, ⟨-, -, -, hlo, hhi, -⟩, -⟩ := constantsOfPi_trigDefaults
  exact abs_le.mpr ⟨(neg_nonpos.mpr (by positivity)).trans ((by positivity : (0 : ℝ) ≤ _).trans hlo), hhi.le⟩

theorem fsub64_negate64 (a b : Pat .f64) : fsub64 a (negate64 b) = fadd64 a b := by
  rw [fsub64, negate64, negate64, BitVec.xor_assoc, BitVec.xor_self, BitVec.xor_zero]

/-- The operations of the direct regime on a negative operand, as those of a level (R277). -/
def negLevel (k : ℕ) (p : Pat .f64) : Level :=
  { r := fadd64 p (fmul64 (f64OfInt k) 0x3FF921FB54400000)
    w := negate64 (fmul64 (f64OfInt k) 0x3DD0B4611A626331)
    y0 := fsub64 (fadd64 p (fmul64 (f64OfInt k) 0x3FF921FB54400000)) (negate64 (fmul64 (f64OfInt k) 0x3DD0B4611A626331)) }

theorem negLevel_y0 (k : ℕ) (p : Pat .f64) : (negLevel k p).y0 = fsub64 (negLevel k p).r (negLevel k p).w := by
  rw [negLevel]

theorem reduceDirect_eq_reduction_of_neg {k : ℕ} {p : Pat .f64} (hs : signOf p = true) :
    reduceDirect trigDefaults k p = (negLevel k p).reduction (-BitVec.ofNat 32 k) := by
  rw [reduceDirect_of_neg _ _ hs, trigDefaults_pio2_1, trigDefaults_pio2_1t, Level.reduction, negLevel]
  simp only [fsub64_negate64]

section Direct

variable {k : ℕ} {p : Pat .f64} (h : InDirectBracket k (highWord p))
include h

/-- The residual of an operand of a bracket, by its distance from the limb's multiple. -/
theorem residual_direct : |(|val p| : ℝ) - k * (Real.pi / 2)| ≤ 785405 / 10 ^ 6 := by
  have hfar := Rat.cast_le (K := ℝ).mpr (nearMultiple_of_inDirectBracket h).not_far
  have hk : (k : ℝ) ≤ 4 := by
    unfold InDirectBracket at h
    exact_mod_cast (by omega : k ≤ 4)
  have hlimb : |(k : ℝ) * (Real.pi / 2 - limb1)| ≤ 4 * 2 ^ (-33 : ℤ) := by
    rw [abs_mul, Nat.abs_cast]
    exact mul_le_mul hk abs_sub_pio2_1_le (abs_nonneg _) (by norm_num)
  rw [Rat.cast_abs, Rat.cast_sub, Rat.cast_abs, Rat.cast_mul, Rat.cast_natCast] at hfar
  calc |(|val p| : ℝ) - k * (Real.pi / 2)|
      = |((|val p| : ℝ) - k * limb1) - k * (Real.pi / 2 - limb1)| := by congr 1; ring
    _ ≤ _ := (abs_sub _ _).trans (add_le_add hfar hlimb)
    _ ≤ 785405 / 10 ^ 6 := by norm_num

theorem toInt_direct : (BitVec.ofNat 32 k).toInt = k ∧ (-BitVec.ofNat 32 k).toInt = -k := by
  unfold InDirectBracket at h
  obtain ⟨rfl, -⟩ | ⟨rfl, -⟩ | ⟨rfl, -⟩ | ⟨rfl, -⟩ := h <;> decide

/-- The rounded multiple of the tail, and that it is smaller than the first difference, since the operand is not near. -/
theorem direct_tail : |val (fmul64 (f64OfInt k) 0x3DD0B4611A626331) - k * tail1| ≤ 2 ^ ((expf p : ℤ) - 1023 - 86) ∧
    |val (fmul64 (f64OfInt k) 0x3DD0B4611A626331)| ≤ 2 ^ ((expf p : ℤ) - 1023 - 32) ∧
    |val (fmul64 (f64OfInt k) 0x3DD0B4611A626331)| ≤ |(|val p| - k * limb1)| := by
  have hred := reducible_of_inDirectBracket h
  have hge := hred.exp_ge
  have hexp : expf p ≤ 1025 := by
    rw [← highWord_div_eq_expf]
    unfold InDirectBracket at h
    omega
  have hle := abs_mul_le_two_zpow hred.index abs_tail1_le
  rw [Int.cast_natCast, show (expf p : ℤ) - 1023 + 1 + -33 = expf p - 1023 - 32 by ring] at hle
  have hround := roundsTo_fmul64 (f64OfInt k) 0x3DD0B4611A626331
  rw [val_f64OfInt (hred.index_le.trans_lt (by norm_num)), Int.cast_natCast] at hround
  have hw := (hround (lt_two_zpow_1023 hle (by omega))).rounds
  have herr := hw.error (by omega) hle
  rw [show (expf p : ℤ) - 1023 - 32 - 54 = expf p - 1023 - 86 by ring] at herr
  have hwle := hw.abs_le_of_le (.two_zpow (by omega)) hle
  exact ⟨herr, hwle, hwle.trans ((two_zpow_le (by omega)).trans (nearMultiple_of_inDirectBracket h).not_near)⟩

theorem reduces_direct : Reduces p 85 (reduceDirect trigDefaults k p) := by
  have hred := reducible_of_inDirectBracket h
  have hres := residual_direct h
  have hexp := hred.exp_le
  obtain ⟨herr, hwle, hle⟩ := direct_tail h
  obtain ⟨hpos, hneg⟩ := toInt_direct h
  cases hs : signOf p
  · have hr := val_direct_first_of_nonneg h hs
    have hfn : val (f64OfInt k) = ((k : ℤ) : ℚ) := val_f64OfInt (hred.index_le.trans_lt (by norm_num))
    rw [← val_of_nonneg hs] at hred hle
    rw [← Rat.cast_abs, ← val_of_nonneg hs] at hres
    rw [← hr, ← level1_r, ← level1_w p] at hle
    rw [reduceDirect_of_nonneg _ _ hs]
    exact reduces_of_level_of_le hred (level1_holds hfn hred) tailClose_1 (by omega) hpos hres hle (level1_error_sum _)
  · have hr := val_direct_first_of_neg h hs
    have hsum : val p + k * limb1 = -(|val p| - k * limb1) := by
      rw [neg_sub, sub_eq_add_neg, ← val_of_neg hs, add_comm]
    have hx : (val p : ℝ) = -|(val p : ℝ)| := by exact_mod_cast congrArg (Rat.cast (K := ℝ)) (val_of_neg hs)
    have hred := hred.neg
    rw [← val_of_neg hs] at hred
    rw [reduceDirect_eq_reduction_of_neg hs]
    refine reduces_of_level_of_le hred (.of_first hred (negLevel_y0 k p) ?_ ?_ ?_) tailClose_1 (by omega) hneg ?_ ?_
      (level1_error_sum _)
    · rw [negLevel, hr, Int.cast_neg, Int.cast_natCast, neg_mul, sub_neg_eq_add]
    · rw [negLevel, val_negate64, Int.cast_neg, Int.cast_natCast, neg_mul, ← neg_sub', abs_neg]
      exact herr
    · rw [negLevel, val_negate64, abs_neg]
      exact hwle
    · rw [hx, Int.cast_neg, Int.cast_natCast, neg_mul, ← neg_sub', abs_neg]
      exact hres
    · rw [negLevel, val_negate64, abs_neg, hr, hsum, abs_neg]
      exact hle

end Direct

end Sys2Proof.Machine

/-! SUPPORT. The medium regime's results (R288), and the precision floors of every regime. -/

namespace Sys2Proof.Machine

/-- Every high word below the large regime's is small, in a bracket or in the medium rows. -/
theorem rows_exhaust {ix : ℕ} (h : ix < 0x413921FB) :
    ix ≤ 0x3FE921FB ∨ (∃ k, InDirectBracket k ix) ∨ InMediumRows ix := by
  by_cases hm : InMediumRows ix
  · exact .inr (.inr hm)
  simp only [InMediumRows, List.mem_cons, List.not_mem_nil, or_false, not_or, not_and, not_lt] at hm
  obtain ⟨hhi, hk1, hk2, hk3, hk4⟩ := hm
  by_cases h1 : ix ≤ 0x3FE921FB
  · exact .inl h1
  refine .inr (.inl ?_)
  by_cases h3 : ix ≤ 0x4002D97C
  · exact ⟨1, .inl (by omega)⟩
  by_cases h5 : ix ≤ 0x400F6A7A
  · exact ⟨2, .inr (.inl (by omega))⟩
  by_cases h7 : ix ≤ 0x4015FDBC
  · exact ⟨3, .inr (.inr (.inl (by omega)))⟩
  · exact ⟨4, .inr (.inr (.inr (by omega)))⟩

theorem pio2_1_inverse : |limb1| ≤ 1.5708 ∧ |1 - invHalfPi * limb1| ≤ 1 / 2 ^ 33 := by decide +kernel

/-- The constant for 2/π against π/2. -/
theorem abs_one_sub_inv_mul_pi_le : |1 - (invHalfPi : ℝ) * (Real.pi / 2)| ≤ 1 / 2 ^ 53 := by
  obtain ⟨⟨-, -, -, -, -, hround⟩, -⟩ := constantsOfPi_trigDefaults
  have hround : |(invHalfPi : ℝ) - 2 / Real.pi| ≤ 2 ^ (-54 : ℤ) := hround
  have hpi : |Real.pi / 2| ≤ 2 := abs_le.mpr ⟨by linarith [Real.pi_pos], by linarith [Real.pi_lt_d4]⟩
  have hmul := mul_le_mul hround hpi (abs_nonneg _) (by positivity)
  rw [← abs_mul] at hmul
  have hsplit : 1 - (invHalfPi : ℝ) * (Real.pi / 2) =
      -((invHalfPi - 2 / Real.pi) * (Real.pi / 2)) := by
    have := Real.pi_ne_zero
    field_simp
    ring
  rw [hsplit, abs_neg]
  exact hmul.trans (by norm_num)

section Medium

variable {p : Pat .f64} (h : InMediumRows (highWord p))
include h

theorem medium_bounds : (3 / 2 ≤ |val p| ∧ |val p| ≤ 1647099) ∧ 1023 ≤ expf p ∧ expf p ≤ 1043 := by
  have hword : 0x3FF921FB ≤ highWord p ∧ highWord p < 0x413921FB := by
    unfold InMediumRows at h
    simp only [List.mem_cons, List.not_mem_nil, or_false] at h
    omega
  have hlo : highWord 0x3FF921FB00000000 = 0x3FF921FB := by decide
  have hhi : highWord 0x413921FB00000000 = 0x413921FB := by decide
  have hlow := abs_val_le_of_highWord_le (p := p) (q := 0x3FF921FB00000000) (by omega) (by decide)
  have hhigh := abs_val_lt_of_highWord_lt (p := p) (q := 0x413921FB00000000) (by omega)
  refine ⟨⟨le_trans (by decide +kernel) hlow, hhigh.le.trans (by decide +kernel)⟩, ?_⟩
  rw [← highWord_div_eq_expf]
  omega

variable {n : ℤ} (hn : |n - quotientOf p| ≤ 1 / 2 + 1 / 2 ^ 33)
include hn

omit h in
/-- The quadrant is no larger than x·(2/π) and half a unit. -/
theorem abs_quadrant_le : |(n : ℚ)| ≤ 0.63661978 * |val p| + (1 / 2 + 1 / 2 ^ 33) := by
  obtain ⟨hlo, hhi⟩ := val_invPio2_bounds
  have hq : |quotientOf p| ≤ 0.63661978 * |val p| := by
    rw [quotientOf, abs_mul, abs_of_pos (a := invHalfPi) (by linarith), mul_comm]
    exact mul_le_mul_of_nonneg_right hhi (abs_nonneg _)
  have hsplit := abs_sub_abs_le_abs_sub (n : ℚ) (quotientOf p)
  linarith

theorem reducible_medium : Reducible (val p) n ((expf p : ℤ) - 1023) := by
  obtain ⟨⟨hlow, hhigh⟩, hexp, hexp'⟩ := medium_bounds h
  obtain ⟨hbin, hbin'⟩ := abs_val_mem_binade (p := p) (by omega)
  have habs := abs_quadrant_le hn
  have hindex : |n| < 2 ^ 20 + 1 := by
    have hlt : |(n : ℚ)| < 2 ^ 20 + 1 := by
      norm_num at habs ⊢
      linarith
    exact_mod_cast hlt
  refine ⟨.val p, hbin, hbin', by omega, by omega, ?_, Int.lt_add_one_iff.mp hindex, ?_⟩
  · norm_num at habs
    linarith
  · obtain ⟨hP, hinv⟩ := pio2_1_inverse
    have hfirst := mul_le_mul hn hP (abs_nonneg _) (by norm_num)
    have hsecond := mul_le_mul hhigh hinv (abs_nonneg _) (by norm_num)
    rw [← abs_mul] at hfirst hsecond
    rw [show val p - n * limb1 = val p * (1 - invHalfPi * limb1) - (n - quotientOf p) * limb1 by rw [quotientOf]; ring]
    exact (abs_sub _ _).trans ((add_le_add hsecond hfirst).trans (by norm_num))

theorem residual_medium : |(val p : ℝ) - n * (Real.pi / 2)| ≤ 785405 / 10 ^ 6 := by
  obtain ⟨⟨-, hhigh⟩, -⟩ := medium_bounds h
  have hhigh' := Rat.cast_le (K := ℝ).mpr hhigh
  have hn' := Rat.cast_le (K := ℝ).mpr hn
  rw [Rat.cast_abs] at hhigh' hn'
  rw [Rat.cast_sub, Rat.cast_intCast, quotientOf, Rat.cast_mul] at hn'
  have hpi : |Real.pi / 2| ≤ 1.5708 := abs_le.mpr ⟨by linarith [Real.pi_pos], by linarith [Real.pi_lt_d4]⟩
  have hfirst := mul_le_mul hn' hpi (abs_nonneg _) (by norm_num)
  have hsecond := mul_le_mul hhigh' abs_one_sub_inv_mul_pi_le (abs_nonneg _) (by norm_num)
  rw [← abs_mul] at hfirst hsecond
  rw [show (val p : ℝ) - n * (Real.pi / 2) = val p * (1 - invHalfPi * (Real.pi / 2)) -
      (n - val p * invHalfPi) * (Real.pi / 2) by ring]
  refine (abs_sub _ _).trans ((add_le_add hsecond hfirst).trans ?_)
  push_cast
  norm_num

end Medium

/-! The levels of the medium regime. -/

section TrigWith

variable (fused : Bool) (p fn : Pat .f64)

theorem level1_trigWith : level1 (trigWith fused) p fn = level1 trigDefaults p fn := by
  simp only [level1]

theorem level2_trigWith : level2 (trigWith fused) p fn = level2 trigDefaults p fn := by
  simp only [level2, level1_trigWith]

theorem level3_trigWith : level3 (trigWith fused) p fn = level3 trigDefaults p fn := by
  simp only [level3, level2_trigWith]

theorem regimeOf_trigWith (ix : ℕ) : regimeOf (trigWith fused) ix = regimeOf trigDefaults ix := rfl

theorem reduceDirect_trigWith (k : ℕ) : reduceDirect (trigWith fused) k p = reduceDirect trigDefaults k p := by
  simp only [reduceDirect]

end TrigWith

theorem intOfF64_of_val_eq {p : Pat .f64} {n : ℤ} (h : val p = n) : intOfF64 p = n := by
  have hone := unitsOfOne_pos .f64
  rw [val_eq_signedUnits, unitValue_eq_inv, mul_inv_eq_iff_eq_mul₀ (by exact_mod_cast hone.ne')] at h
  have hunits : signedUnits p = n * unitsOfOne .f64 := by exact_mod_cast h
  rw [intOfF64, hunits, Int.mul_tdiv_cancel _ (by exact_mod_cast hone.ne')]

theorem toInt_ofInt_quadrant {n : ℤ} (h : |n| ≤ 2 ^ 20) : (BitVec.ofInt 32 n).toInt = n := by
  obtain ⟨hlo, hhi⟩ := abs_le.mp h
  rw [BitVec.toInt_ofInt]
  exact Int.bmod_eq_of_le (by omega) (by omega)

section LastLevel

variable {l : Level} {target ε : ℚ} {b e : ℤ} {gap : ℕ} {p : Pat .f64} (hlevel : LevelHolds l target ε b)
  (he : e = (expf p : ℤ) - 1023) (hrange : 1 ≤ gap ∧ gap < expf p ∧ expf p ≤ 1043)
include hlevel he hrange

/-- The test of R285 and R286 bounds `r − w`. -/
theorem abs_sub_lt_of_cancelled (hc : cancelled (highWord p / 2 ^ 20) gap l.y0 = true) :
    |val l.r - val l.w| < 2 ^ (e - gap) :=
  hlevel.head.rounds.abs_lt_of_abs_lt (by omega) (abs_val_lt_of_cancelled he hc)

/-- A level that cancelled few bits has its w below its r. -/
theorem abs_w_le_abs_r_of_not_cancelled (hb : b ≤ e - gap - 2) (hc : cancelled (highWord p / 2 ^ 20) gap l.y0 = false) :
    |val l.w| ≤ |val l.r| := by
  have hlt := hlevel.head.rounds.lt_abs_of_le_abs (by omega) (le_abs_val_of_not_cancelled he hrange.2.1 hc)
  have hw := hlevel.abs_w_le.trans (two_zpow_le hb)
  have hsplit := abs_sub (val l.r) (val l.w)
  rw [show e - gap - 1 = e - gap - 2 + 1 by ring, two_zpow_add_one] at hlt
  linarith

end LastLevel

theorem level2_error_sum (e : ℤ) : (2 : ℚ) ^ (e - 119) + 2 ^ (e + 1 - 122) ≤ 2 ^ e / 2 ^ 118 := by
  have hu : (0 : ℚ) < 2 ^ e := by positivity
  rw [show e + 1 - 122 = e - 121 by ring, two_zpow_sub, two_zpow_sub]
  linarith

theorem level3_error_sum (e : ℤ) : (2 : ℚ) ^ (e - 101 - 51) + 2 ^ (e - 154) + 2 ^ (e + 1 - 157) ≤ 2 ^ e / 2 ^ 151 := by
  have hu : (0 : ℚ) < 2 ^ e := by positivity
  rw [show e + 1 - 157 = e - 156 by ring, show e - 101 - 51 = e - 152 by ring, two_zpow_sub, two_zpow_sub, two_zpow_sub]
  linarith

/-- The results of the medium regime meet the floor of the last level engaged. -/
theorem reduces_medium (fused : Bool) {p : Pat .f64} (h : InMediumRows (highWord p)) :
    ∃ bits, floorBits (trigWith fused) p = some bits ∧ 85 ≤ bits ∧ Reduces p bits (reduceMedium (trigWith fused) p) := by
  obtain ⟨⟨-, hhigh⟩, hexp, hexp'⟩ := medium_bounds h
  obtain ⟨n, hfn, hn⟩ := exists_quadrant fused (p := p) (hhigh.trans (by norm_num))
  have hred := reducible_medium h hn
  have hres := residual_medium h hn
  have hm : (BitVec.ofInt 32 (intOfF64 (quadrant (trigWith fused) p))).toInt = n := by
    rw [intOfF64_of_val_eq hfn, toInt_ofInt_quadrant hred.index_le]
  have hregime := (regimeOf_trigWith fused _).trans (regimeOf_of_inMediumRows h)
  rw [reduceMedium_eq]
  obtain ⟨fn, hquadrant⟩ : ∃ fn, quadrant (trigWith fused) p = fn := ⟨_, rfl⟩
  rw [hquadrant] at hfn hm ⊢
  obtain ⟨e, he⟩ : ∃ e, e = (expf p : ℤ) - 1023 := ⟨_, rfl⟩
  rw [← he] at hred
  have hu : (0 : ℚ) < 2 ^ e := by positivity
  have hlevel1 := level1_holds hfn hred
  have hcases := levelsEngaged_cases (trigWith fused) p fn
  simp only [level1_trigWith, level2_trigWith, level3_trigWith] at hcases
  obtain ⟨hengaged, hlast, hc⟩ | ⟨hengaged, hlast, hc, hc'⟩ | ⟨hengaged, hlast, hc, hc'⟩ := hcases <;> rw [hlast]
  · refine ⟨85, by simp only [floorBits, hregime, hquadrant, hengaged], le_rfl, ?_⟩
    have hle := abs_w_le_abs_r_of_not_cancelled hlevel1 he (by omega) (by norm_num; omega) hc
    exact reduces_of_level_of_le hred hlevel1 tailClose_1 (by omega) hm hres hle (level1_error_sum e)
  · refine ⟨118, by simp only [floorBits, hregime, hquadrant, hengaged], by decide, ?_⟩
    have hbits := abs_sub_lt_of_cancelled hlevel1 he (by omega) hc
    obtain ⟨hlevel2, -⟩ := level2_holds hfn hred (by omega) hbits
    have hle := abs_w_le_abs_r_of_not_cancelled hlevel2 he (by omega) (by norm_num; omega) hc'
    exact reduces_of_level_of_le hred hlevel2 tailClose_2 (by omega) hm hres hle (level2_error_sum e)
  · refine ⟨151, by simp only [floorBits, hregime, hquadrant, hengaged], by decide, ?_⟩
    have hbits := abs_sub_lt_of_cancelled hlevel1 he (by omega) hc
    obtain ⟨hlevel2, -⟩ := level2_holds hfn hred (by omega) hbits
    have hbits' := abs_sub_lt_of_cancelled hlevel2 he (by omega) hc'
    have hlevel3 := level3_holds hfn hred (by omega) hbits hbits'
    exact reduces_of_level hred hlevel3 tailClose_3 (by omega) hm hres
      (fun y0 y1 htail => htail.abs_add_sub_le_of_abs_w_le (by omega) hlevel3.abs_w_le) (level3_error_sum e)

/-- Below the large regime the floor that applies is met. -/
theorem reduces_below_large (fused : Bool) (f : LrrRequest → LrrResponse) {p : Pat .f64} (h : highWord p < 0x413921FB) :
    ∃ bits, floorBits (trigWith fused) p = some bits ∧ 85 ≤ bits ∧ Reduces p bits (remPio2 (trigWith fused) f p).1 := by
  obtain hs | ⟨k, hk⟩ | hm := rows_exhaust h
  · have hregime := regimeOf_small (T := trigWith fused) hs (hs.trans_lt (by decide))
    refine ⟨85, by simp only [floorBits, hregime], le_rfl, ?_⟩
    rw [remPio2_of_small f hregime]
    exact reduces_small hs
  · have hregime := (regimeOf_trigWith fused _).trans (regimeOf_of_inDirectBracket hk)
    refine ⟨85, by simp only [floorBits, hregime], le_rfl, ?_⟩
    rw [remPio2_of_direct f hregime, reduceDirect_trigWith]
    exact reduces_direct hk
  · rw [remPio2_of_medium f ((regimeOf_trigWith fused _).trans (regimeOf_of_inMediumRows hm))]
    exact reduces_medium fused hm

theorem highWord_lt_of_floorBits {fused : Bool} {p : Pat .f64} {bits : ℕ} (h : floorBits (trigWith fused) p = some bits) :
    highWord p < 0x413921FB := by
  by_contra hlarge
  by_cases hfinite : highWord p < 0x7FF00000
  · have hregime := (regimeOf_trigWith fused _).trans (regimeOf_eq_large_iff.mpr ⟨not_lt.mp hlarge, hfinite⟩)
    simp only [floorBits, hregime, reduceCtorEq] at h
  · have hregime := regimeOf_nonFinite (trigWith fused) (not_lt.mp hfinite)
    simp only [floorBits, hregime, reduceCtorEq] at h

/-- The defaults meet the floors, with either quadrant multiply. -/
theorem precisionFloors_trigWith (fused : Bool) : PrecisionFloors (trigWith fused) := by
  intro f p bits hbits
  obtain ⟨bits', hbits', -, hreduces⟩ := reduces_below_large fused f (highWord_lt_of_floorBits hbits)
  obtain rfl : bits' = bits := Option.some.inj (hbits'.symm.trans hbits)
  exact ⟨hreduces.finite_y0, hreduces.finite_y1, hreduces.close⟩

theorem setWidth_zext128 {n : ℕ} (h : n ≤ 128) (v : BitVec n) : (zext128 v).setWidth n = v := by
  rw [zext128, BitVec.setWidth_setWidth_of_le _ h, BitVec.setWidth_eq]

theorem setWidth_sext128 (v : BitVec 32) : (sext128 v).setWidth 32 = v := by
  rw [sext128]
  ext i hi
  rw [BitVec.getElem_setWidth, BitVec.getLsbD_signExtend, if_pos hi, BitVec.getLsbD_eq_getElem hi,
    decide_eq_true (by omega : i < 128), Bool.true_and]

/-- The three destinations are different registers (R271). -/
theorem readX_after_three_writes (rd : RegNum) (a b c : Word) (s : State) :
    readX (writeX (rd + 2) c (writeX (rd + 1) b (writeX rd a s))) rd = a ∧
    readX (writeX (rd + 2) c (writeX (rd + 1) b (writeX rd a s))) (rd + 1) = b ∧
    readX (writeX (rd + 2) c (writeX (rd + 1) b (writeX rd a s))) (rd + 2) = c := by
  have h01 : rd ≠ rd + 1 := by revert rd; decide
  have h02 : rd ≠ rd + 2 := by revert rd; decide
  have h12 : rd + 1 ≠ rd + 2 := by revert rd; decide
  exact ⟨by rw [readX_writeX_ne h02, readX_writeX_ne h01, readX_writeX_same], by rw [readX_writeX_ne h12, readX_writeX_same],
    readX_writeX_same _ _ _⟩

/-- The three registers after the command hold the triple (R271). -/
theorem exec_rempio2_registers (rd ra : RegNum) {s : State} (hs : s.fc = 0) :
    ∃ t, exec (.rempio2 rd ra) s = .next t ∧
      { n := (t.x[(rd + 2 : RegNum)]).setWidth 32
        y0 := (t.x[rd]).setWidth 64
        y1 := (t.x[(rd + 1 : RegNum)]).setWidth 64 } = (remPio2 s.trig Config.lrr (operand .f64 s ra)).1 := by
  refine ⟨_, serve_of_running hs _, ?_⟩
  generalize remPio2 s.trig Config.lrr (operand .f64 s ra) = r
  obtain ⟨h0, h1, h2⟩ := readX_after_three_writes rd (zext128 r.1.y0) (zext128 r.1.y1) (sext128 r.1.n) (setLrr r.2 s)
  rw [readX] at h0 h1 h2
  rw [respond_x, h0, h1, h2, setWidth_sext128, setWidth_zext128 (by decide), setWidth_zext128 (by decide)]

/-- A residual a little more than π/4 leaves room for the error of 85 bits. -/
theorem Reduces.abs_add_lt {p : Pat .f64} {bits : ℕ} {r : Reduction} (h : Reduces p bits r) (hbits : 85 ≤ bits)
    (hp : highWord p < 0x413921FB) :
    |(val (F := .f64) r.y0 : ℝ) + (val (F := .f64) r.y1 : ℝ)| < Real.pi / 4 + 1 / 2 ^ 17 := by
  have hword : highWord 0x413921FB00000000 = 0x413921FB := by decide
  have hlt := abs_val_lt_of_highWord_lt (p := p) (q := 0x413921FB00000000) (by omega)
  have hle := Rat.cast_le (K := ℝ).mpr (hlt.le.trans (by decide +kernel : |val (F := .f64) 0x413921FB00000000| ≤ 2 ^ 21))
  push_cast at hle
  have herr : |(val p : ℝ)| / 2 ^ bits ≤ 2 ^ 21 / 2 ^ 85 :=
    div_le_div₀ (by positivity) hle (by positivity) (pow_le_pow_right₀ one_le_two hbits)
  obtain ⟨hlo, hhi⟩ := abs_le.mp (h.close.trans herr)
  obtain ⟨hlo', hhi'⟩ := abs_le.mp h.residual
  have hpi := Real.pi_gt_d6
  norm_num at hlo hhi hlo' hhi' hpi ⊢
  exact abs_lt.mpr ⟨by linarith, by linarith⟩

/-- Settles O25: each regime meets its floor, and the registers hold the triple. -/
theorem rempioPrecisionFloors : Obligations.RempioPrecisionFloors := by
  unfold Obligations.RempioPrecisionFloors
  refine ⟨precisionFloors_trigWith, fun rd ra s hs hfloors => ?_, fun fused f p hp => ?_⟩
  · obtain ⟨t, ht, htriple⟩ := exec_rempio2_registers rd ra hs
    refine ⟨t, ht, ?_⟩
    rw [htriple]
    exact hfloors Config.lrr (operand .f64 s ra)
  · obtain ⟨bits, -, hbits, hreduces⟩ := reduces_below_large fused f hp
    exact hreduces.abs_add_lt hbits hp

end Sys2Proof.Machine

/-! SUPPORT. The family of 46_system_commands.md: the one word of `NOP`, the value of `FSR`, and two facts about every command
but one: it ignores the write data unless it is `WR`, and it never clears `NX` unless it is `CLRST`. -/

namespace Sys2Proof

/-- A word of the opcode of `NOP` that decodes is the word of `NOP` (R311). -/
theorem decode_error_of_nop_opcode {w : CmdWord} (hcode : (fieldsOf w).opcode = Op.nop.code) (hw : w ≠ encode .nop) :
    ∃ e, decode w = .error e := by
  cases hd : decode w with
  | error e => exact ⟨e, rfl⟩
  | ok i =>
    obtain ⟨op, hop, -, -, rfl⟩ := (decodeFields_ok_iff _ _).mp hd
    obtain rfl : op = .nop := Op.code_injective ((Op.ofCode_eq_some_iff.mp hop).symm.trans hcode)
    obtain ⟨-, hspelling⟩ := commandWordsHaveOneSpelling.1 w _ hd
    exact absurd hspelling.symm hw

theorem encode_wr (rd : RegNum) : encode (.wr rd) = 0x01#6 ++ 0#2 ++ regField rd ++ 0#21 := by
  revert rd
  decide

end Sys2Proof

namespace Sys2Proof.Machine

/-- Settles O20: `decode_error_of_nop_opcode` is the encoding; the response is that of serving a command. -/
theorem nopCommand : Obligations.NopCommand := by
  unfold Obligations.NopCommand
  exact ⟨rfl, fun w => decode_error_of_nop_opcode, fun s hs => serve_of_running hs _, fun s hs => serve_of_faulted hs _⟩

/-! The write data: two runs of a command from states that differ in it alone (R312). -/

/-- Two states that differ in the write data are served alike when the effects do no more than that either. -/
theorem serve_with_wdata (s effect : State) (v : Word) :
    ∃ t, serve s effect = .next t ∧ serve { s with wdata := v } { effect with wdata := v } = .next { t with wdata := v } := by
  by_cases hs : s.fc = 0
  · exact ⟨effect, serve_of_running hs _, serve_of_running (s := { s with wdata := v }) hs _⟩
  · exact ⟨answerFaulted s, serve_of_faulted hs _, serve_of_faulted (s := { s with wdata := v }) hs _⟩

theorem checked_with_wdata (ok : Bool) (s effect : State) (v : Word) :
    checked ok { s with wdata := v } { effect with wdata := v } = { checked ok s effect with wdata := v } := by
  cases ok <;> rfl

theorem serve_checked_with_wdata (ok : Bool) (s effect : State) (v : Word) :
    ∃ t, serve s (checked ok s effect) = .next t ∧
      serve { s with wdata := v } (checked ok { s with wdata := v } { effect with wdata := v }) =
        .next { t with wdata := v } := by
  rw [checked_with_wdata]
  exact serve_with_wdata s _ v

/-- `wdata` accompanies every request and only `WR` reads it. -/
theorem exec_with_wdata {i : Instr} (hi : ∀ rd, i ≠ .wr rd) (s : State) (v : Word) :
    ∃ t, exec i s = .next t ∧ exec i { s with wdata := v } = .next { t with wdata := v } := by
  cases i with
  | wr rd => exact absurd rfl (hi rd)
  | brnew | brwrd | brshr | brrem | modshl => exact serve_checked_with_wdata _ s _ v
  | nop | rd | mov | rdst | clrst | ceil | floor | trunc | round | roundeven | mul | div | fmod | rempio2 =>
    exact serve_with_wdata s _ v

/-- Settles O21: the effect of `WR` is the model's own on a running unit; `exec_with_wdata` is every other command. -/
theorem wrCommand : Obligations.WrCommand := by
  unfold Obligations.WrCommand
  exact ⟨encode_wr, fun rd s hs => serve_of_running hs _, fun i s v hi => exec_with_wdata hi s v⟩

/-! The status register read as a number (10_state.md R24). -/

theorem toNat_fsr (s : State) :
    (fsr s).toNat = s.nx.toNat + 2 * s.br.valid.toNat + 4 * s.br.fmt.code.toNat + 16 * s.fc.toNat := by
  rw [fsr]
  generalize s.nx = nx, s.br.valid = valid, s.br.fmt.code = code, s.fc = fc
  revert nx valid code fc
  decide

theorem zext128_eq_ofNat {n : ℕ} (v : BitVec n) : zext128 v = BitVec.ofNat 128 v.toNat :=
  (BitVec.ofNat_toNat 128 v).symm

/-- Settles O23: `toNat_fsr` is the value of `FSR`, of which a running unit's fault code adds nothing. -/
theorem rdstCommand : Obligations.RdstCommand := by
  unfold Obligations.RdstCommand
  refine ⟨rfl, fun s hs => ?_, toNat_fsr, fun s hs => serve_of_faulted hs _⟩
  have hcode : s.fc.toNat = 0 := by simp [hs]
  have hdata := zext128_eq_ofNat (fsr s)
  rw [toNat_fsr, hcode, Nat.mul_zero, Nat.add_zero] at hdata
  rw [← hdata]
  exact serve_of_running hs _

/-! The sticky bit `NX` (10_state.md R24): each state operation but `clearNx` leaves it set. -/

theorem nx_of_serve {s effect t : State} (h : serve s effect = .next t) (hnx : s.nx = true) (heffect : effect.nx = true) :
    t.nx = true := by
  obtain ⟨-, rfl⟩ | ⟨-, rfl⟩ := serve_cases h
  · exact heffect
  · exact hnx

theorem nx_checked {s effect : State} (ok : Bool) (hnx : s.nx = true) (heffect : effect.nx = true) :
    (checked ok s effect).nx = true := by
  cases ok with
  | true => exact heffect
  | false => exact hnx

theorem nx_accrue {s : State} (hnx : s.nx = true) (st : Status) : (accrue st s).nx = true := by
  rw [accrue_nx, hnx, Bool.true_or]

/-- No command but `CLRST` clears `NX` (R316). -/
theorem nx_of_exec {i : Instr} (hi : i ≠ .clrst) {s t : State} (h : exec i s = .next t) (hnx : s.nx = true) :
    t.nx = true := by
  cases i with
  | clrst => exact absurd rfl hi
  | brnew | brwrd | brshr | brrem | modshl => exact nx_of_serve h hnx (nx_checked _ hnx hnx)
  | ceil | floor | trunc | round | roundeven => exact nx_of_serve h hnx (nx_accrue hnx _)
  | nop | wr | rd | mov | rdst | mul | div | fmod | rempio2 => exact nx_of_serve h hnx hnx

/-- Settles O24: the effect of `CLRST` is the model's own on a running unit; `nx_of_exec` is every other command. -/
theorem clrstCommand : Obligations.ClrstCommand := by
  unfold Obligations.ClrstCommand
  refine ⟨rfl, fun s hs => serve_of_running hs _, fun i s t h hset hclear => ?_⟩
  by_contra hi
  exact Bool.false_ne_true (hclear.symm.trans (nx_of_exec hi h hset))

end Sys2Proof.Machine

/-! SUPPORT. The family of 60_exceptions.md. Every meaning is a served check of the listed precondition in front of an effect
that raises no fault (`exec_eq_serve_checked`); what a running and a faulted unit answer follows from that form. -/

namespace Sys2Proof.Machine

/-- How a command that raises no fault leaves a unit that was in `s`: no new fault code, and none in the response
(60_exceptions.md R334). -/
def EndsWithoutFault (s t : State) : Prop := t.fc = s.fc ∧ ∃ r, t.resp = some r ∧ r.fc = 0

theorem endsWithoutFault_respond {s t : State} (h : t.fc = s.fc) (d : Word) (st : Status) :
    EndsWithoutFault s (respond d st t) := ⟨h, _, rfl, rfl⟩

/-! The check each command makes is the negation of its listed condition (60_exceptions.md R332). -/

theorem brnewOk_eq_not_contractViolated (F : Fmt) (ra rb : RegNum) (s : State) :
    brnewOk F.width (operand F s ra).toNat (operand F s rb).toNat = !contractViolated (.brnew F ra rb) s := by
  rw [Bool.eq_iff_iff, brnewOk_iff]
  simp [contractViolated, and_assoc]

theorem modshlOk_eq_not_contractViolated (F : Fmt) (rd ra rb rc : RegNum) (s : State) :
    modshlOk F.width (operand F s ra).toNat (operand F s rb).toNat = !contractViolated (.modshl F rd ra rb rc) s := by
  rw [Bool.eq_iff_iff, modshlOk_iff]
  simp [contractViolated, and_assoc]

theorem brshr_check_eq_not_contractViolated (k : ℕ) (s : State) :
    (s.br.valid && decide (k < s.br.fmt.width)) = !contractViolated (.brshr k) s := by
  rw [Bool.eq_iff_iff]
  simp [contractViolated]

theorem exists_serve_checked {s effect : State} {ok violated : Bool} (hok : ok = !violated)
    (heffect : EndsWithoutFault s effect) : ∃ effect', serve s (checked ok s effect) =
      serve s (checked (!violated) s effect') ∧ EndsWithoutFault s effect' :=
  ⟨effect, by rw [hok], heffect⟩

/-- The meaning of every command: serve it, check the listed condition, then the effect, which raises no fault. -/
theorem exec_eq_serve_checked (i : Instr) (s : State) :
    ∃ effect, exec i s = serve s (checked (!contractViolated i s) s effect) ∧ EndsWithoutFault s effect := by
  cases i with
  | brnew F ra rb =>
    exact exists_serve_checked (brnewOk_eq_not_contractViolated F ra rb s) (endsWithoutFault_respond rfl _ _)
  | modshl F rd ra rb rc =>
    exact exists_serve_checked (modshlOk_eq_not_contractViolated F rd ra rb rc s) (endsWithoutFault_respond rfl _ _)
  | brshr k => exact exists_serve_checked (brshr_check_eq_not_contractViolated k s) (endsWithoutFault_respond rfl _ _)
  | brwrd | brrem => exact exists_serve_checked (Bool.not_not _).symm (endsWithoutFault_respond rfl _ _)
  | nop | wr | rd | mov | rdst | clrst | ceil | floor | trunc | round | roundeven | mul | div | fmod | rempio2 =>
    exact ⟨_, rfl, endsWithoutFault_respond rfl _ _⟩

/-! A running unit. -/

section Running

variable {i : Instr} {s : State} (hs : s.fc = 0)
include hs

theorem exec_of_contractViolated (h : contractViolated i s = true) :
    exec i s = .next (raiseFault contractCode s) := by
  obtain ⟨effect, hexec, -⟩ := exec_eq_serve_checked i s
  rw [hexec, serve_checked_of_violation hs (by simp [h])]

theorem exec_of_not_contractViolated (h : contractViolated i s = false) :
    ∃ t, exec i s = .next t ∧ EndsWithoutFault s t := by
  obtain ⟨effect, hexec, hends⟩ := exec_eq_serve_checked i s
  exact ⟨effect, by rw [hexec, serve_checked_of_pass hs (by simp [h])], hends⟩

end Running

/-- Settles O7: on a running unit the served check decides between the fault and the effect. -/
theorem contractFaultsExactlyListed : Obligations.ContractFaultsExactlyListed := by
  unfold Obligations.ContractFaultsExactlyListed
  refine fun i s hs => ⟨exec_of_contractViolated hs, fun h => ?_⟩
  obtain ⟨t, hexec, hfc, r, hresp, hr⟩ := exec_of_not_contractViolated hs h
  exact ⟨t, r, hexec, hfc.trans hs, hresp, hr⟩

/-- A request whose serving leaves a running unit faulted took one of the two faults, and nothing else happened. -/
theorem serveRequest_of_fault {q : Request} {s t : State} (hs : s.fc = 0) (h : serveRequest exec q s = .next t)
    (ht : t.fc ≠ 0) : (t.fc = illegalCode ∨ t.fc = contractCode) ∧ t = raiseFault t.fc (acceptRequest q s) := by
  have hrunning : (acceptRequest q s).fc = 0 := by simpa using hs
  obtain ⟨i, -, hserve⟩ | ⟨e, he, -⟩ := serveRequest_cases exec q s
  · rw [hserve] at h
    cases hv : contractViolated i (acceptRequest q s) with
    | true =>
      cases (exec_of_contractViolated hrunning hv).symm.trans h
      exact ⟨.inr rfl, rfl⟩
    | false =>
      obtain ⟨u, hexec, hfc, -⟩ := exec_of_not_contractViolated hrunning hv
      cases hexec.symm.trans h
      exact absurd (hfc.trans hrunning) ht
  · cases (serveRequest_reserved exec hs ⟨e, he⟩).symm.trans h
    exact ⟨.inl rfl, rfl⟩

/-! A faulted unit (60_exceptions.md R335). -/

theorem exec_of_faulted {s : State} (hs : s.fc ≠ 0) (i : Instr) : exec i s = .next (answerFaulted s) := by
  obtain ⟨effect, hexec, -⟩ := exec_eq_serve_checked i s
  rw [hexec, serve_of_faulted hs]

theorem serveRequest_of_faulted {s : State} (hs : s.fc ≠ 0) (q : Request) :
    serveRequest exec q s = .next (answerFaulted (acceptRequest q s)) := by
  have hfaulted : (acceptRequest q s).fc ≠ 0 := by simpa using hs
  obtain ⟨i, -, hserve⟩ | ⟨-, -, hserve⟩ := serveRequest_cases exec q s
  · rw [hserve, exec_of_faulted hfaulted]
  · rw [hserve, serve_of_faulted hfaulted]

/-- Settles O9: every meaning and every reserved word is served, so a faulted unit answers with `answerFaulted`. -/
theorem faultedUnitAnswersStoredCode : Obligations.FaultedUnitAnswersStoredCode := by
  unfold Obligations.FaultedUnitAnswersStoredCode
  refine ⟨fun s q rest hinputs hs => ?_, fun i s hs => exec_of_faulted hs i⟩
  rw [step_event hinputs]
  exact serveRequest_of_faulted (s := { s with inputs := rest }) hs q

/-- Settles O8: `serveRequest_of_fault` on a running unit, the stored code of O9 on a faulted one. -/
theorem faultChangesNothingElse : Obligations.FaultChangesNothingElse := by
  unfold Obligations.FaultChangesNothingElse
  intro s t q rest hinputs hstep
  refine ⟨fun hs ht => ?_, fun hs => ?_⟩
  · rw [step_event hinputs] at hstep
    exact serveRequest_of_fault (s := { s with inputs := rest }) hs hstep ht
  · cases (faultedUnitAnswersStoredCode.1 s q rest hinputs hs).symm.trans hstep
    rfl

end Sys2Proof.Machine

/-! SUPPORT. The encoder, the decoder and the match and mask table of 30_encoding.md agree: what the encoder puts into the
fields decodes, and the table's two words of a command compare the fields R72 fixes. -/

namespace Sys2Proof

/-! Encoding, then decoding. -/

/-- What `Laws.EncodedFields` says of one constructor holds of every instruction. -/
theorem encodedFields (i : Instr) : Laws.EncodedFields.Statement i := by
  cases i with
  | nop => exact Laws.EncodedFields.nop
  | wr xd => exact Laws.EncodedFields.wr xd
  | rd xa => exact Laws.EncodedFields.rd xa
  | mov xd xa => exact Laws.EncodedFields.mov xd xa
  | rdst => exact Laws.EncodedFields.rdst
  | clrst => exact Laws.EncodedFields.clrst
  | ceil F xd xa => exact Laws.EncodedFields.ceil F xd xa
  | floor F xd xa => exact Laws.EncodedFields.floor F xd xa
  | trunc F xd xa => exact Laws.EncodedFields.trunc F xd xa
  | round F xd xa => exact Laws.EncodedFields.round F xd xa
  | roundeven F xd xa => exact Laws.EncodedFields.roundeven F xd xa
  | mul F xd xa xb => exact Laws.EncodedFields.mul F xd xa xb
  | div F xd xa xb => exact Laws.EncodedFields.div F xd xa xb
  | brnew F xa xb => exact Laws.EncodedFields.brnew F xa xb
  | brwrd => exact Laws.EncodedFields.brwrd
  | brshr k => exact Laws.EncodedFields.brshr k
  | brrem xd => exact Laws.EncodedFields.brrem xd
  | modshl F xd xa xb xc => exact Laws.EncodedFields.modshl F xd xa xb xc
  | fmod F xd xa xb => exact Laws.EncodedFields.fmod F xd xa xb
  | rempio2 xd xa => exact Laws.EncodedFields.rempio2 xd xa

/-- Settles O1: the packed fields come apart again, and `encodedFields` says that they decode to the instruction. -/
theorem decodeEncodeRoundTrip : Obligations.DecodeEncodeRoundTrip := by
  unfold Obligations.DecodeEncodeRoundTrip
  intro i hwf
  obtain ⟨hop, hzero, hbuild, hfmt⟩ := encodedFields i
  rw [decode, encode, fieldsOf_packFields]
  exact (decodeFields_ok_iff i.fields i).mpr ⟨i.op, hop, hzero, hfmt, (hbuild hwf).symm⟩

/-- Settles O5: the decoder is run on each of the sixteen words. -/
theorem sampleWordsDecode : Obligations.SampleWordsDecode := by
  unfold Obligations.SampleWordsDecode
  decide

/-! The match and mask table (30_encoding.md R80). -/

theorem fieldsOf_injective : Function.Injective fieldsOf := fun v w h => by
  rw [← packFields_fieldsOf v, h, packFields_fieldsOf]

/-- The bits of each field that a word of `op` must have: all of the opcode, all of an unused field (R72), and the format of
`REMPIO2` (R79). -/
def Op.fixedBits (op : Op) : Fields :=
  { opcode := BitVec.allOnes 6
    fmt := if op.uses.fmt = true ∧ op ≠ .rempio2 then 0 else BitVec.allOnes 2
    rd := if op.uses.rd then 0 else BitVec.allOnes 3
    ra := if op.uses.ra then 0 else BitVec.allOnes 3
    rb := if op.uses.rb then 0 else BitVec.allOnes 3
    rc := if op.uses.rc then 0 else BitVec.allOnes 3
    imm12 := if op.uses.imm then 0 else BitVec.allOnes 12 }

theorem fieldsOf_maskBits (op : Op) : fieldsOf op.maskBits = op.fixedBits := by cases op <;> decide

theorem fieldsOf_matchBits (op : Op) :
    fieldsOf op.matchBits = ⟨op.code, if op = .rempio2 then Fmt.f64.code else 0, 0, 0, 0, 0, 0⟩ := by
  cases op <;> decide

/-- The bits two words have in common, field by field. -/
def Fields.inter (f g : Fields) : Fields :=
  { opcode := f.opcode &&& g.opcode
    fmt := f.fmt &&& g.fmt
    rd := f.rd &&& g.rd
    ra := f.ra &&& g.ra
    rb := f.rb &&& g.rb
    rc := f.rc &&& g.rc
    imm12 := f.imm12 &&& g.imm12 }

theorem fieldsOf_and (v w : CmdWord) : fieldsOf (v &&& w) = (fieldsOf v).inter (fieldsOf w) := by
  simp only [fieldsOf, Fields.inter, BitVec.extractLsb'_and]

theorem and_allOnes_unless {n : ℕ} (v : BitVec n) (used : Bool) :
    v &&& (if used then 0 else BitVec.allOnes n) = 0 ↔ used = true ∨ v = 0 := by
  cases used <;> simp

/-- The table's comparison, field by field. -/
theorem matchesWord_iff {op : Op} {w : CmdWord} : op.matchesWord w = true ↔
    (fieldsOf w).opcode = op.code ∧ op.uses.unusedZero (fieldsOf w) = true ∧
      (op = .rempio2 → (fieldsOf w).fmt = Fmt.f64.code) := by
  rw [Op.matchesWord, beq_iff_eq, ← fieldsOf_injective.eq_iff, fieldsOf_and, fieldsOf_maskBits, fieldsOf_matchBits]
  simp only [Fields.inter, Op.fixedBits, Fields.mk.injEq, and_allOnes_unless, Uses.unusedZero, Bool.and_eq_true,
    Bool.or_eq_true, beq_iff_eq, and_assoc, BitVec.and_allOnes]
  by_cases hop : op = .rempio2
  · subst hop
    rw [if_neg (by simp), BitVec.and_allOnes, if_pos rfl]
    simp [Op.uses, and_comm, and_assoc]
  · have hfmt : (if op.uses.fmt = true ∧ op ≠ .rempio2 then (0 : BitVec 2) else BitVec.allOnes 2) =
        if op.uses.fmt then 0 else BitVec.allOnes 2 := by simp [hop]
    rw [hfmt, if_neg hop, and_allOnes_unless]
    simp [hop]

/-- A word is one of `op` by the table exactly when it decodes to an instruction of `op`. -/
theorem matchesWord_iff_decode {op : Op} {w : CmdWord} :
    op.matchesWord w = true ↔ ∃ i, decode w = .ok i ∧ i.op = op := by
  have hop_build (op : Op) (f : Fields) : (op.build f).op = op := by cases op <;> rfl
  rw [matchesWord_iff]
  constructor
  · rintro ⟨hcode, hzero, hfmt⟩
    exact ⟨op.build (fieldsOf w),
      (decodeFields_ok_iff _ _).mpr ⟨op, Op.ofCode_eq_some_iff.mpr hcode, hzero, hfmt, rfl⟩, hop_build _ _⟩
  · rintro ⟨i, hdecode, rfl⟩
    obtain ⟨op, hcode, hzero, hfmt, rfl⟩ := (decodeFields_ok_iff _ _).mp hdecode
    rw [hop_build]
    exact ⟨Op.ofCode_eq_some_iff.mp hcode, hzero, hfmt⟩

/-- Settles O3: `matchesWord_iff` compares the table with the decoder field by field; two commands have two opcodes. -/
theorem decodeAgreesWithMatchMask : Obligations.DecodeAgreesWithMatchMask := by
  unfold Obligations.DecodeAgreesWithMatchMask
  refine ⟨fun w op => matchesWord_iff_decode, fun w op op' h h' => ?_, fun w => ⟨fun hnone => ?_, ?_⟩⟩
  · exact Op.code_injective ((matchesWord_iff.mp h).1.symm.trans (matchesWord_iff.mp h').1)
  · cases hdecode : decode w with
    | error e => exact ⟨e, rfl⟩
    | ok i => exact absurd (matchesWord_iff_decode.mpr ⟨i, hdecode, rfl⟩) (Bool.eq_false_iff.mp (hnone i.op))
  · rintro ⟨e, he⟩ op
    refine Bool.eq_false_iff.mpr fun hmatch => ?_
    obtain ⟨i, hdecode, -⟩ := matchesWord_iff_decode.mp hmatch
    cases he.symm.trans hdecode

end Sys2Proof

/-! SUPPORT. More of 44_barrett.md: what construction precomputes, and the exact identities of a step and of the extraction. -/

namespace Sys2Proof.Machine

/-! Construction (R233, R234), for a modulus with R/8 < n < R/4. -/

section Construction

variable {F : Fmt} {n : ℕ} (hmin : 2 ^ F.width < 8 * n) (hmax : 4 * n < 2 ^ F.width)
include hmin hmax

/-- R233: R < q < 2R. -/
theorem barrettQ_bounds : 2 ^ F.width < barrettQ F.width (2 * n) ∧ barrettQ F.width (2 * n) < 2 ^ (F.width + 1) := by
  have hsquare := two_pow_two_width F
  have hpos : 0 < 2 * n := by omega
  rw [barrettQ, ← Nat.succ_le_iff, Nat.le_div_iff_mul_le hpos, Nat.div_lt_iff_lt_mul hpos, pow_succ]
  generalize 2 ^ F.width = R at *
  constructor
  · have hstep : 4 * n + 1 ≤ R := hmax
    nlinarith
  · nlinarith

/-- R233: the narrowing division of `(R/2 − m)·R` by m gives `q − R` and r. -/
theorem barrettByNdiv_eq :
    barrettByNdiv F.width (2 * n) = some (barrettQ F.width (2 * n), barrettR F.width (2 * n)) := by
  obtain ⟨hlow, -⟩ := barrettQ_bounds hmin hmax
  have hhalf : 2 * 2 ^ (F.width - 1) = 2 ^ F.width := mul_pow_sub_one (width_pos F).ne' 2
  have hdividend : (2 ^ (F.width - 1) - 2 * n) * 2 ^ F.width = 2 ^ (2 * F.width - 1) - 2 * n * 2 ^ F.width := by
    have hsquare := two_pow_two_width F
    rw [Nat.sub_mul]
    congr 1
    nlinarith
  have hdefined : (2 ^ (F.width - 1) - 2 * n) * 2 ^ F.width / 2 ^ F.width < 2 * n := by
    rw [Nat.mul_div_cancel _ (by positivity)]
    omega
  have hle : 2 * n * 2 ^ F.width ≤ 2 ^ (2 * F.width - 1) :=
    (Nat.mul_le_mul_left _ hlow.le).trans (Nat.mul_div_le _ _)
  rw [barrettByNdiv, ndiv, if_pos hdefined, hdividend, Nat.sub_mul_div, Nat.sub_mul_mod hle, Option.map_some]
  simp only [barrettQ, barrettR] at *
  rw [Nat.sub_add_cancel hlow.le]

variable {x : ℕ} (hx : x < 2 * n)
include hx

/-- R236: the accumulator of a new reducer is below R². -/
theorem two_mul_mul_barrettQ_lt : 2 * x * barrettQ F.width (2 * n) < 2 ^ (2 * F.width) := by
  have hsquare := two_pow_two_width F
  have hpos : 0 < barrettQ F.width (2 * n) := (Nat.zero_le _).trans_lt (barrettQ_bounds hmin hmax).1
  calc 2 * x * barrettQ F.width (2 * n) < 2 * (2 * n) * barrettQ F.width (2 * n) := by gcongr
    _ = 2 * (2 * n * barrettQ F.width (2 * n)) := Nat.mul_assoc ..
    _ ≤ 2 * 2 ^ (2 * F.width - 1) := Nat.mul_le_mul_left _ (Nat.mul_div_le _ _)
    _ = 2 ^ (2 * F.width) := by rw [hsquare, ← pow_add, Nat.two_mul]

/-- R234: the new reducer holds its triple. -/
theorem reducerHolds_newReducer : ReducerHolds (newReducer F x n) n x := by
  have hword := two_pow_width_le F
  have hquo : barrettQ F.width (2 * n) < 2 ^ 129 :=
    (barrettQ_bounds hmin hmax).2.trans_le (Nat.pow_le_pow_right two_pos (Nat.succ_le_succ (width_le F)))
  have hnum : 2 * x * barrettQ F.width (2 * n) < 2 ^ 256 :=
    (two_mul_mul_barrettQ_lt hmin hmax hx).trans_le
      (Nat.pow_le_pow_right two_pos (Nat.mul_le_mul_left 2 (width_le F)))
  have hrem : barrettR F.width (2 * n) < 2 ^ 128 := (Nat.mod_lt _ (by omega)).trans (by omega)
  have htoNat {w v : ℕ} (hv : v < 2 ^ w) : (BitVec.ofNat w v).toNat = v := by
    rw [BitVec.toNat_ofNat, Nat.mod_eq_of_lt hv]
  have hquo_eq : (newReducer F x n).quo.toNat = barrettQ F.width (2 * n) := htoNat hquo
  refine ⟨?_, hx, htoNat (by omega), hquo_eq, htoNat hrem, ?_⟩
  · simp [modulusInRange, hmin, hmax]
  · rw [hquo_eq]
    exact htoNat hnum

end Construction

/-- Settles O40: `barrettQ_bounds` and `barrettByNdiv_eq` are R233, `reducerHolds_newReducer` is R234. -/
theorem barrettConstruction : Obligations.BarrettConstruction := by
  unfold Obligations.BarrettConstruction
  intro F n hmin hmax
  obtain ⟨hlow, hhigh⟩ := barrettQ_bounds hmin hmax
  exact ⟨Nat.div_add_mod _ _, Nat.mod_lt _ (by omega), hlow, hhigh, barrettByNdiv_eq hmin hmax,
    fun x hx => ⟨two_mul_mul_barrettQ_lt hmin hmax hx, reducerHolds_newReducer hmin hmax hx⟩⟩

/-! The estimate of a step as the spec writes it (R242). -/

/-- The top bits of the accumulator are ⌊x·q·2^(k+2) / R²⌋. -/
theorem ReducerHolds.stepEstimate_eq {b : Reducer} {n x k : ℕ} (h : ReducerHolds b n x) (hk : k < b.fmt.width) :
    stepEstimate b.fmt.width k b.num.toNat = x * b.quo.toNat * 2 ^ (k + 2) / 2 ^ (2 * b.fmt.width) := by
  have hcut : 2 ^ (2 * b.fmt.width) = 2 ^ (2 * b.fmt.width - k - 1) * 2 ^ (k + 1) := two_pow_eq_mul (by omega)
  have hscaled : x * b.quo.toNat * 2 ^ (k + 2) = 2 * x * b.quo.toNat * 2 ^ (k + 1) := by ring
  rw [stepEstimate, h.num_eq, hcut, hscaled, Nat.mul_div_mul_right _ _ (by positivity)]

/-- Settles O42: `ReducerHolds.after_step` with the estimate of `ReducerHolds.stepEstimate_eq`, and
`ReducerHolds.partialRemainder_eq`. -/
theorem reductionStepExact : Obligations.ReductionStepExact := by
  unfold Obligations.ReductionStepExact
  intro b n x k hholds hk
  obtain ⟨hle, hstep⟩ := hholds.after_step hk
  rw [hholds.stepEstimate_eq hk] at hle hstep
  exact ⟨hle, hstep.below, hstep, by rw [extractRemainder, hholds.partialRemainder_eq]⟩

end Sys2Proof.Machine

/-! SUPPORT. What a meaning and a step can do, each said once: `effectOf` names the state a command leaves when nothing goes
wrong, `exec_cases` and `step_cases` say that there is nothing else. The frames of a command, the invariant of the unit and the
way out of FAULTED (70_reset_and_hazards.md) follow. -/

namespace Sys2Proof.Machine

/-! The effect of a command on a running unit whose check passes. -/

/-- The state each command leaves when no fault is taken. -/
def effectOf (i : Instr) (s : State) : State :=
  match i with
  | .nop => respond 0 .ok s
  | .wr rd => respond 0 .ok (writeX rd s.wdata s)
  | .rd ra => respond (readX s ra) .ok s
  | .mov rd ra => finish rd (readX s ra) .ok s
  | .rdst => respond (zext128 (fsr s)) .ok s
  | .clrst => respond 0 .ok (clearNx s)
  | .ceil F rd ra => roundingEffect .ceil F rd ra
  | .floor F rd ra => roundingEffect .floor F rd ra
  | .trunc F rd ra => roundingEffect .trunc F rd ra
  | .round F rd ra => roundingEffect .round F rd ra
  | .roundeven F rd ra => roundingEffect .roundeven F rd ra
  | .mul F rd ra rb => finish rd (zext128 (mulPat (operand F s ra) (operand F s rb))) .ok s
  | .div F rd ra rb => finish rd (zext128 (divPat (operand F s ra) (operand F s rb))) .ok s
  | .brnew F ra rb => respond 0 .ok (setBr (newReducer F (operand F s ra).toNat (operand F s rb).toNat) s)
  | .brwrd => respond 0 .ok (setBr (stepReducer (s.br.fmt.width - 1) s.br) s)
  | .brshr k => respond 0 .ok (setBr (stepReducer k s.br) s)
  | .brrem rd => finish rd (extractRemainder s.br) .ok (discardBr s)
  | .modshl F rd ra rb rc =>
    finish rd (BitVec.ofNat 128 (modshl (operand F s ra).toNat (shiftOperand s rc) (operand F s rb).toNat)) .ok s
  | .fmod F rd ra rb => finish rd (zext128 (fmodPat (operand F s ra) (operand F s rb))) .ok s
  | .rempio2 rd ra =>
    let r := remPio2 s.trig Config.lrr (operand .f64 s ra)
    respond (zext128 r.1.y0) .ok
      (writeX (rd + 2) (sext128 r.1.n) (writeX (rd + 1) (zext128 r.1.y1) (writeX rd (zext128 r.1.y0) (setLrr r.2 s))))
where
  /-- The five rounding commands write, accrue and respond alike (41_rounding.md R140). -/
  roundingEffect (op : RoundOp) (F : Fmt) (rd ra : RegNum) : State :=
    let r := roundPat op (operand F s ra)
    finish rd (zext128 r.1) r.2 (accrue r.2 s)

theorem exec_eq_serve_effectOf (i : Instr) (s : State) :
    exec i s = serve s (checked (!contractViolated i s) s (effectOf i s)) := by
  cases i with
  | brnew F ra rb => rw [← brnewOk_eq_not_contractViolated]; rfl
  | modshl F rd ra rb rc => rw [← modshlOk_eq_not_contractViolated]; rfl
  | brshr k => rw [← brshr_check_eq_not_contractViolated]; rfl
  | brwrd | brrem => rw [contractViolated, Bool.not_not]; rfl
  | nop | wr | rd | mov | rdst | clrst | ceil | floor | trunc | round | roundeven | mul | div | fmod | rempio2 => rfl

/-- All that a meaning can do: its effect, the contract fault, or the answer of a faulted unit. -/
theorem exec_cases {i : Instr} {s t : State} (h : exec i s = .next t) :
    (s.fc = 0 ∧ contractViolated i s = false ∧ t = effectOf i s) ∨
    (s.fc = 0 ∧ contractViolated i s = true ∧ t = raiseFault contractCode s) ∨
    (s.fc ≠ 0 ∧ t = answerFaulted s) := by
  rw [exec_eq_serve_effectOf] at h
  obtain ⟨hs, rfl⟩ | ⟨hs, rfl⟩ := serve_cases h
  · cases hv : contractViolated i s with
    | false => exact .inl ⟨hs, rfl, rfl⟩
    | true => exact .inr (.inl ⟨hs, rfl, rfl⟩)
  · exact .inr (.inr ⟨hs, rfl⟩)

/-- Every meaning answers a next state. -/
theorem exists_exec_eq_next (i : Instr) (s : State) : ∃ t, exec i s = .next t :=
  ⟨_, exec_eq_serve_effectOf i s⟩

/-- All that a step can do: nothing, serve a request by its instruction or by the illegal-word answer, or reset. -/
theorem step_cases {s t : State} (h : step s = .next t) :
    (s.inputs = [] ∧ t = s) ∨
    (∃ q rest, s.inputs = .request q :: rest ∧
      ((∃ i, decode q.cmd = .ok i ∧ exec i (acceptRequest q { s with inputs := rest }) = .next t) ∨
        (s.fc = 0 ∧ t = raiseFault illegalCode (acceptRequest q { s with inputs := rest })) ∨
        (s.fc ≠ 0 ∧ t = answerFaulted (acceptRequest q { s with inputs := rest })))) ∨
    (∃ e rest, s.inputs = e :: rest ∧ (e = .reset ∨ ∃ q, e = .requestCutByReset q) ∧
      t = resetUnit { s with inputs := rest }) := by
  cases hinputs : s.inputs with
  | nil =>
    rw [step_idle hinputs] at h
    cases h
    exact .inl ⟨rfl, rfl⟩
  | cons e rest =>
    rw [step_event hinputs] at h
    cases e with
    | request q =>
      refine .inr (.inl ⟨q, rest, rfl, ?_⟩)
      obtain ⟨i, hdecode, hserve⟩ | ⟨e, -, hserve⟩ := serveRequest_cases exec q { s with inputs := rest }
      · exact .inl ⟨i, hdecode, hserve.symm.trans h⟩
      · exact .inr (serve_cases (hserve.symm.trans h))
    | reset =>
      cases h
      exact .inr (.inr ⟨_, rest, rfl, .inl rfl, rfl⟩)
    | requestCutByReset q =>
      cases h
      exact .inr (.inr ⟨_, rest, rfl, .inr ⟨q, rfl⟩, rfl⟩)

/-- A reset, also one that cuts a request, is `resetUnit`. -/
theorem step_reset {s : State} {e : HostEvent} {rest : List HostEvent} (hinputs : s.inputs = e :: rest)
    (he : e = .reset ∨ ∃ q, e = .requestCutByReset q) : step s = .next (resetUnit { s with inputs := rest }) := by
  rw [step_event hinputs]
  obtain rfl | ⟨q, rfl⟩ := he <;> rfl

theorem exists_step_eq_next (s : State) : ∃ t, step s = .next t := by
  cases hinputs : s.inputs with
  | nil => exact ⟨s, step_idle hinputs⟩
  | cons e rest =>
    rw [step_event hinputs]
    cases e with
    | request q =>
      obtain ⟨i, -, hserve⟩ | ⟨e, -, hserve⟩ := serveRequest_cases exec q { s with inputs := rest }
      · obtain ⟨t, ht⟩ := exists_exec_eq_next i (acceptRequest q { s with inputs := rest })
        exact ⟨t, hserve.trans ht⟩
      · exact ⟨_, hserve⟩
    | reset | requestCutByReset => exact ⟨_, rfl⟩

/-- Settles O6: taking the event is the record update of the statement, and every step answers by `exists_step_eq_next`. -/
theorem stepRunsDecodedInstruction : Obligations.StepRunsDecodedInstruction := by
  unfold Obligations.StepRunsDecodedInstruction
  have hrequest (s : State) (q : Request) (rest : List HostEvent) (i : Instr) (hinputs : s.inputs = .request q :: rest)
      (hdecode : decode q.cmd = .ok i) : step s = exec i { s with inputs := rest, wdata := q.wdata, lrrReq := none } := by
    rw [step_event hinputs, handleEvent, serveRequest, hdecode]
    rfl
  refine ⟨hrequest, fun s w i hdecode => ?_, fun s => step_idle, exists_step_eq_next, exists_exec_eq_next⟩
  refine hrequest (s.withFetchWord 32 w) (requestOfWord 32 w s) s.inputs i rfl ?_
  rw [decodeTableWord] at hdecode
  rw [requestOfWord]
  cases hword : decode (BitVec.ofNat 32 (w % 2 ^ 32)) with
  | error e => rw [hword] at hdecode; cases hdecode
  | ok j => rw [hword] at hdecode; cases hdecode; rfl

/-! Reset (70_reset_and_hazards.md R360, R361). -/

theorem resetUnit_written_getElem (s : State) (r : RegNum) : (resetUnit s).written[r] = false := by
  simp

/-- No command takes the fault code away. -/
theorem fc_ne_zero_of_exec {i : Instr} {s t : State} (h : exec i s = .next t) (hs : s.fc ≠ 0) : t.fc ≠ 0 := by
  cases (exec_of_faulted hs i).symm.trans h
  exact hs

/-- Settles O10: `step_cases` leaves the reset as the only step that clears the code, and `step_reset` is R360. -/
theorem onlyResetLeavesFaulted : Obligations.OnlyResetLeavesFaulted := by
  unfold Obligations.OnlyResetLeavesFaulted
  refine ⟨fun s t hs hstep ht => ?_, fun s e rest hinputs he => ?_⟩
  · obtain ⟨-, rfl⟩ | ⟨q, rest, -, hserve⟩ | ⟨e, rest, hinputs, he, -⟩ := step_cases hstep
    · exact absurd ht hs
    · obtain ⟨i, -, hexec⟩ | ⟨hrunning, -⟩ | ⟨-, rfl⟩ := hserve
      · exact absurd ht (fc_ne_zero_of_exec hexec hs)
      · exact absurd hrunning hs
      · exact absurd ht hs
    · exact ⟨e, rest, hinputs, he⟩
  · exact ⟨_, step_reset hinputs he, rfl, rfl, rfl, rfl, rfl, rfl, rfl, resetUnit_written_getElem _⟩

/-! The frames of a command, from `exec_cases`: the effect's frame, and what neither fault nor answer writes. -/

theorem written_getElem_writeX_ne {r j : RegNum} (h : j ≠ r) (v : Word) (s : State) :
    (writeX r v s).written[j] = s.written[j] := by
  have hne : r.val ≠ j.val := fun e => h (Fin.ext e.symm)
  simp [Vector.getElem_set_ne, hne]

/-- What a register and its mark "written since reset" hold, in `t` as in `s`. -/
def SameRegister (s t : State) (r : RegNum) : Prop := t.x[r] = s.x[r] ∧ t.written[r] = s.written[r]

theorem SameRegister.writeX {s t : State} {r : RegNum} (h : SameRegister s t r) {d : RegNum} (hd : r ≠ d) (v : Word) :
    SameRegister s (writeX d v t) r :=
  ⟨(readX_writeX_ne hd v t).trans h.1, (written_getElem_writeX_ne hd v t).trans h.2⟩

theorem sameRegister_effectOf {i : Instr} {r : RegNum} (hr : r ∉ writesOf i) (s : State) :
    SameRegister s (effectOf i s) r := by
  have hsame : SameRegister s s r := ⟨rfl, rfl⟩
  cases i with
  | nop | rd | rdst | clrst | brnew | brwrd | brshr => exact hsame
  | wr | mov | ceil | floor | trunc | round | roundeven | mul | div | brrem | modshl | fmod =>
    exact hsame.writeX (by simpa [writesOf] using hr) _
  | rempio2 rd ra =>
    simp only [writesOf, List.mem_cons, List.not_mem_nil, or_false, not_or] at hr
    obtain ⟨h0, h1, h2⟩ := hr
    exact ((hsame.writeX h0 _).writeX h1 _).writeX h2 _

theorem effectOf_fc (i : Instr) (s : State) : (effectOf i s).fc = s.fc := by cases i <;> rfl

/-- Settles O14: the effect writes its destinations only, by `sameRegister_effectOf`; a fault and an answer write none. -/
theorem frameOfRegisters : Obligations.FrameOfRegisters := by
  unfold Obligations.FrameOfRegisters
  intro i s t hexec
  obtain ⟨hs, -, rfl⟩ | ⟨-, -, rfl⟩ | ⟨-, rfl⟩ := exec_cases hexec
  · exact ⟨fun r hr => sameRegister_effectOf hr s, fun ht => absurd ((effectOf_fc i s).trans hs) ht⟩
  · exact ⟨fun _ _ => ⟨rfl, rfl⟩, fun _ => ⟨rfl, rfl⟩⟩
  · exact ⟨fun _ _ => ⟨rfl, rfl⟩, fun _ => ⟨rfl, rfl⟩⟩

theorem effectOf_nx {i : Instr} (hround : isRounding i = false) (hclear : i ≠ .clrst) (s : State) :
    (effectOf i s).nx = s.nx := by
  cases i with
  | ceil | floor | trunc | round | roundeven => cases hround
  | clrst => exact absurd rfl hclear
  | _ => rfl

/-- The reserved bits of `FSR` (10_state.md R24). -/
theorem fsr_reserved_bits (s : State) : (fsr s).extractLsb' 8 24 = 0 := by
  rw [fsr]
  generalize s.nx = nx, s.br.valid = valid, s.br.fmt.code = code, s.fc = fc
  revert nx valid code fc
  decide

/-- Settles O15: a rounding command is not `CLRST`, so `nx_of_exec` keeps the bit set; the rest by `exec_cases`. -/
theorem frameOfFlags : Obligations.FrameOfFlags := by
  unfold Obligations.FrameOfFlags
  intro i s t hexec
  refine ⟨fun hround hclear => ?_, fun hround => nx_of_exec (by rintro rfl; cases hround) hexec, fun hno => ?_,
    fsr_reserved_bits t⟩
  · obtain ⟨-, -, rfl⟩ | ⟨-, -, rfl⟩ | ⟨-, rfl⟩ := exec_cases hexec
    · exact effectOf_nx hround hclear s
    · rfl
    · rfl
  · obtain ⟨-, -, rfl⟩ | ⟨hs, hv, -⟩ | ⟨-, rfl⟩ := exec_cases hexec
    · exact effectOf_fc i s
    · simp [hs, hv] at hno
    · rfl

/-- What the reducer frame of 10_state.md sections 4 and 6 says of a run of `i` from `s` to `t`. -/
structure ReducerFrame (i : Instr) (s t : State) : Prop where
  inputs : t.inputs = s.inputs
  wdata : t.wdata = s.wdata
  trig : t.trig = s.trig
  br : (∀ F ra rb, i ≠ .brnew F ra rb) → i ≠ .brwrd → (∀ k, i ≠ .brshr k) → (∀ rd, i ≠ .brrem rd) → t.br = s.br
  num : (i = .brwrd ∨ ∃ k, i = .brshr k) → t.br = { s.br with num := t.br.num }
  fmt : (∃ rd, i = .brrem rd) → t.br.fmt = s.br.fmt
  lrrReq : (∀ rd ra, i ≠ .rempio2 rd ra) → t.lrrReq = s.lrrReq
  fresh : (∀ rd, i ≠ .brrem rd) → t.fresh = s.fresh

theorem reducerFrame_of_same {s t : State} (i : Instr) (hinputs : t.inputs = s.inputs) (hwdata : t.wdata = s.wdata)
    (htrig : t.trig = s.trig) (hbr : t.br = s.br) (hlrr : t.lrrReq = s.lrrReq) (hfresh : t.fresh = s.fresh) :
    ReducerFrame i s t :=
  ⟨hinputs, hwdata, htrig, fun _ _ _ _ => hbr, fun _ => by rw [hbr], fun _ => by rw [hbr], fun _ => hlrr, fun _ => hfresh⟩

theorem reducerFrame_effectOf (i : Instr) (s : State) : ReducerFrame i s (effectOf i s) := by
  cases i with
  | brnew F ra rb =>
    exact ⟨rfl, rfl, rfl, fun h => absurd rfl (h F ra rb), by simp, by simp, fun _ => rfl, fun _ => rfl⟩
  | brwrd =>
    exact ⟨rfl, rfl, rfl, fun _ h => absurd rfl h, fun _ => rfl, fun _ => rfl, fun _ => rfl, fun _ => rfl⟩
  | brshr k =>
    exact ⟨rfl, rfl, rfl, fun _ _ h => absurd rfl (h k), fun _ => rfl, fun _ => rfl, fun _ => rfl, fun _ => rfl⟩
  | brrem rd =>
    exact ⟨rfl, rfl, rfl, fun _ _ _ h => absurd rfl (h rd), by simp, fun _ => rfl, fun _ => rfl, fun h => absurd rfl (h rd)⟩
  | rempio2 rd ra =>
    exact ⟨rfl, rfl, rfl, fun _ _ _ _ => rfl, fun _ => rfl, fun _ => rfl, fun h => absurd rfl (h rd ra), fun _ => rfl⟩
  | _ => exact reducerFrame_of_same _ rfl rfl rfl rfl rfl rfl

theorem reducerFrame_exec {i : Instr} {s t : State} (h : exec i s = .next t) : ReducerFrame i s t := by
  obtain ⟨-, -, rfl⟩ | ⟨-, -, rfl⟩ | ⟨-, rfl⟩ := exec_cases h
  · exact reducerFrame_effectOf i s
  · exact reducerFrame_of_same i rfl rfl rfl rfl rfl rfl
  · exact reducerFrame_of_same i rfl rfl rfl rfl rfl rfl

/-- Settles O16: `reducerFrame_exec`, clause by clause. -/
theorem frameOfReducerAndPorts : Obligations.FrameOfReducerAndPorts := by
  unfold Obligations.FrameOfReducerAndPorts
  intro i s t hexec
  obtain ⟨hinputs, hwdata, htrig, hbr, hnum, hfmt, hlrr, hfresh⟩ := reducerFrame_exec hexec
  exact ⟨hinputs, hwdata, htrig, hbr, hnum, hfmt, hlrr, hfresh⟩

/-! The invariant of the unit. -/

/-- Settles O12: no fault, no reducer, no response. -/
theorem invHoldsAtReset : Obligations.InvHoldsAtReset := by
  unfold Obligations.InvHoldsAtReset
  exact ⟨by decide, fun h => absurd h (by decide), nofun, nofun⟩

/-- A state that answers with its own code, without status or data, keeps the invariant if its reducer does. -/
theorem inv_of_fault_response {t : State} (hcode : t.fc.toNat ≤ 2)
    (hreducer : t.br.valid = true → ∃ n x, ReducerHolds t.br n x)
    (hresp : t.resp = some { fc := t.fc, st := .ok, data := 0 }) : Inv t := by
  refine ⟨hcode, hreducer, fun r hr => ?_, fun r hr _ => ?_⟩ <;> cases hresp.symm.trans hr
  · rfl
  · exact ⟨rfl, rfl⟩

/-- The invariant speaks of the code, the reducer and the response only. -/
theorem Inv.congr {s t : State} (h : Inv s) (hfc : t.fc = s.fc) (hbr : t.br = s.br) (hresp : t.resp = s.resp) : Inv t := by
  refine ⟨?_, ?_, ?_, ?_⟩
  · exact hfc ▸ h.code_legal
  · exact hbr ▸ h.reducer
  · exact hresp ▸ hfc ▸ h.resp_code
  · exact hresp ▸ h.resp_fault

/-- The response of an effect carries no fault code. -/
theorem effectOf_resp (i : Instr) (s : State) : ∃ st d, (effectOf i s).resp = some { fc := 0, st := st, data := d } := by
  cases i <;> exact ⟨_, _, rfl⟩

/-- A reducer left valid by an effect holds a triple: a new one by R234, a stepped one by R243, any other is unchanged. -/
theorem reducer_effectOf {i : Instr} {s : State} (hv : contractViolated i s = false)
    (hreducer : s.br.valid = true → ∃ n x, ReducerHolds s.br n x) (hvalid : (effectOf i s).br.valid = true) :
    ∃ n x, ReducerHolds (effectOf i s).br n x := by
  cases i with
  | brnew F ra rb =>
    have hok := brnewOk_eq_not_contractViolated F ra rb s
    rw [hv, Bool.not_false, brnewOk_iff] at hok
    obtain ⟨hmin, hmax, hx⟩ := hok
    exact ⟨_, _, reducerHolds_newReducer hmin hmax hx⟩
  | brwrd =>
    obtain ⟨n, x, hholds⟩ := hreducer hvalid
    exact ⟨n, _, (hholds.after_step (Nat.sub_one_lt (width_pos _).ne')).2⟩
  | brshr k =>
    have hok := brshr_check_eq_not_contractViolated k s
    rw [hv, Bool.not_false, Bool.and_eq_true, decide_eq_true_eq] at hok
    obtain ⟨n, x, hholds⟩ := hreducer hok.1
    exact ⟨n, _, (hholds.after_step hok.2).2⟩
  | brrem rd => cases hvalid
  | _ => exact hreducer hvalid

theorem inv_effectOf {i : Instr} {s : State} (h : Inv s) (hs : s.fc = 0) (hv : contractViolated i s = false) :
    Inv (effectOf i s) := by
  have hfc := (effectOf_fc i s).trans hs
  obtain ⟨st, d, hresp⟩ := effectOf_resp i s
  refine ⟨by simp [hfc], reducer_effectOf hv h.reducer, fun r hr => ?_, fun r hr hne => ?_⟩ <;> cases hresp.symm.trans hr
  · exact hfc.symm
  · exact absurd rfl hne

theorem inv_exec {i : Instr} {s t : State} (h : Inv s) (hexec : exec i s = .next t) : Inv t := by
  obtain ⟨hs, hv, rfl⟩ | ⟨-, -, rfl⟩ | ⟨-, rfl⟩ := exec_cases hexec
  · exact inv_effectOf h hs hv
  · exact inv_of_fault_response (by decide : contractCode.toNat ≤ 2) h.reducer rfl
  · exact inv_of_fault_response h.code_legal h.reducer rfl

theorem inv_resetUnit (s : State) : Inv (resetUnit s) :=
  invHoldsAtReset.congr rfl rfl rfl

/-- Settles O13: each of the `step_cases` keeps the invariant and the parameters. -/
theorem stepKeepsInv : Obligations.StepKeepsInv := by
  unfold Obligations.StepKeepsInv
  intro s t hstep
  obtain ⟨-, rfl⟩ | ⟨q, rest, -, hserve⟩ | ⟨e, rest, -, -, rfl⟩ := step_cases hstep
  · exact ⟨id, rfl⟩
  · have haccept (h : Inv s) : Inv (acceptRequest q { s with inputs := rest }) := h.congr rfl rfl rfl
    obtain ⟨i, -, hexec⟩ | ⟨-, rfl⟩ | ⟨-, rfl⟩ := hserve
    · exact ⟨fun h => inv_exec (haccept h) hexec, (reducerFrame_exec hexec).trig⟩
    · exact ⟨fun h => inv_of_fault_response (by decide : illegalCode.toNat ≤ 2) h.reducer rfl, rfl⟩
    · exact ⟨fun h => inv_of_fault_response h.code_legal h.reducer rfl, rfl⟩
  · exact ⟨fun _ => inv_resetUnit _, rfl⟩

end Sys2Proof.Machine

/-! SUPPORT. Two units that differ only in data registers nothing has written since reset (10_state.md R36, log 1): every state
operation keeps the difference there, and a command that reads written registers reads the same on both. -/

namespace Sys2Proof.Machine

namespace AgreeOnWritten

variable {s s' : State} (h : AgreeOnWritten s s')
include h

theorem readX_eq {r : RegNum} (hr : s.written[r] = true) : readX s' r = readX s r := h.2 r hr

theorem operand_eq (F : Fmt) {r : RegNum} (hr : s.written[r] = true) : operand F s' r = operand F s r :=
  congrArg (BitVec.setWidth F.width) (h.readX_eq hr)

theorem shiftOperand_eq {r : RegNum} (hr : s.written[r] = true) : shiftOperand s' r = shiftOperand s r :=
  congrArg (fun v => (v.extractLsb' 0 32).toNat) (h.readX_eq hr)

/-! All that is not a data register is the same. -/

theorem fc_eq : s'.fc = s.fc := by rw [h.1]
theorem br_eq : s'.br = s.br := by rw [h.1]
theorem wdata_eq : s'.wdata = s.wdata := by rw [h.1]
theorem trig_eq : s'.trig = s.trig := by rw [h.1]
theorem inputs_eq : s'.inputs = s.inputs := by rw [h.1]
theorem fsr_eq : fsr s' = fsr s := by rw [h.1]; rfl
theorem resetUnit_eq (rest : List HostEvent) :
    resetUnit { s' with inputs := rest } = resetUnit { s with inputs := rest } := by rw [h.1]; rfl

/-! The rule of each state operation. -/

/-- An operation that reads and writes no data register and no mark. -/
theorem map {f : State → State} (hx : ∀ u, (f u).x = u.x) (hwritten : ∀ u, (f u).written = u.written)
    (hf : ∀ (u : State) (x' : Vector Word 8), f { u with x := x' } = { f u with x := x' }) :
    AgreeOnWritten (f s) (f s') := by
  refine ⟨?_, fun r hr => ?_⟩
  · rw [hx s', h.1]
    exact hf s _
  · rw [hwritten] at hr
    rw [hx, hx]
    exact h.2 r hr

theorem takeRequest (q : Request) (rest : List HostEvent) :
    AgreeOnWritten (acceptRequest q { s with inputs := rest }) (acceptRequest q { s' with inputs := rest }) :=
  h.map (f := fun u => acceptRequest q { u with inputs := rest }) (fun _ => rfl) (fun _ => rfl) (fun _ _ => rfl)

theorem respond (d : Word) (st : Status) : AgreeOnWritten (respond d st s) (respond d st s') :=
  h.map (fun _ => rfl) (fun _ => rfl) (fun _ _ => rfl)

theorem accrue (st : Status) : AgreeOnWritten (accrue st s) (accrue st s') :=
  h.map (fun _ => rfl) (fun _ => rfl) (fun _ _ => rfl)

theorem clearNx : AgreeOnWritten (clearNx s) (clearNx s') :=
  h.map (fun _ => rfl) (fun _ => rfl) (fun _ _ => rfl)

theorem setBr (b : Reducer) : AgreeOnWritten (setBr b s) (setBr b s') :=
  h.map (fun _ => rfl) (fun _ => rfl) (fun _ _ => rfl)

theorem discardBr : AgreeOnWritten (discardBr s) (discardBr s') :=
  h.map (fun _ => rfl) (fun _ => rfl) (fun _ _ => rfl)

theorem setLrr (q : Option LrrRequest) : AgreeOnWritten (setLrr q s) (setLrr q s') :=
  h.map (fun _ => rfl) (fun _ => rfl) (fun _ _ => rfl)

theorem raiseFault (code : BitVec 4) : AgreeOnWritten (raiseFault code s) (raiseFault code s') :=
  h.map (fun _ => rfl) (fun _ => rfl) (fun _ _ => rfl)

theorem answerFaulted : AgreeOnWritten (answerFaulted s) (answerFaulted s') :=
  h.map (fun _ => rfl) (fun _ => rfl) (fun _ _ => rfl)

/-- One value written to both: the register agrees, and any other that is marked was marked before. -/
theorem writeX (d : RegNum) (v : Word) : AgreeOnWritten (writeX d v s) (writeX d v s') := by
  refine ⟨?_, fun r hr => ?_⟩
  · conv_lhs => rw [h.1]
    rw [h.1]
    rfl
  · by_cases hd : r = d
    · subst hd
      exact (readX_writeX_same r v s').trans (readX_writeX_same r v s).symm
    · rw [written_getElem_writeX_ne hd] at hr
      exact (readX_writeX_ne hd v s').trans ((h.2 r hr).trans (readX_writeX_ne hd v s).symm)

theorem finish (d : RegNum) (v : Word) (st : Status) : AgreeOnWritten (finish d v st s) (finish d v st s') :=
  (h.writeX d v).respond v st

theorem roundingEffect {op : RoundOp} {F : Fmt} {ra : RegNum} (hra : s.written[ra] = true) (rd : RegNum) :
    AgreeOnWritten (effectOf.roundingEffect s op F rd ra) (effectOf.roundingEffect s' op F rd ra) := by
  simp only [effectOf.roundingEffect, h.operand_eq F hra]
  exact (h.accrue _).finish rd _ _

/-- A command whose operands are written registers has the same effect on both. -/
theorem effectOf {i : Instr} (hread : ∀ r ∈ readsOf i, s.written[r] = true) :
    AgreeOnWritten (effectOf i s) (effectOf i s') := by
  cases i with
  | nop => exact h.respond 0 .ok
  | wr rd =>
    simp only [Machine.effectOf, h.wdata_eq]
    exact (h.writeX rd _).respond 0 .ok
  | rd ra =>
    simp only [Machine.effectOf, h.readX_eq (hread ra (by simp [readsOf]))]
    exact h.respond _ .ok
  | mov rd ra =>
    simp only [Machine.effectOf, h.readX_eq (hread ra (by simp [readsOf]))]
    exact h.finish rd _ .ok
  | rdst =>
    simp only [Machine.effectOf, h.fsr_eq]
    exact h.respond _ .ok
  | clrst => exact h.clearNx.respond 0 .ok
  | ceil F rd ra | floor F rd ra | trunc F rd ra | round F rd ra | roundeven F rd ra =>
    exact h.roundingEffect (hread ra (by simp [readsOf])) rd
  | mul F rd ra rb | div F rd ra rb | fmod F rd ra rb =>
    simp only [Machine.effectOf, h.operand_eq F (hread ra (by simp [readsOf])), h.operand_eq F (hread rb (by simp [readsOf]))]
    exact h.finish rd _ .ok
  | brnew F ra rb =>
    simp only [Machine.effectOf, h.operand_eq F (hread ra (by simp [readsOf])), h.operand_eq F (hread rb (by simp [readsOf]))]
    exact (h.setBr _).respond 0 .ok
  | brwrd | brshr =>
    simp only [Machine.effectOf, h.br_eq]
    exact (h.setBr _).respond 0 .ok
  | brrem rd =>
    simp only [Machine.effectOf, h.br_eq]
    exact h.discardBr.finish rd _ .ok
  | modshl F rd ra rb rc =>
    simp only [Machine.effectOf, h.operand_eq F (hread ra (by simp [readsOf])), h.operand_eq F (hread rb (by simp [readsOf])),
      h.shiftOperand_eq (hread rc (by simp [readsOf]))]
    exact h.finish rd _ .ok
  | rempio2 rd ra =>
    simp only [Machine.effectOf, h.operand_eq .f64 (hread ra (by simp [readsOf])), h.trig_eq]
    exact ((((h.setLrr _).writeX rd _).writeX (rd + 1) _).writeX (rd + 2) _).respond _ .ok

/-- The checks read the reducer and the operands. -/
theorem contractViolated_eq {i : Instr} (hread : ∀ r ∈ readsOf i, s.written[r] = true) :
    contractViolated i s' = contractViolated i s := by
  cases i with
  | brnew F ra rb | modshl F rd ra rb rc =>
    simp only [contractViolated, h.operand_eq F (hread ra (by simp [readsOf])), h.operand_eq F (hread rb (by simp [readsOf]))]
  | brwrd | brshr | brrem => simp only [contractViolated, h.br_eq]
  | _ => rfl

theorem checked (ok : Bool) {e e' : State} (he : AgreeOnWritten e e') :
    AgreeOnWritten (checked ok s e) (checked ok s' e') := by
  cases ok with
  | true => exact he
  | false => exact h.raiseFault contractCode

/-- Serving on both: the effects, or the stored code twice. -/
theorem serve {e e' : State} (he : s.fc = 0 → AgreeOnWritten e e') :
    ∃ t t', serve s e = .next t ∧ serve s' e' = .next t' ∧ AgreeOnWritten t t' := by
  by_cases hs : s.fc = 0
  · exact ⟨e, e', serve_of_running hs e, serve_of_running (h.fc_eq.trans hs) e', he hs⟩
  · exact ⟨_, _, serve_of_faulted hs e, serve_of_faulted (by rwa [h.fc_eq]) e', h.answerFaulted⟩

/-- A command reads written registers only, or a faulted unit answers and reads none. -/
theorem exec {i : Instr} (hsafe : s.fc = 0 → ∀ r ∈ readsOf i, s.written[r] = true) :
    ∃ t t', exec i s = .next t ∧ exec i s' = .next t' ∧ AgreeOnWritten t t' := by
  rw [exec_eq_serve_effectOf, exec_eq_serve_effectOf]
  refine h.serve fun hs => ?_
  rw [h.contractViolated_eq (hsafe hs)]
  exact h.checked _ (h.effectOf (hsafe hs))

end AgreeOnWritten

/-- The registers a safe step reads have been written. -/
theorem written_of_safeStep {s : State} {q : Request} {rest : List HostEvent} {i : Instr} (hsafe : safeStep s = true)
    (hinputs : s.inputs = .request q :: rest) (hdecode : decode q.cmd = .ok i) (hs : s.fc = 0) :
    ∀ r ∈ readsOf i, s.written[r] = true := by
  have hread : readsWritten i s = true := by simpa [safeStep, hinputs, hdecode, hs] using hsafe
  simpa [readsWritten] using hread

/-- Settles O19: the two runs of an instruction by `AgreeOnWritten.exec`; a reserved word and a reset read nothing. -/
theorem unwrittenRegistersReachNothing : Obligations.UnwrittenRegistersReachNothing := by
  unfold Obligations.UnwrittenRegistersReachNothing
  intro s s' h hsafe
  cases hinputs : s.inputs with
  | nil => exact ⟨s, s', step_idle hinputs, step_idle (h.inputs_eq.trans hinputs), h⟩
  | cons e rest =>
    have hreset (he : e = .reset ∨ ∃ q, e = .requestCutByReset q) :
        ∃ t t', step s = .next t ∧ step s' = .next t' ∧ AgreeOnWritten t t' :=
      ⟨_, _, step_reset hinputs he, step_reset (h.inputs_eq.trans hinputs) he, by
        rw [h.resetUnit_eq]
        exact ⟨rfl, fun _ _ => rfl⟩⟩
    cases e with
    | request q =>
      rw [step_event hinputs, step_event (h.inputs_eq.trans hinputs), handleEvent, handleEvent, serveRequest, serveRequest]
      cases hdecode : decode q.cmd with
      | ok i => exact (h.takeRequest q rest).exec fun hs => written_of_safeStep (s := s) hsafe hinputs hdecode hs
      | error e =>
        exact (h.takeRequest q rest).serve fun _ => (h.takeRequest q rest).raiseFault illegalCode
    | reset => exact hreset (.inl rfl)
    | requestCutByReset q => exact hreset (.inr ⟨q, rfl⟩)

end Sys2Proof.Machine

/-! SUPPORT. Runs of several commands: register transport (46_system_commands.md section 3) and the round trip of the reducer
(44_barrett.md section 2). -/

namespace Sys2Proof.Machine

theorem runAll_cons {i : Instr} {s t : State} (h : exec i s = .next t) (rest : List Instr) :
    runAll (i :: rest) s = runAll rest t := by
  rw [runAll, h]

/-! Register transport. -/

theorem encode_rd (ra : RegNum) : encode (.rd ra) = 0x02#6 ++ 0#5 ++ regField ra ++ 0#18 := by
  revert ra
  decide

theorem encode_mov (rd ra : RegNum) : encode (.mov rd ra) = 0x03#6 ++ 0#2 ++ regField rd ++ regField ra ++ 0#18 := by
  revert rd ra
  decide

section Transport

variable {s : State} (hs : s.fc = 0)
include hs

theorem exec_rd (ra : RegNum) : exec (.rd ra) s = .next (respond (readX s ra) .ok s) := serve_of_running hs _

theorem exec_wr (rd : RegNum) : exec (.wr rd) s = .next (respond 0 .ok (writeX rd s.wdata s)) := serve_of_running hs _

theorem exec_mov (rd ra : RegNum) : exec (.mov rd ra) s = .next (finish rd (readX s ra) .ok s) := serve_of_running hs _

/-- Whatever a register holds, the last `RD` of a run answers it. -/
theorem runAll_rd {ra : RegNum} {v : Word} (hread : readX s ra = v) :
    ∃ t, runAll [.rd ra] s = .next t ∧ t.resp = some { fc := 0, st := .ok, data := v } := by
  subst hread
  exact ⟨_, runAll_cons (exec_rd hs ra) [], rfl⟩

theorem runAll_wr_rd (d : RegNum) :
    ∃ t, runAll [.wr d, .rd d] s = .next t ∧ t.resp = some { fc := 0, st := .ok, data := s.wdata } := by
  have hread : readX (respond 0 .ok (writeX d s.wdata s)) d = s.wdata := readX_writeX_same d _ s
  rw [runAll_cons (exec_wr hs d)]
  exact runAll_rd (by exact hs) hread

theorem runAll_wr_mov_rd (d a : RegNum) :
    ∃ t, runAll [.wr a, .mov d a, .rd d] s = .next t ∧ t.resp = some { fc := 0, st := .ok, data := s.wdata } := by
  have hsource : readX (respond 0 .ok (writeX a s.wdata s)) a = s.wdata := readX_writeX_same a _ s
  have hread : readX (finish d s.wdata .ok (respond 0 .ok (writeX a s.wdata s))) d = s.wdata := readX_writeX_same d _ _
  rw [runAll_cons (exec_wr hs a), runAll_cons (exec_mov (s := respond 0 .ok (writeX a s.wdata s)) hs d a), hsource]
  exact runAll_rd (by exact hs) hread

end Transport

/-- Settles O22: each command by its effect on a running unit, and a transport by reading what was written last. -/
theorem rdAndMovCommands : Obligations.RdAndMovCommands := by
  unfold Obligations.RdAndMovCommands
  exact ⟨encode_rd, encode_mov, fun ra s hs => exec_rd hs ra, fun rd ra s hs => exec_mov hs rd ra,
    fun s v hs => ⟨fun d => runAll_wr_rd (s := { s with wdata := v }) hs d,
      fun d a => runAll_wr_mov_rd (s := { s with wdata := v }) hs d a⟩⟩

/-! The round trip of the reducer. -/

/-- The command of one step of the statement: `BRWRD`, or `BRSHR k`. -/
def reducerCommand : Option ℕ → Instr
  | none => .brwrd
  | some k => .brshr k

/-- A step by `o` bits, the whole word but one when none is given. -/
theorem exec_reducerCommand {s : State} {F : Fmt} (hs : s.fc = 0) (hvalid : s.br.valid = true) (hF : s.br.fmt = F)
    {o : Option ℕ} (ho : ∀ k, o = some k → k < F.width) :
    exec (reducerCommand o) s = .next (respond 0 .ok (setBr (stepReducer (o.getD (F.width - 1)) s.br) s)) := by
  subst hF
  cases o with
  | none =>
    rw [reducerCommand, exec_brwrd_eq_brshr]
    exact exec_brshr_of_valid hs hvalid (Nat.sub_one_lt (width_pos _).ne')
  | some k => exact exec_brshr_of_valid hs hvalid (ho k rfl)

/-- The running unit in the middle of a round trip: its reducer is valid and holds (n, x) at width F. -/
structure ReducerAt (F : Fmt) (n x : ℕ) (s : State) : Prop where
  running : s.fc = 0
  valid : s.br.valid = true
  format : s.br.fmt = F
  holds : ReducerHolds s.br n x

/-- From there any steps and `BRREM` leave the value shifted by the total, reduced to below 2n. -/
theorem ReducerAt.runAll_steps {F : Fmt} {n : ℕ} (rd : RegNum) (ks : List (Option ℕ))
    (hks : ∀ k, some k ∈ ks → k < F.width) {x : ℕ} {s : State} (h : ReducerAt F n x s) :
    ∃ t, runAll (ks.map reducerCommand ++ [.brrem rd]) s = .next t ∧ t.br.valid = false ∧ t.fc = 0 ∧
      (t.x[rd]).toNat < 2 * n ∧ (t.x[rd]).toNat % n = x * 2 ^ (ks.map (fun o => o.getD (F.width - 1))).sum % n := by
  induction ks generalizing x s with
  | nil =>
    have hread : readX (finish rd (extractRemainder s.br) .ok (discardBr s)) rd = extractRemainder s.br :=
      readX_writeX_same rd _ _
    have hvalue := (congrArg BitVec.toNat hread).trans h.holds.toNat_extractRemainder
    refine ⟨_, runAll_cons (exec_brrem_of_valid h.running rd h.valid) [], rfl, h.running, ?_, ?_⟩
    · exact hvalue ▸ h.holds.below
    · rw [List.map_nil, List.sum_nil, pow_zero, Nat.mul_one]
      exact congrArg (· % n) hvalue
  | cons o ks ih =>
    have ho (k : ℕ) (hk : o = some k) : k < F.width := hks k (by simp [hk])
    have hlt : o.getD (F.width - 1) < s.br.fmt.width := by
      rw [h.format]
      cases o with
      | none => exact Nat.sub_one_lt (width_pos F).ne'
      | some k => exact ho k rfl
    obtain ⟨hle, hstep⟩ := h.holds.after_step hlt
    obtain ⟨t, hrun, hvalid, hfc, hbelow, hcongr⟩ := ih (fun k hk => hks k (List.mem_cons_of_mem o hk))
      (s := respond 0 .ok (setBr (stepReducer (o.getD (F.width - 1)) s.br) s)) ⟨h.running, h.valid, h.format, hstep⟩
    refine ⟨t, (runAll_cons (exec_reducerCommand h.running h.valid h.format ho) _).trans hrun, hvalid, hfc, hbelow, ?_⟩
    rw [hcongr, List.map_cons, List.sum_cons, pow_add, ← Nat.mul_assoc]
    rw [Nat.mul_comm _ n] at hle ⊢
    exact (Nat.mul_mod _ _ _).trans ((congrArg (· * _ % n) (Nat.sub_mul_mod hle)).trans (Nat.mul_mod _ _ _).symm)

/-- Settles O44: a new reducer holds (n, x) by `reducerHolds_newReducer`, and `ReducerAt.runAll_steps` is the rest. -/
theorem barrettRoundTrip : Obligations.BarrettRoundTrip := by
  unfold Obligations.BarrettRoundTrip
  intro F ra rb rd ks s hs hmin hmax hx hks
  have hnew : exec (.brnew F ra rb) s =
      .next (respond 0 .ok (setBr (newReducer F (operand F s ra).toNat (operand F s rb).toNat) s)) :=
    serve_checked_of_pass hs (brnewOk_iff.mpr ⟨hmin, hmax, hx⟩) _
  obtain ⟨t, hrun, hvalid, hfc, hbelow, hcongr⟩ := ReducerAt.runAll_steps rd ks hks
    (s := respond 0 .ok (setBr (newReducer F (operand F s ra).toNat (operand F s rb).toNat) s))
    ⟨hs, rfl, rfl, reducerHolds_newReducer hmin hmax hx⟩
  exact ⟨t, _, (runAll_cons hnew _).trans hrun, rfl, hvalid, hfc, hbelow, hcongr⟩

end Sys2Proof.Machine

/-! SUPPORT. The datapath of `MODSHL` (44_barrett.md R251 to R253): a modulus that is no power of two is shifted into the range
of construction, and the loop of steps keeps a reducer that holds the value. -/

namespace Sys2Proof.Machine

/-! The normalization shift (R252). -/

theorem clz_of_pos {N v : ℕ} (hv : v ≠ 0) : clz N v = N - 1 - Nat.log2 v := if_neg hv

/-- A modulus in the range of the command that is no power of two lands strictly between R/8 and R/4. -/
theorem normalized_modulus_in_range {N y : ℕ} (hy : y ≠ 0) (hmax : y ≤ (2 ^ N - 1) / 4) (hpow : y &&& (y - 1) ≠ 0) :
    2 ^ N < 8 * (y * 2 ^ (clz N y - 2)) ∧ 4 * (y * 2 ^ (clz N y - 2)) < 2 ^ N := by
  have hlow : 2 ^ Nat.log2 y < y := (Nat.log2_self_le hy).lt_of_ne fun h =>
    hpow ((Nat.and_sub_one_eq_zero_iff_isPowerOfTwo hy).mpr ⟨_, h.symm⟩)
  have hhigh : y < 2 ^ (Nat.log2 y + 1) := Nat.lt_log2_self
  have hpos : 0 < 2 ^ N := by positivity
  have hlog : Nat.log2 y + 2 < N := by
    refine (Nat.pow_lt_pow_iff_right (a := 2) one_lt_two).mp ?_
    rw [pow_add]
    omega
  have hshift : 2 ^ N = 2 ^ (clz N y - 2) * 2 ^ (Nat.log2 y) * 8 ∧ 2 ^ N = 2 ^ (clz N y - 2) * 2 ^ (Nat.log2 y + 1) * 4 := by
    rw [clz_of_pos hy, ← pow_add, ← pow_add, (by norm_num : (8 : ℕ) = 2 ^ 3), (by norm_num : (4 : ℕ) = 2 ^ 2), ← pow_add,
      ← pow_add]
    constructor <;> congr 1 <;> omega
  have hscale : 0 < 2 ^ (clz N y - 2) := by positivity
  constructor
  · rw [hshift.1]
    nlinarith
  · rw [hshift.2]
    nlinarith

/-! Steps on whole numbers: the loop runs what `stepReducer` does to a reducer. -/

/-- The accumulator of a stepped reducer does not overflow. -/
theorem ReducerHolds.toNat_stepReducer_num {b : Reducer} {n x k : ℕ} (h : ReducerHolds b n x) (hk : k < b.fmt.width) :
    (stepReducer k b).num.toNat = reduceStep b.fmt.width k b.num.toNat b.rem.toNat := by
  obtain ⟨hle, hstep⟩ := h.after_step hk
  have hadd := h.reduceStep_add hk
  rw [hstep.num_eq, stepReducer_quo, Nat.mul_assoc, Nat.sub_mul, Nat.mul_sub]
  refine Nat.sub_eq_of_eq_add ?_
  linarith

/-- After a step the value is the shifted one, modulo n. -/
theorem ReducerHolds.exists_after_step {b : Reducer} {n x k : ℕ} (h : ReducerHolds b n x) (hk : k < b.fmt.width) :
    ∃ x', ReducerHolds (stepReducer k b) n x' ∧ x' ≡ x * 2 ^ k [MOD n] := by
  obtain ⟨hle, hstep⟩ := h.after_step hk
  refine ⟨_, hstep, ?_⟩
  rw [Nat.mul_comm _ n] at hle ⊢
  exact Nat.sub_mul_mod hle

theorem one_lt_width (F : Fmt) : 1 < F.width := by cases F <;> decide

/-- R253: the loop ends with fewer than N − 1 bits to go, and a reducer whose value, shifted by those, is the value it began
with shifted by all. -/
theorem ReducerHolds.exists_wordReduceLoop {b : Reducer} {n x : ℕ} (h : ReducerHolds b n x) {fuel e : ℕ} (hfuel : e ≤ fuel) :
    ∃ b' x' e', wordReduceLoop b.fmt.width b.rem.toNat fuel e b.num.toNat = (e', b'.num.toNat) ∧
      ReducerHolds b' n x' ∧ b'.fmt = b.fmt ∧ b'.rem = b.rem ∧ e' < b.fmt.width ∧
      x' * 2 ^ e' ≡ x * 2 ^ e [MOD n] := by
  have hwidth := one_lt_width b.fmt
  induction fuel generalizing b x e with
  | zero => exact ⟨b, x, e, rfl, h, rfl, rfl, by omega, rfl⟩
  | succ fuel ih =>
    rw [wordReduceLoop]
    split_ifs with hmore
    · have hk : b.fmt.width - 1 < b.fmt.width := by omega
      obtain ⟨x₁, hstep, hcongr₁⟩ := h.exists_after_step hk
      obtain ⟨b', x', e', hloop, hholds, hfmt, hrem, he', hcongr⟩ := ih hstep (e := e - (b.fmt.width - 1)) (by omega) hwidth
      rw [h.toNat_stepReducer_num hk] at hloop
      refine ⟨b', x', e', hloop, hholds, hfmt, hrem, he', hcongr.trans ?_⟩
      have hsplit : 2 ^ e = 2 ^ (b.fmt.width - 1) * 2 ^ (e - (b.fmt.width - 1)) := two_pow_eq_mul (by omega)
      rw [hsplit, ← Nat.mul_assoc]
      exact hcongr₁.mul_right _
    · exact ⟨b, x, e, rfl, h, rfl, rfl, by omega, rfl⟩

/-- One conditional subtraction reduces a value below 2n (R253). -/
theorem sub_if_le_eq_mod {p n : ℕ} (hp : p < 2 * n) : (if n ≤ p then p - n else p) = p % n := by
  split_ifs with h
  · rw [Nat.mod_eq_sub_mod h, Nat.mod_eq_of_lt (by omega)]
  · rw [Nat.mod_eq_of_lt (Nat.lt_of_not_le h)]

/-- The datapath's reducer part, for a modulus in the range of construction. -/
theorem reduced_eq_mod {F : Fmt} {n x : ℕ} (hmin : 2 ^ F.width < 8 * n) (hmax : 4 * n < 2 ^ F.width) (hx : x < 2 * n) (e : ℕ) :
    let w := wordReduceLoop F.width (barrettR F.width (2 * n)) e e (2 * x * barrettQ F.width (2 * n))
    let p := partialRemainder F.width (2 * n) (reduceStep F.width w.1 w.2 (barrettR F.width (2 * n)))
    (if n ≤ p then p - n else p) = x * 2 ^ e % n := by
  have hnew := reducerHolds_newReducer hmin hmax hx
  obtain ⟨b, x₁, e₁, hloop, hholds, hfmt, hrem, he₁, hcongr₁⟩ := hnew.exists_wordReduceLoop (le_refl e)
  obtain ⟨x₂, hstep, hcongr₂⟩ := hholds.exists_after_step (hfmt ▸ he₁)
  have hnum := hholds.toNat_stepReducer_num (hfmt ▸ he₁)
  have hvalue := hstep.partialRemainder_eq
  rw [hstep.div_eq, hnum, stepReducer_fmt, hfmt, hrem, hnew.rem_eq] at hvalue
  rw [hnew.num_eq, hnew.quo_eq, hnew.rem_eq] at hloop
  simp only [newReducer_fmt] at hloop hvalue
  simp only [barrettR, barrettQ, hloop, hvalue]
  rw [sub_if_le_eq_mod hstep.below]
  exact hcongr₂.trans hcongr₁

/-- R251: the mask of a power of two takes the remainder. -/
theorem modshlDatapath_of_power {N x e y : ℕ} (hy : y ≠ 0) (hmax : y ≤ (2 ^ N - 1) / 4) (hpow : y &&& (y - 1) = 0) :
    modshlDatapath N x e y = x * 2 ^ e % y := by
  obtain ⟨j, rfl⟩ := (Nat.and_sub_one_eq_zero_iff_isPowerOfTwo hy).mp hpow
  have hpos : 0 < 2 ^ N := by positivity
  have hj : j < N := (Nat.pow_lt_pow_iff_right (a := 2) one_lt_two).mp (by omega)
  rw [modshlDatapath, if_pos hpow]
  split_ifs with he
  · rw [Nat.and_two_pow_sub_one_eq_mod, loPart, Nat.mod_mod_of_dvd _ (Nat.pow_dvd_pow 2 hj.le)]
  · exact (Nat.mod_eq_zero_of_dvd ((Nat.pow_dvd_pow 2 (by omega)).mul_left x)).symm

/-- Settles O46: the mask for a power of two, else `reduced_eq_mod` for the normalized modulus, whose shift cancels. -/
theorem modshlDatapathRefinesContract : Obligations.ModshlDatapathRefinesContract := by
  unfold Obligations.ModshlDatapathRefinesContract
  intro F x e y hy hmax hx
  by_cases hpow : y &&& (y - 1) = 0
  · exact modshlDatapath_of_power hy hmax hpow
  · obtain ⟨hlow, hhigh⟩ := normalized_modulus_in_range hy hmax hpow
    have hx' : x < 2 * (y * 2 ^ (clz F.width y - 2)) :=
      hx.trans_le (Nat.mul_le_mul_left 2 (Nat.le_mul_of_pos_right y (by positivity)))
    have hreduced := reduced_eq_mod hlow hhigh hx' (e + (clz F.width y - 2))
    simp only at hreduced
    rw [modshlDatapath, if_neg hpow]
    simp only [hreduced]
    rw [pow_add, ← Nat.mul_assoc, Nat.mul_mod_mul_right, Nat.mul_div_cancel _ (by positivity)]

end Sys2Proof.Machine

/-! SUPPORT. `FMOD` (44_barrett.md section 4): the properties of the contract, and its datapath, which packs the remainder of
the significands at the divisor's exponent. -/

namespace Sys2Proof

section Patterns

variable {F : Fmt}

/-- A pattern is its sign and its magnitude (R104). -/
theorem pat_ext {p q : Pat F} (hsign : signOf p = signOf q) (habs : absOf p = absOf q) : p = q := by
  refine BitVec.eq_of_toNat_eq ?_
  rw [toNat_eq_sign_add_absOf p, toNat_eq_sign_add_absOf q, hsign, habs]

theorem signOf_signedZero_or_ofNat (s : Bool) {m : ℕ} (hm : m < 2 ^ (F.width - 1)) :
    signOf (signedZero F s ||| BitVec.ofNat F.width m) = s := by
  have hmag : (BitVec.ofNat F.width m).msb = false := by
    rw [BitVec.msb_eq_decide, BitVec.toNat_ofNat]
    exact decide_eq_false (Nat.not_le.mpr ((Nat.mod_le _ _).trans_lt hm))
  rw [signOf, BitVec.msb_or, hmag, Bool.or_false]
  exact signOf_signedZero s

theorem expf_lt_of_isFinite {p : Pat F} (h : isFinite p = true) : expf p < F.expSat := by
  rw [← absOf_lt_inf_iff, ← toNat_infPat]
  exact of_decide_eq_true h

theorem isFinite_iff {p : Pat F} : isFinite p = true ↔ expf p < F.expSat := by
  rw [← absOf_lt_inf_iff, ← toNat_infPat]
  exact decide_eq_true_iff

end Patterns

end Sys2Proof

namespace Sys2Proof.Machine

section Fmod

variable {F : Fmt} {a b : Pat F}

/-- R257 row 6: below the divisor the dividend is the answer. -/
theorem fmodPat_of_lt (ha : isFinite a = true) (hb : isFinite b = true) (hnz : isZero b = false) (hlt : units a < units b) :
    fmodPat a b = a := by
  have hnan {p : Pat F} (hp : isFinite p = true) : isNaN p = false := decide_eq_false (of_decide_eq_true hp).not_gt
  have hinf {p : Pat F} (hp : isFinite p = true) : isInf p = false := decide_eq_false (of_decide_eq_true hp).ne
  simp [fmodPat, fmodSpecial, hnan ha, hnan hb, hinf ha, hinf hb, hnz, hlt]

section LastRow

variable (ha : isFinite a = true) (hb : isFinite b = true) (hnz : isZero b = false) (hle : units b ≤ units a)
include ha hb hnz hle

theorem signOf_fmodPat : signOf (fmodPat a b) = signOf a := by
  simp only [fmodPat, fmodSpecial_eq_none ha hb hnz hle]
  split_ifs
  · exact signOf_signedZero _
  · exact signOf_rne _ _ _

/-- What is taken off is ⌊|a|/|b|⌋ times the divisor, with the signs of the quotient. -/
theorem val_sub_val_fmodPat : val a - val (fmodPat a b) =
    (if signOf a = signOf b then ((units a / units b : ℕ) : ℤ) else -(units a / units b : ℕ) : ℤ) * val b := by
  have hdiv : (units a : ℚ) = units b * (units a / units b : ℕ) + (units a % units b : ℕ) := by
    exact_mod_cast (Nat.div_add_mod _ _).symm
  rw [val_eq_units a, val_eq_units b, val_eq_units (fmodPat a b), signOf_fmodPat ha hb hnz hle,
    units_fmodPat ha hb hnz hle]
  generalize units a / units b = q at hdiv ⊢
  rw [hdiv]
  cases signOf a <;> cases signOf b <;> simp <;> ring

end LastRow

end Fmod

/-- Settles O48: below the divisor the dividend itself, else the remainder of `units_fmodPat`. -/
theorem fmodProperties : Obligations.FmodProperties := by
  unfold Obligations.FmodProperties
  intro F a b ha hb hnz
  rw [abs_val_lt_abs_val_iff, abs_val_lt_abs_val_iff]
  obtain hlt | hle := Nat.lt_or_ge (units a) (units b)
  · rw [fmodPat_of_lt ha hb hnz hlt]
    exact ⟨hlt, rfl, ⟨0, by simp⟩, fun _ => rfl⟩
  · refine ⟨?_, signOf_fmodPat ha hb hnz hle, ⟨_, val_sub_val_fmodPat ha hb hnz hle⟩, fun h => absurd h hle.not_gt⟩
    rw [units_fmodPat ha hb hnz hle]
    exact Nat.mod_lt _ (units_pos_of_not_isZero hnz)

/-! The datapath (R258, R259). -/

section Datapath

variable {F : Fmt}

theorem units_eq_sigExp (p : Pat F) : units p = (sigExp p).1 * 2 ^ (sigExp p).2 := by
  rw [units, sigExp]
  split_ifs <;> simp

theorem sigExp_snd (p : Pat F) : (sigExp p).2 = expf p - 1 := by
  rw [sigExp]
  split_ifs with h <;> simp [h]

theorem sigExp_fst_lt (p : Pat F) : (sigExp p).1 < 2 ^ (F.sigBits + 1) := by
  have hsig := sig_lt p
  rw [sigExp, pow_succ]
  split_ifs <;> simp only <;> omega

theorem sigExp_fst_pos {p : Pat F} (h : isZero p = false) : 0 < (sigExp p).1 := by
  have hunits := units_pos_of_not_isZero h
  rw [units_eq_sigExp] at hunits
  exact Nat.pos_of_mul_pos_right hunits

/-- A significand is a modulus the datapath of `MODSHL` accepts. -/
theorem sigExp_fst_le (p : Pat F) : (sigExp p).1 ≤ (2 ^ F.width - 1) / 4 := by
  have hlt := sigExp_fst_lt p
  have hroom : 2 ^ (F.sigBits + 1) * 8 ≤ 2 ^ F.width := by cases F <;> decide
  omega

/-- The remainder of two magnitudes, at the divisor's exponent. -/
theorem units_mod_units {a b : Pat F} (hexp : (sigExp b).2 ≤ (sigExp a).2) :
    units a % units b =
      (sigExp a).1 % (sigExp b).1 * 2 ^ ((sigExp a).2 - (sigExp b).2) % (sigExp b).1 * 2 ^ (sigExp b).2 := by
  have hsplit : 2 ^ (sigExp a).2 = 2 ^ ((sigExp a).2 - (sigExp b).2) * 2 ^ (sigExp b).2 := two_pow_eq_mul (by omega)
  rw [units_eq_sigExp a, units_eq_sigExp b, hsplit, ← Nat.mul_assoc, Nat.mul_mod_mul_right, Nat.mod_mul_mod]

variable {rem ey : ℕ} (hrem : rem < 2 ^ (F.sigBits + 1)) (hey : ey + 2 ≤ F.expSat)
include hrem hey

/-- R259: a significand shifted up as far as its leading bit and the exponent allow keeps its value. -/
theorem signOf_and_units_packRemainder (s : Bool) :
    signOf (packRemainder F s rem ey) = s ∧ units (packRemainder F s rem ey) = rem * 2 ^ ey := by
  by_cases hzero : rem = 0
  · rw [packRemainder, if_pos hzero, hzero, Nat.zero_mul, units_eq_zero_iff]
    exact ⟨signOf_signedZero s, absOf_signedZero s⟩
  have hlow := Nat.log2_self_le hzero
  have hhigh : rem < 2 ^ (Nat.log2 rem + 1) := Nat.lt_log2_self
  have hlog := (Nat.log2_lt hzero).mpr hrem
  have hclz : clz F.width rem - F.expBits = F.sigBits - Nat.log2 rem := by
    rw [clz_of_pos hzero, width_eq_sigBits_add_expBits]
    omega
  rw [packRemainder, if_neg hzero, hclz]
  generalize hz : min (F.sigBits - Nat.log2 rem) ey = z
  have hm : rem * 2 ^ z < 2 ^ (F.sigBits + 1) :=
    calc rem * 2 ^ z < 2 ^ (Nat.log2 rem + 1) * 2 ^ z := by gcongr
      _ ≤ 2 ^ (F.sigBits + 1) := by
        rw [← pow_add]
        exact Nat.pow_le_pow_right two_pos (by omega)
  have hlead : ey - z = 0 ∨ 2 ^ F.sigBits ≤ rem * 2 ^ z := by
    refine or_iff_not_imp_left.mpr fun hne => ?_
    calc 2 ^ F.sigBits = 2 ^ Nat.log2 rem * 2 ^ z := two_pow_eq_mul (by omega)
      _ ≤ rem * 2 ^ z := by gcongr
  have hmag : (ey - z) * 2 ^ F.sigBits + rem * 2 ^ z < 2 ^ (F.width - 1) := by
    refine lt_trans ?_ (toNat_infPat_lt F)
    rw [toNat_infPat]
    have hexp : ey - z + 2 ≤ F.expSat := by omega
    rw [pow_succ] at hm
    linarith [Nat.mul_le_mul_right (2 ^ F.sigBits) hexp]
  refine ⟨signOf_signedZero_or_ofNat s hmag, ?_⟩
  rw [units_of_absOf_eq (absOf_signedZero_or_ofNat s hmag) hm hlead, Nat.mul_assoc, ← pow_add]
  congr 2
  omega

end Datapath

/-- Settles O49: the packed remainder has the sign and the units of the contract's answer, so it is that pattern. -/
theorem fmodDatapathRefinesContract : Obligations.FmodDatapathRefinesContract := by
  unfold Obligations.FmodDatapathRefinesContract
  intro F a b ha hb hnz hle
  rw [← not_lt, abs_val_lt_abs_val_iff, Nat.not_lt] at hle
  have hpos := sigExp_fst_pos hnz
  have hmod : modshlDatapath F.width ((sigExp a).1 % (sigExp b).1) ((sigExp a).2 - (sigExp b).2) (sigExp b).1 = _ :=
    modshlDatapathRefinesContract F _ _ _ hpos.ne' (sigExp_fst_le b) ((Nat.mod_lt _ hpos).trans (by omega))
  have hexp : (sigExp b).2 ≤ (sigExp a).2 := by
    have hle' := expf_le_expf_of_units_le hle
    rw [sigExp_snd, sigExp_snd]
    omega
  have hfinite : (sigExp b).2 + 2 ≤ F.expSat := by
    have hlt := expf_lt_of_isFinite hb
    have hsat : 2 ≤ F.expSat := by cases F <;> decide
    rw [sigExp_snd]
    omega
  obtain ⟨hsign, hunits⟩ := signOf_and_units_packRemainder
    ((Nat.mod_lt _ hpos).trans (sigExp_fst_lt b)) hfinite (signOf a)
  rw [← fmodPat_eq_fmodExact, fmodDatapath, hmod]
  refine pat_ext (hsign.trans (signOf_fmodPat ha hb hnz hle).symm) (absOf_eq_of_units_eq ?_)
  rw [hunits, units_fmodPat ha hb hnz hle, units_mod_units hexp]

/-! The number of steps (R254). -/

theorem wordReduceCount_eq_div {N fuel e : ℕ} (hN : 1 < N) (hfuel : e ≤ fuel) : wordReduceCount N fuel e = e / (N - 1) := by
  induction fuel generalizing e with
  | zero => rw [wordReduceCount, Nat.div_eq_of_lt (by omega)]
  | succ fuel ih =>
    rw [wordReduceCount]
    split_ifs with hmore
    · rw [ih (by omega), Nat.div_eq_sub_div (by omega) hmore]
    · exact (Nat.div_eq_of_lt (Nat.lt_of_not_le hmore)).symm

/-- The exponents differ by less than the range, and a divisor of two bits or more is shifted by at most N − 4. -/
theorem fmod_shift_le {F : Fmt} {a b : Pat F} (ha : isFinite a = true) (hpow : (sigExp b).1 &&& ((sigExp b).1 - 1) ≠ 0) :
    (sigExp a).2 - (sigExp b).2 + (clz F.width (sigExp b).1 - 2) ≤ 2 ^ F.expBits + F.width - 7 := by
  have hlt := expf_lt_of_isFinite ha
  have hne : (sigExp b).1 ≠ 0 := fun h => hpow (by simp [h])
  have hlog : Nat.log2 (sigExp b).1 ≠ 0 := fun h => by
    have hone : (sigExp b).1 < 2 ^ (Nat.log2 (sigExp b).1 + 1) := Nat.lt_log2_self
    rw [h] at hone
    have hbit : (sigExp b).1 = 1 := by omega
    simp [hbit] at hpow
  have hrange : 4 ≤ 2 ^ F.expBits ∧ 4 ≤ F.width := by cases F <;> decide
  rw [Fmt.expSat] at hlt
  rw [clz_of_pos hne, sigExp_snd]
  omega

/-- Settles O50: `wordReduceCount_eq_div` counts the steps, `fmod_shift_le` bounds the shift. -/
theorem fmodStepBound : Obligations.FmodStepBound := by
  unfold Obligations.FmodStepBound
  refine ⟨fun F a b ha _ _ _ hpow => ?_, by decide⟩
  simp only [wordReduceCount_eq_div (one_lt_width F) le_rfl, true_and]
  exact Nat.succ_le_succ (Nat.div_le_div_right (fmod_shift_le ha hpow))

end Sys2Proof.Machine

/-! SUPPORT. More of 40_format_and_integer_primitives.md: unpacking (R113, R114), and a value of the format rounds to itself
(R120). -/

namespace Sys2Proof

/-- Settles O27: `rne_eq_rneExact` and `abs_val`, with the value of a unit written out. -/
theorem roundingMatchesExactFormula : Obligations.RoundingMatchesExactFormula := by
  unfold Obligations.RoundingMatchesExactFormula
  exact ⟨fun F s n d hn hd => rne_eq_rneExact F s hn hd, fun F p _ => abs_val⟩

section Unpack

variable {F : Fmt}

/-- R113: a subnormal significand is shifted until bit S is set. -/
theorem normalize_eq {g : ℕ} (hg : g ≠ 0) (hlt : g < 2 ^ F.sigBits) :
    normalize F g = (F.sigBits - Nat.log2 g, g * 2 ^ (F.sigBits - Nat.log2 g)) ∧ Nat.log2 g < F.sigBits ∧
      2 ^ F.sigBits ≤ g * 2 ^ (F.sigBits - Nat.log2 g) ∧ g * 2 ^ (F.sigBits - Nat.log2 g) < 2 ^ (F.sigBits + 1) := by
  have hlog := (Nat.log2_lt hg).mpr hlt
  have hlow := Nat.log2_self_le hg
  have hhigh : g < 2 ^ (Nat.log2 g + 1) := Nat.lt_log2_self
  have hshift : clz F.width g - F.expBits = F.sigBits - Nat.log2 g := by
    rw [Machine.clz_of_pos hg, width_eq_sigBits_add_expBits]
    omega
  refine ⟨by simp only [normalize, hshift], hlog, ?_, ?_⟩
  · rw [Machine.two_pow_eq_mul (by omega : F.sigBits = Nat.log2 g + (F.sigBits - Nat.log2 g))]
    gcongr
  · rw [Machine.two_pow_eq_mul (by omega : F.sigBits + 1 = Nat.log2 g + 1 + (F.sigBits - Nat.log2 g))]
    gcongr

variable {p : Pat F} (hnz : isZero p = false)
include hnz

/-- R114: the significand has its leading bit, and with the exponent it gives the value. -/
theorem unpack_spec : (2 ^ F.sigBits ≤ (unpack p).2 ∧ (unpack p).2 < 2 ^ (F.sigBits + 1)) ∧
    (1 - (F.sigBits : ℤ) ≤ (unpack p).1 ∧ (unpack p).1 ≤ max 1 (expf p)) ∧
    |val p| = ((unpack p).2 : ℚ) * 2 ^ ((unpack p).1 - F.bias - F.sigBits) := by
  have hsig := sig_lt p
  by_cases hexp : expf p = 0
  · have hne : sig p ≠ 0 := fun h => of_decide_eq_false hnz ((absOf_eq_zero_iff p).mpr ⟨hexp, h⟩)
    obtain ⟨heq, hlog, hlow, hhigh⟩ := normalize_eq hne hsig
    rw [unpack, if_pos hexp]
    simp only [heq]
    refine ⟨⟨hlow, hhigh⟩, by omega, ?_⟩
    have hpow : (1 - (F.sigBits - Nat.log2 (sig p) : ℕ) - F.bias - F.sigBits : ℤ) =
        1 - F.bias - F.sigBits - (F.sigBits - Nat.log2 (sig p) : ℕ) := by ring
    rw [abs_val, units, if_pos hexp, unitValue, hpow, zpow_sub₀ two_ne_zero _ ((F.sigBits - Nat.log2 (sig p) : ℕ) : ℤ), zpow_natCast]
    generalize (2 : ℚ) ^ ((1 : ℤ) - F.bias - F.sigBits) = u
    push_cast
    field_simp
  · have hpos : 0 < expf p := Nat.pos_of_ne_zero hexp
    have hpow : (expf p : ℤ) - F.bias - F.sigBits = (expf p - 1 : ℕ) + (1 - F.bias - F.sigBits) := by omega
    rw [unpack, if_neg hexp]
    simp only
    refine ⟨⟨Nat.le_add_right _ _, by rw [pow_succ]; omega⟩, by omega, ?_⟩
    rw [abs_val, units_of_expf_pos hpos, unitValue, hpow, zpow_add₀ two_ne_zero, zpow_natCast]
    push_cast
    ring

variable (hfin : isFinite p = true)
include hfin

/-- R120: a pattern's own units round to it. -/
theorem rne_units_self : rne F (signOf p) (units p) 1 = p := by
  have hpos : units p ≠ 0 := (Machine.units_pos_of_not_isZero hnz).ne'
  have hexp := expf_lt_of_isFinite hfin
  have hlog := (Nat.log2_lt hpos).mpr units_lt_two_pow
  have hdvd : 2 ^ (Nat.log2 (units p) - F.sigBits) ∣ units p :=
    (Nat.pow_dvd_pow 2 (by omega)).trans (two_pow_dvd_units p)
  have hlt : units p < 2 ^ (F.sigBits + (F.expSat - 1)) :=
    units_lt_two_pow.trans_le (Nat.pow_le_pow_right two_pos (by omega))
  exact pat_ext (signOf_rne _ _ _) (absOf_eq_of_units_eq (units_rne_of_dvd _ hpos hdvd hlt))

theorem rneExact_abs_val_self : rneExact F (signOf p) |val p| = p := by
  have hround := rne_eq_rneExact F (signOf p) (Machine.units_pos_of_not_isZero hnz) one_pos
  rw [rne_units_self hnz hfin, Nat.cast_one, div_one, ← abs_val] at hround
  exact hround.symm

end Unpack

/-- Settles O28: `unpack_spec` is R114, `rneExact_abs_val_self` R120. -/
theorem unpackAndRoundToItself : Obligations.UnpackAndRoundToItself := by
  unfold Obligations.UnpackAndRoundToItself
  intro F p hfin hnz
  obtain ⟨⟨hlow, hhigh⟩, ⟨hmin, hmax⟩, hval⟩ := unpack_spec hnz
  have hexp := expf_lt_of_isFinite hfin
  have hsat : 2 ≤ F.expSat := by cases F <;> decide
  exact ⟨hlow, hhigh, hmin, by omega, hval, rneExact_abs_val_self hnz hfin⟩

end Sys2Proof

/-! SUPPORT. The five rounding commands against their independent definition (41_rounding.md R150 to R157). A magnitude of n units is
q whole ones and a remainder; a command answers q or q + 1 ones, and `roundsUp` says which, in units for the machine and for
R157 alike. -/

namespace Sys2Proof

/-! The definition of R157, of a value that lies strictly between two integers. -/

theorem nearestEvenRat_intCast (k : ℤ) : nearestEvenRat (k : ℚ) = k := by
  simp [nearestEvenRat]

theorem nearestEvenRat_neg (x : ℚ) : nearestEvenRat (-x) = -nearestEvenRat x := by
  by_cases hint : ∃ k : ℤ, x = k
  · obtain ⟨k, rfl⟩ := hint
    rw [← Int.cast_neg, nearestEvenRat_intCast, nearestEvenRat_intCast]
  · have hlow : (⌊x⌋ : ℚ) < x := lt_of_le_of_ne (Int.floor_le x) fun h => hint ⟨_, h.symm⟩
    have hhigh := Int.lt_floor_add_one x
    have hfloor : ⌊-x⌋ = -⌊x⌋ - 1 := by
      rw [Int.floor_eq_iff]
      push_cast
      constructor <;> linarith
    have hparity : (-⌊x⌋ - 1) % 2 = 1 ↔ ¬ ⌊x⌋ % 2 = 1 := by omega
    have hfrac : -x - ((-⌊x⌋ - 1 : ℤ) : ℚ) = 1 - (x - ⌊x⌋) := by
      push_cast
      ring
    simp only [nearestEvenRat, hfloor, hfrac, hparity]
    generalize x - ⌊x⌋ = f
    obtain hf | hf | hf := lt_trichotomy f (1 / 2)
    · rw [if_pos (.inl (by linarith)), if_neg (by rintro (h | ⟨h, -⟩) <;> linarith)]
      ring
    · subst hf
      by_cases hodd : ⌊x⌋ % 2 = 1
      · norm_num [hodd]
        ring
      · norm_num [hodd]
    · rw [if_neg (by rintro (h | ⟨h, -⟩) <;> linarith), if_pos (.inl hf)]
      ring

/-- Whether a command takes the integer next away from zero, of a value of sign `s` whose magnitude is q ones and `rem` units
more, `one` units to 1 (R150 to R154). -/
def roundsUp (op : Machine.RoundOp) (s : Bool) (q rem one : ℕ) : Bool :=
  match op with
  | .ceil => !s
  | .floor => s
  | .trunc => false
  | .round => decide (one ≤ 2 * rem)
  | .roundeven => decide (one < 2 * rem ∨ (2 * rem = one ∧ q % 2 = 1))

/-- An integer with a sign. -/
def withSign (s : Bool) (m : ℤ) : ℤ := if s then -m else m

theorem nearestEven_eq_add_roundsUp (s : Bool) (n d : ℕ) :
    nearestEven n d = n / d + (roundsUp .roundeven s (n / d) (n % d) d).toNat := by
  by_cases h : d < 2 * (n % d) ∨ (2 * (n % d) = d ∧ n / d % 2 = 1) <;> simp [nearestEven, roundsUp, h]

theorem floor_natCast_div (n d : ℕ) : ⌊(n : ℚ) / d⌋ = (n / d : ℕ) := by
  rw [Rat.floor_natCast_div_natCast, Int.natCast_div]

section Between

variable {n d : ℕ} (hd : 0 < d) (hrem : n % d ≠ 0)
include hd

theorem div_eq_quotient_add_fraction : (n : ℚ) / d = (n / d : ℕ) + (n % d : ℕ) / d := by
  have hd' : (d : ℚ) ≠ 0 := by exact_mod_cast hd.ne'
  have hsplit : (n : ℚ) = d * (n / d : ℕ) + (n % d : ℕ) := by exact_mod_cast (Nat.div_add_mod n d).symm
  rw [hsplit, add_div, mul_div_cancel_left₀ _ hd']

/-- Half a unit up, the whole part grows when the fraction is at least one half (R153). -/
theorem floor_natCast_div_add_half (s : Bool) :
    ⌊(n : ℚ) / d + 1 / 2⌋ = (n / d : ℕ) + (roundsUp .round s (n / d) (n % d) d).toNat := by
  have hd' : (0 : ℚ) < d := by exact_mod_cast hd
  have hlt : ((n % d : ℕ) : ℚ) / d < 1 := (div_lt_one hd').mpr (by exact_mod_cast Nat.mod_lt n hd)
  have hnonneg : (0 : ℚ) ≤ (n % d : ℕ) / d := by positivity
  have hhalf : 1 / 2 ≤ ((n % d : ℕ) : ℚ) / d ↔ d ≤ 2 * (n % d) := by
    rw [div_le_div_iff₀ two_pos hd', one_mul, mul_comm]
    exact_mod_cast Iff.rfl
  rw [div_eq_quotient_add_fraction hd, Int.floor_eq_iff]
  generalize n / d = q, n % d = r at *
  by_cases h : d ≤ 2 * r
  · have hge := hhalf.mpr h
    simp only [roundsUp, h, decide_true, Bool.toNat_true]
    push_cast
    constructor <;> linarith
  · have hgt := not_le.mp (mt hhalf.mp h)
    simp only [roundsUp, h, decide_false, Bool.toNat_false]
    push_cast
    constructor <;> linarith

include hrem

theorem ceil_natCast_div : ⌈(n : ℚ) / d⌉ = (n / d : ℕ) + 1 := by
  have hd' : (0 : ℚ) < d := by exact_mod_cast hd
  have hlt : ((n % d : ℕ) : ℚ) / d < 1 := (div_lt_one hd').mpr (by exact_mod_cast Nat.mod_lt n hd)
  have hpos : (0 : ℚ) < (n % d : ℕ) / d := div_pos (by exact_mod_cast Nat.pos_of_ne_zero hrem) hd'
  rw [div_eq_quotient_add_fraction hd, Int.ceil_eq_iff]
  generalize n / d = q, n % d = r at *
  push_cast
  constructor <;> linarith

/-- R157 of a value strictly between two integers: of its two neighbours the one `roundsUp` names. -/
theorem roundedInteger_between (op : Machine.RoundOp) (s : Bool) :
    roundedInteger op (if s then -((n : ℚ) / d) else n / d) =
      withSign s ((n / d : ℕ) + (roundsUp op s (n / d) (n % d) d).toNat) := by
  have hpos : (0 : ℚ) < n / d := by
    have hn : 0 < n := Nat.pos_of_ne_zero fun h => hrem (by simp [h])
    positivity
  have hfloor := floor_natCast_div n d
  have hceil := ceil_natCast_div hd hrem
  have hhalf := floor_natCast_div_add_half (n := n) hd s
  have heven := nearestEvenRat_div n hd
  rw [nearestEven_eq_add_roundsUp s] at heven
  cases op with
  | ceil => cases s <;> simp [roundedInteger, withSign, roundsUp, hceil, hfloor, Int.ceil_neg]
  | floor => cases s <;> simp [roundedInteger, withSign, roundsUp, hceil, hfloor, Int.floor_neg]
  | trunc => cases s <;> simp [roundedInteger, withSign, roundsUp, hfloor, hpos, hpos.le, abs_of_pos hpos]
  | round => cases s <;> simp only [roundedInteger, withSign, Bool.false_eq_true, if_true, if_false, abs_neg, abs_of_pos hpos,
      not_lt.mpr hpos.le, neg_lt_zero.mpr hpos, hhalf]
  | roundeven => cases s <;> simp only [roundedInteger, withSign, Bool.false_eq_true, if_true, if_false, nearestEvenRat_neg, heven,
      Nat.cast_add]

end Between

/-- R157 leaves an integer alone. -/
theorem roundedInteger_intCast (op : Machine.RoundOp) (k : ℤ) : roundedInteger op (k : ℚ) = k := by
  have hhalf (m : ℤ) : ⌊(m : ℚ) + 1 / 2⌋ = m := by
    rw [Int.floor_eq_iff]
    constructor <;> linarith
  cases op with
  | ceil => exact Int.ceil_intCast k
  | floor => exact Int.floor_intCast k
  | roundeven => exact nearestEvenRat_intCast k
  | trunc | round =>
    simp only [roundedInteger]
    split_ifs with hneg
    · rw [abs_of_neg hneg, ← Int.cast_neg]
      simp only [hhalf, Int.floor_intCast, neg_neg]
    · rw [abs_of_nonneg (not_lt.mp hneg)]
      simp only [hhalf, Int.floor_intCast]

end Sys2Proof

/-! The machine's side: what each branch of the mask algorithm answers, in units (41_rounding.md R143 to R147). -/

namespace Sys2Proof

section Compose

variable {F : Fmt}

/-- A number below the sign bit, with a sign bit above it, is the magnitude of the pattern (R104). -/
theorem signOf_and_absOf_of_toNat_eq {p : Pat F} {s : Bool} {m : ℕ} (h : p.toNat = s.toNat * 2 ^ (F.width - 1) + m)
    (hm : m < 2 ^ (F.width - 1)) : signOf p = s ∧ absOf p = m := by
  have hsplit := toNat_eq_sign_add_absOf p
  have habs : absOf p < 2 ^ (F.width - 1) := by
    rw [absOf_eq_mod]
    exact Nat.mod_lt _ (by positivity)
  rw [h] at hsplit
  generalize signOf p = s' at hsplit ⊢
  cases s <;> cases s' <;> simp at hsplit ⊢ <;> omega

/-- `units_of_absOf_eq` also at the end of a binade, where the next one begins. -/
theorem units_of_absOf_eq_of_le {p : Pat F} {t m : ℕ} (h : absOf p = t * 2 ^ F.sigBits + m) (hm : m ≤ 2 ^ (F.sigBits + 1))
    (ht : t = 0 ∨ 2 ^ F.sigBits ≤ m) : units p = m * 2 ^ t := by
  obtain hlt | rfl := hm.lt_or_eq
  · exact units_of_absOf_eq h hlt ht
  · have hnext : absOf p = (t + 1) * 2 ^ F.sigBits + 2 ^ F.sigBits := by
      rw [h, pow_succ]
      ring
    rw [units_of_absOf_eq hnext (Nat.pow_lt_pow_right one_lt_two (Nat.lt_succ_self _)) (.inr le_rfl)]
    ring

end Compose

end Sys2Proof

namespace Sys2Proof.Machine

section Branches

variable {F : Fmt} {p : Pat F}

/-! The mask of R144 and the two neighbours of R146. -/

theorem getLsbD_fracMask (k i : ℕ) : (fracMask F k).getLsbD i = decide (i + k < F.sigBits) := by
  have hwidth := width_eq_sigBits_add_expBits F
  rw [fracMask, sigMask, BitVec.getLsbD_ushiftRight, BitVec.getLsbD_ofNat, Nat.testBit_two_pow_sub_one, Nat.add_comm k]
  by_cases h : i + k < F.sigBits
  · simp [h, show i + k < F.width by omega]
  · simp [h]

theorem toNat_fracMask (k : ℕ) : (fracMask F k).toNat = 2 ^ (F.sigBits - k) - 1 := by
  refine Nat.eq_of_testBit_eq fun i => ?_
  rw [BitVec.testBit_toNat, getLsbD_fracMask, Nat.testBit_two_pow_sub_one]
  simp only [Nat.lt_sub_iff_add_lt]

/-- Clearing the fraction of a word rounds it down to a multiple of 2^(S−k). -/
theorem toNat_and_not_fracMask (x : Pat F) (k : ℕ) :
    (x &&& ~~~fracMask F k).toNat = x.toNat / 2 ^ (F.sigBits - k) * 2 ^ (F.sigBits - k) := by
  refine Nat.eq_of_testBit_eq fun i => ?_
  rw [Nat.testBit_mul_two_pow, Nat.testBit_div_two_pow, BitVec.testBit_toNat, BitVec.testBit_toNat, BitVec.getLsbD_and,
    BitVec.getLsbD_not, getLsbD_fracMask]
  by_cases hi : i < F.width
  · by_cases hlow : i + k < F.sigBits
    · simp [hi, hlow, show ¬ F.sigBits - k ≤ i by omega]
    · simp [hi, hlow, show F.sigBits - k ≤ i by omega]
  · simpa [hi] using fun _ => BitVec.getLsbD_of_ge x _ (by omega)

/-- R146: clearing the fraction keeps the sign and rounds the magnitude down. -/
theorem signOf_and_absOf_cleared (x : Pat F) (k : ℕ) : signOf (x &&& ~~~fracMask F k) = signOf x ∧
    absOf (x &&& ~~~fracMask F k) = absOf x / 2 ^ (F.sigBits - k) * 2 ^ (F.sigBits - k) := by
  have hwidth := width_eq_sigBits_add_expBits F
  have hsign : 2 ^ (F.width - 1) = 2 ^ (F.width - 1 - (F.sigBits - k)) * 2 ^ (F.sigBits - k) := two_pow_eq_mul (by omega)
  have habs : absOf x < 2 ^ (F.width - 1) := by
    rw [absOf_eq_mod]
    exact Nat.mod_lt _ (by positivity)
  refine signOf_and_absOf_of_toNat_eq ?_ ((Nat.div_mul_le_self _ _).trans_lt habs)
  rw [toNat_and_not_fracMask, toNat_eq_sign_add_absOf x, hsign, ← Nat.mul_assoc, Nat.add_comm,
    Nat.add_mul_div_right _ _ (by positivity), Nat.add_mul, Nat.add_comm]

/-- R146: below `INF` adding the mask does not reach the sign. -/
theorem signOf_and_absOf_add_fracMask (hfin : isFinite p = true) (k : ℕ) :
    signOf (p + fracMask F k) = signOf p ∧ absOf (p + fracMask F k) = absOf p + (2 ^ (F.sigBits - k) - 1) := by
  have hinf : absOf p < F.expSat * 2 ^ F.sigBits := by
    rw [← toNat_infPat]
    exact of_decide_eq_true hfin
  have hroom : F.expSat * 2 ^ F.sigBits + 2 ^ F.sigBits = 2 ^ (F.width - 1) := by cases F <;> decide
  have hmask : 2 ^ (F.sigBits - k) ≤ 2 ^ F.sigBits := Nat.pow_le_pow_right two_pos (Nat.sub_le _ _)
  have hpos : 0 < 2 ^ (F.sigBits - k) := by positivity
  have hwidth : 2 ^ F.width = 2 * 2 ^ (F.width - 1) := (mul_pow_sub_one (width_pos F).ne' 2).symm
  refine signOf_and_absOf_of_toNat_eq ?_ (by omega)
  have hsum := toNat_eq_sign_add_absOf p
  have hbit := Bool.toNat_le (signOf p)
  have hsign : (signOf p).toNat * 2 ^ (F.width - 1) ≤ 2 ^ (F.width - 1) := (Nat.mul_le_mul_right _ hbit).trans_eq (Nat.one_mul _)
  rw [BitVec.toNat_add, toNat_fracMask, Nat.mod_eq_of_lt (by omega)]
  omega

/-! Below 1 (R143): no whole one, and the answer is a zero or `ONE_F`. -/

@[simp] theorem signOf_signedOne (s : Bool) : signOf (signedOne F s) = s :=
  signOf_signedZero_or_ofNat s (by cases F <;> decide)

@[simp] theorem units_signedZero (s : Bool) : units (signedZero F s) = 0 := units_eq_zero_iff.mpr (absOf_signedZero s)

@[simp] theorem units_signedOne (s : Bool) : units (signedOne F s) = unitsOfOne F := by
  have hbias : 1 ≤ F.bias := by cases F <;> decide
  have habs : absOf (signedOne F s) = (F.bias - 1) * 2 ^ F.sigBits + 2 ^ F.sigBits := by
    rw [absOf_signedOne, ← Nat.succ_mul, Nat.succ_eq_add_one, Nat.sub_add_cancel hbias]
  rw [units_of_absOf_eq habs (Nat.pow_lt_pow_right one_lt_two (Nat.lt_succ_self _)) (.inr le_rfl), unitsOfOne, ← pow_add]
  congr 1
  omega

theorem units_lt_one_of_neg (h : unbiasedExp p < 0) : units p < unitsOfOne F := by
  unfold unbiasedExp at h
  exact units_lt_two_pow.trans_le (Nat.pow_le_pow_right two_pos (by omega))

/-- The two halves of R143: `e = −1` from 1/2 on, and a significand from above 1/2 on. -/
theorem half_iff_of_neg (h : unbiasedExp p < 0) : (unbiasedExp p = -1 ↔ unitsOfOne F ≤ 2 * units p) ∧
    (unbiasedExp p = -1 → (sig p ≠ 0 ↔ unitsOfOne F < 2 * units p)) := by
  unfold unbiasedExp at h ⊢
  have hbias : 2 ≤ F.bias := by cases F <;> decide
  have hone : unitsOfOne F = 2 * 2 ^ (F.sigBits + (F.bias - 2)) := by
    rw [unitsOfOne, ← pow_succ']
    congr 1
    omega
  have hunits (he : expf p = F.bias - 1) : units p = 2 ^ (F.sigBits + (F.bias - 2)) + sig p * 2 ^ (F.bias - 2) := by
    have hexp : F.bias - 1 - 1 = F.bias - 2 := by omega
    rw [units_of_expf_pos (by omega), he, hexp, Nat.add_mul, pow_add]
  have hscale : 0 < 2 ^ (F.bias - 2) := by positivity
  refine ⟨⟨fun he => ?_, fun hle => ?_⟩, fun he => ?_⟩
  · rw [hunits (by omega), hone]
    omega
  · by_contra hne
    have hlt : units p < 2 ^ (F.sigBits + (F.bias - 2)) :=
      units_lt_two_pow.trans_le (Nat.pow_le_pow_right two_pos (by omega))
    omega
  · rw [hunits (by omega), hone, ← Nat.pos_iff_ne_zero]
    have hsig : 0 < sig p ↔ 0 < sig p * 2 ^ (F.bias - 2) := (Nat.mul_pos_iff_of_pos_right hscale).symm
    omega

/-- The table of R143 is R150 to R154 of a value below 1. -/
theorem oneBelowOne_eq_roundsUp (h : unbiasedExp p < 0) (op : RoundOp) (s : Bool) :
    oneBelowOne op s (decide (unbiasedExp p = -1)) (decide (sig p ≠ 0)) = roundsUp op s 0 (units p) (unitsOfOne F) := by
  obtain ⟨hhalf, habove⟩ := half_iff_of_neg h
  cases op with
  | ceil | floor | trunc => rfl
  | round => simp only [oneBelowOne, roundsUp, hhalf]
  | roundeven =>
    rw [oneBelowOne, roundsUp, Bool.eq_iff_iff]
    simp only [Bool.and_eq_true, decide_eq_true_eq]
    constructor
    · rintro ⟨he, hsig⟩
      exact .inl ((habove he).mp hsig)
    · rintro (hlt | ⟨-, hodd⟩)
      · have he := hhalf.mpr hlt.le
        exact ⟨he, (habove he).mpr hlt⟩
      · cases hodd

/-! From 1 on (R144 to R147): the whole ones are the bits above the mask. -/

section Above

variable {k : ℕ} (he : unbiasedExp p = k) (hk : k < F.sigBits)
include he hk

/-- The significand with its leading bit is q·2^(S−k) and the fraction, both in units of 2^(B+k−1). -/
theorem quotient_and_fraction :
    let m := 2 ^ F.sigBits + sig p
    let c := 2 ^ (F.bias + k - 1)
    units p = m * c ∧ unitsOfOne F = 2 ^ (F.sigBits - k) * c ∧ absOf p = (F.bias + k - 1) * 2 ^ F.sigBits + m ∧
      absOf p % 2 ^ (F.sigBits - k) = m % 2 ^ (F.sigBits - k) := by
  have hexp : expf p = F.bias + k := by unfold unbiasedExp at he; omega
  have hbias : 0 < F.bias := by cases F <;> decide
  have hdvd : 2 ^ (F.sigBits - k) ∣ 2 ^ F.sigBits := Nat.pow_dvd_pow 2 (Nat.sub_le _ _)
  have habs : absOf p = (F.bias + k - 1) * 2 ^ F.sigBits + (2 ^ F.sigBits + sig p) := by
    have hsucc : F.bias + k = F.bias + k - 1 + 1 := by omega
    rw [absOf_eq_fields, hexp]
    conv_lhs => rw [hsucc]
    ring
  refine ⟨?_, ?_, habs, ?_⟩
  · rw [units_of_expf_pos (by omega), hexp]
  · rw [unitsOfOne, ← pow_add]
    congr 1
    omega
  · obtain ⟨c, hc⟩ := hdvd.mul_left (F.bias + k - 1)
    rw [habs, hc, Nat.mul_add_mod]

/-- R147: the lowest retained bit is the parity of the whole ones, the bias being odd. -/
theorem getLsbD_retained :
    p.getLsbD (F.sigBits - k) = decide ((2 ^ F.sigBits + sig p) / 2 ^ (F.sigBits - k) % 2 = 1) := by
  obtain ⟨-, -, habs, -⟩ := quotient_and_fraction he hk
  have hwidth := width_eq_sigBits_add_expBits F
  have hexpBits : 1 < F.expBits := by cases F <;> decide
  have heven : (F.bias + k - 1) * 2 ^ k % 2 = 0 := by
    have hodd : (F.bias - 1) % 2 = 0 := by cases F <;> decide
    have hbias : 0 < F.bias := by cases F <;> decide
    obtain rfl | hpos := Nat.eq_zero_or_pos k
    · simpa using hodd
    · rw [Nat.mul_mod, Nat.pow_mod, Nat.mod_self, Nat.zero_pow hpos, Nat.zero_mod, Nat.mul_zero, Nat.zero_mod]
  have hsplit : (F.bias + k - 1) * 2 ^ F.sigBits = 2 ^ (F.sigBits - k) * ((F.bias + k - 1) * 2 ^ k) := by
    rw [two_pow_eq_mul (by omega : F.sigBits = F.sigBits - k + k)]
    ring
  have hmod : absOf p / 2 ^ (F.sigBits - k) % 2 = p.toNat / 2 ^ (F.sigBits - k) % 2 := by
    have hsign : 2 ^ (F.width - 1) = 2 ^ (F.expBits + k - 1) * 2 * 2 ^ (F.sigBits - k) := by
      rw [← pow_succ, ← pow_add]
      congr 1
      omega
    rw [toNat_eq_sign_add_absOf p, hsign, ← Nat.mul_assoc, Nat.add_comm, Nat.add_mul_div_right _ _ (by positivity),
      ← Nat.mul_assoc, Nat.add_mul_mod_self_right]
  rw [← BitVec.testBit_toNat, Nat.testBit_eq_decide_div_mod_eq, ← hmod, habs, hsplit, Nat.mul_add_div (by positivity),
    Nat.add_mod, heven, Nat.zero_add, Nat.mod_mod]

/-- R150 to R154 on the fraction and one half of it. -/
theorem takesUp_eq_roundsUp (op : RoundOp) (s : Bool) :
    takesUp op s (absOf p % 2 ^ (F.sigBits - k)) (2 ^ (F.sigBits - k - 1)) (p.getLsbD (F.sigBits - k)) =
      roundsUp op s (units p / unitsOfOne F) (units p % unitsOfOne F) (unitsOfOne F) := by
  obtain ⟨hunits, hone, -, hfrac⟩ := quotient_and_fraction he hk
  have hc : 0 < 2 ^ (F.bias + k - 1) := by positivity
  have hhalf : 2 ^ (F.sigBits - k) = 2 * 2 ^ (F.sigBits - k - 1) := (mul_pow_sub_one (by omega) 2).symm
  rw [getLsbD_retained he hk, hfrac, hunits, hone, Nat.mul_div_mul_right _ _ hc, Nat.mul_mod_mul_right]
  generalize (2 ^ F.sigBits + sig p) / 2 ^ (F.sigBits - k) = q, (2 ^ F.sigBits + sig p) % 2 ^ (F.sigBits - k) = frac
  rw [hhalf]
  generalize 2 ^ (F.sigBits - k - 1) = half, 2 ^ (F.bias + k - 1) = c at *
  have hscale : 2 * half * c = 2 * (half * c) := Nat.mul_assoc ..
  cases op with
  | ceil | floor | trunc => rfl
  | round =>
    simp only [takesUp, roundsUp, hscale, Nat.mul_le_mul_left_iff two_pos, Nat.mul_le_mul_right_iff hc]
  | roundeven =>
    simp only [takesUp, roundsUp, hscale, Nat.mul_lt_mul_left two_pos, Nat.mul_lt_mul_right hc,
      Nat.mul_right_inj two_ne_zero, Nat.mul_left_inj hc.ne', Bool.decide_or, Bool.decide_and]

/-- The whole ones of the magnitude have k bits after the leading one. -/
theorem quotient_bounds : 2 ^ k ≤ units p / unitsOfOne F ∧ units p / unitsOfOne F < 2 ^ (k + 1) := by
  obtain ⟨hunits, hone, -, -⟩ := quotient_and_fraction he hk
  have hsig := sig_lt p
  have hlow : 2 ^ F.sigBits = 2 ^ k * 2 ^ (F.sigBits - k) := two_pow_eq_mul (by omega)
  have hpos : 0 < 2 ^ (F.sigBits - k) := by positivity
  rw [hunits, hone, Nat.mul_div_mul_right _ _ (by positivity), Nat.le_div_iff_mul_le hpos, Nat.div_lt_iff_lt_mul hpos, pow_succ]
  constructor <;> linarith

/-- A magnitude of q whole ones, at the exponent of p or at the end of its binade. -/
theorem units_of_whole {x : Pat F} {q : ℕ} (hx : absOf x = ((F.bias + k - 1) * 2 ^ k + q) * 2 ^ (F.sigBits - k))
    (hlow : 2 ^ k ≤ q) (hhigh : q ≤ 2 ^ (k + 1)) : units x = q * unitsOfOne F := by
  obtain ⟨-, hone, -, -⟩ := quotient_and_fraction he hk
  have hsig : 2 ^ F.sigBits = 2 ^ k * 2 ^ (F.sigBits - k) := two_pow_eq_mul (by omega)
  have hsucc : 2 ^ (F.sigBits + 1) = 2 ^ (k + 1) * 2 ^ (F.sigBits - k) := two_pow_eq_mul (by omega)
  have hfields : absOf x = (F.bias + k - 1) * 2 ^ F.sigBits + q * 2 ^ (F.sigBits - k) := by
    rw [hx, hsig]
    ring
  rw [units_of_absOf_eq_of_le hfields (by rw [hsucc]; gcongr) (.inr (by rw [hsig]; gcongr)), hone, Nat.mul_assoc]

/-- The magnitude in units of 2^(S−k), whole ones and fraction. -/
theorem absOf_eq_whole_add : absOf p = ((F.bias + k - 1) * 2 ^ k + units p / unitsOfOne F) * 2 ^ (F.sigBits - k) +
    absOf p % 2 ^ (F.sigBits - k) := by
  obtain ⟨hunits, hone, habs, hfrac⟩ := quotient_and_fraction he hk
  have hdiv := Nat.div_add_mod (2 ^ F.sigBits + sig p) (2 ^ (F.sigBits - k))
  have hsig : 2 ^ F.sigBits = 2 ^ k * 2 ^ (F.sigBits - k) := two_pow_eq_mul (by omega)
  rw [hfrac, hunits, hone, Nat.mul_div_mul_right _ _ (by positivity), habs]
  conv_lhs => rw [← hdiv]
  rw [hsig]
  ring

/-- R146: the neighbour toward zero is the whole ones. -/
theorem roundDown_spec : signOf (roundDown p k) = signOf p ∧ units (roundDown p k) = units p / unitsOfOne F * unitsOfOne F := by
  obtain ⟨hlow, hhigh⟩ := quotient_bounds he hk
  obtain ⟨hsign, hcleared⟩ := signOf_and_absOf_cleared p k
  refine ⟨hsign, units_of_whole he hk (hcleared.trans ?_) hlow hhigh.le⟩
  conv_lhs => rw [absOf_eq_whole_add he hk]
  rw [Nat.add_comm, Nat.add_mul_div_right _ _ (by positivity), Nat.div_eq_of_lt (Nat.mod_lt _ (by positivity)), Nat.zero_add]

/-- R146: the neighbour away from zero of a value with a fraction is one more. -/
theorem roundUp_spec (hfin : isFinite p = true) (hfrac : absOf p % 2 ^ (F.sigBits - k) ≠ 0) :
    signOf (roundUp p k) = signOf p ∧ units (roundUp p k) = (units p / unitsOfOne F + 1) * unitsOfOne F := by
  obtain ⟨hlow, hhigh⟩ := quotient_bounds he hk
  obtain ⟨hsignAdd, habsAdd⟩ := signOf_and_absOf_add_fracMask hfin k
  obtain ⟨hsign, hcleared⟩ := signOf_and_absOf_cleared (p + fracMask F k) k
  refine ⟨hsign.trans hsignAdd, units_of_whole he hk (hcleared.trans ?_) (hlow.trans (Nat.le_succ _)) hhigh⟩
  have hpos : 0 < 2 ^ (F.sigBits - k) := by positivity
  have hlt := Nat.mod_lt (absOf p) hpos
  have hwhole := absOf_eq_whole_add he hk
  rw [habsAdd, ← Nat.add_assoc]
  congr 1
  rw [Nat.div_eq_iff hpos]
  generalize absOf p % 2 ^ (F.sigBits - k) = frac at *
  generalize (F.bias + k - 1) * 2 ^ k + units p / unitsOfOne F = w at *
  generalize 2 ^ (F.sigBits - k) = h at *
  rw [hwhole, Nat.add_mul]
  omega

end Above

/-- Units below those of `INF` (R105). -/
theorem isFinite_of_units_lt {x : Pat F} (h : units x < 2 ^ (F.sigBits + (F.expSat - 1))) : isFinite x = true := by
  rw [isFinite_iff]
  refine (expf_le x).lt_of_ne fun hexp => h.not_ge ?_
  have hsat := expSat_pos F
  rw [units_of_expf_pos (by omega), hexp, pow_add]
  gcongr
  omega

/-- The answer of a rounding of a finite value with a fraction: the sign of the operand, and q or q + 1 ones. -/
theorem roundPat_of_fraction (hfin : isFinite p = true) (hfrac : ¬ unitsOfOne F ∣ units p) (op : RoundOp) :
    signOf (roundPat op p).1 = signOf p ∧ units (roundPat op p).1 = (units p / unitsOfOne F +
      (roundsUp op (signOf p) (units p / unitsOfOne F) (units p % unitsOfOne F) (unitsOfOne F)).toNat) * unitsOfOne F := by
  have hbig : ¬ (F.sigBits : ℤ) ≤ unbiasedExp p := fun h => hfrac (dvd_units_of_sigBits_le h)
  simp only [roundPat]
  rw [if_neg hbig]
  by_cases hneg : unbiasedExp p < 0
  · have hzero : isZero p = false := decide_eq_false (mt (dvd_units_iff_of_neg hneg).mpr hfrac)
    have hlt := units_lt_one_of_neg hneg
    rw [if_pos hneg, hzero, oneBelowOne_eq_roundsUp hneg, Nat.div_eq_of_lt hlt, Nat.mod_eq_of_lt hlt]
    cases roundsUp op (signOf p) 0 (units p) (unitsOfOne F) <;> simp
  · obtain ⟨k, hk⟩ := Int.eq_ofNat_of_zero_le (Int.not_lt.mp hneg)
    have hlt : k < F.sigBits := by omega
    have hmod := mt (dvd_units_iff_of_lt hk hlt).mpr hfrac
    rw [if_neg hneg, hk, Int.toNat_natCast, toNat_and_fracMask, if_neg hmod, takesUp_eq_roundsUp hk hlt]
    cases roundsUp op (signOf p) (units p / unitsOfOne F) (units p % unitsOfOne F) (unitsOfOne F) with
    | false => simpa using roundDown_spec hk hlt
    | true => simpa using roundUp_spec hk hlt hfin hmod

/-- It is finite: the exponent of a value with a fraction is below B + S. -/
theorem isFinite_roundPat (hfin : isFinite p = true) (op : RoundOp) : isFinite (roundPat op p).1 = true := by
  obtain ⟨-, hround⟩ | ⟨hfrac, -⟩ := roundPat_cases op p
  · rw [hround]
    exact hfin
  · have hbig : ¬ (F.sigBits : ℤ) ≤ unbiasedExp p := fun h => hfrac (dvd_units_of_sigBits_le h)
    have hexp : expf p < F.bias + F.sigBits := by unfold unbiasedExp at hbig; omega
    obtain ⟨-, hunits⟩ := roundPat_of_fraction hfin hfrac op
    have hle : units (roundPat op p).1 ≤ units p + unitsOfOne F := by
      rw [hunits, Nat.add_mul]
      exact Nat.add_le_add (Nat.div_mul_le_self _ _)
        ((Nat.mul_le_mul_right _ (Bool.toNat_le _)).trans_eq (Nat.one_mul _))
    have hformat : F.bias + F.sigBits < F.expSat := by cases F <;> decide
    have hlt : units p < 2 ^ (F.sigBits + (F.bias + F.sigBits - 1)) :=
      units_lt_two_pow.trans_le (Nat.pow_le_pow_right two_pos (by omega))
    have hone : unitsOfOne F ≤ 2 ^ (F.sigBits + (F.bias + F.sigBits - 1)) := Nat.pow_le_pow_right two_pos (by omega)
    refine isFinite_of_units_lt (lt_of_lt_of_le (b := 2 ^ (F.sigBits + (F.bias + F.sigBits - 1) + 1)) ?_
      (Nat.pow_le_pow_right two_pos (by omega)))
    rw [pow_succ]
    omega

end Branches

/-! The commands (R140, R157). -/

/-- A pattern of q whole ones, with a sign. -/
theorem val_of_units_eq_mul {F : Fmt} {r : Pat F} {q : ℕ} (h : units r = q * unitsOfOne F) :
    val r = withSign (signOf r) q := by
  have hone : (unitsOfOne F : ℚ) ≠ 0 := by exact_mod_cast (unitsOfOne_pos F).ne'
  rw [val_eq_units, h, unitValue_eq_inv, withSign]
  split_ifs <;> push_cast <;> field_simp

/-- What a rounding of a finite value is: the integer of R157, with the operand's sign, exact when the status says so. -/
theorem roundPat_spec {F : Fmt} {p : Pat F} (hfin : isFinite p = true) (op : RoundOp) :
    val (roundPat op p).1 = roundedInteger op (val p) ∧ signOf (roundPat op p).1 = signOf p ∧
      ((roundPat op p).2 = .ok ↔ val (roundPat op p).1 = val p) := by
  obtain ⟨hdvd, hround⟩ | ⟨hfrac, r, hround, hne⟩ := roundPat_cases op p
  · obtain ⟨k, hk⟩ := val_integral_iff.mpr hdvd
    rw [hround, hk, roundedInteger_intCast]
    exact ⟨rfl, rfl, by simp⟩
  · obtain ⟨hsign, hunits⟩ := roundPat_of_fraction hfin hfrac op
    have hval : val p = if signOf p then -((units p : ℚ) / unitsOfOne F) else units p / unitsOfOne F := by
      rw [val_eq_units, unitValue_eq_inv]
      split_ifs <;> ring
    have hrounded := roundedInteger_between (unitsOfOne_pos F) (mt Nat.dvd_of_mod_eq_zero hfrac) op (signOf p)
    rw [← hval] at hrounded
    refine ⟨?_, hsign, ?_⟩
    · rw [val_of_units_eq_mul hunits, hsign, hrounded]
      push_cast
      rfl
    · rw [hround]
      exact iff_of_false (by simp) fun h => hne (absOf_eq_of_val_eq h)

theorem exec_roundingInstr (op : RoundOp) (F : Fmt) (rd ra : RegNum) {s : State} (hs : s.fc = 0) :
    exec (roundingInstr op F rd ra) s = .next (finish rd (zext128 (roundPat op (operand F s ra)).1)
      (roundPat op (operand F s ra)).2 (accrue (roundPat op (operand F s ra)).2 s)) := by
  cases op <;> exact serve_of_running hs _

/-- R142: the infinities and the NaNs come back. -/
theorem roundPat_of_not_finite {F : Fmt} {p : Pat F} (h : isFinite p = false) (op : RoundOp) : roundPat op p = (p, .ok) :=
  if_pos (sigBits_le_unbiasedExp_of_not_finite h)

/-- Settles O30: the effect is that of serving; the value by `roundPat_spec`. -/
theorem roundingCommands : Obligations.RoundingCommands := by
  unfold Obligations.RoundingCommands
  intro op F rd ra s hs
  refine ⟨_, _, exec_roundingInstr op F rd ra hs, fun hfin => ?_, fun hnot => by simp [roundPat_of_not_finite hnot]⟩
  obtain ⟨hval, hsign, hstatus⟩ := roundPat_spec hfin op
  exact ⟨isFinite_roundPat hfin op, hval, fun _ => hsign, hstatus⟩

/-- Settles O32: the two values are the floor and the ceiling by `roundPat_spec`. -/
theorem roundingBracket : Obligations.RoundingBracket := by
  unfold Obligations.RoundingBracket
  intro F p hfin
  obtain ⟨hfloor, -, hfloorStatus⟩ := roundPat_spec hfin .floor
  obtain ⟨hceil, -, hceilStatus⟩ := roundPat_spec hfin .ceil
  refine ⟨hfloor ▸ Int.floor_le _, hceil ▸ Int.le_ceil _, hfloorStatus, hceilStatus, fun hfrac => ?_⟩
  have hlow : (⌊val p⌋ : ℚ) < val p := (Int.floor_le _).lt_of_ne fun h => hfrac ⟨_, h.symm⟩
  have hnext : ⌈val p⌉ = ⌊val p⌋ + 1 := by
    rw [Int.ceil_eq_iff]
    push_cast
    exact ⟨by linarith, (Int.lt_floor_add_one _).le⟩
  rw [hfloor, hceil, roundedInteger, roundedInteger, hnext]
  push_cast
  exact ⟨hlow, Int.lt_floor_add_one _, by ring⟩

end Sys2Proof.Machine

/-! SUPPORT. More of 45_rem_pio2.md: the command's destinations (R271), the quadrant as the nearest integer (R283), the range of n
(R295), and the symmetry under a change of sign. -/

namespace Sys2Proof.Machine

/-! The command (R271). -/

theorem encode_rempio2 (rd ra : RegNum) : encode (.rempio2 rd ra) = 0x30#6 ++ 2#2 ++ regField rd ++ regField ra ++ 0#18 := by
  revert rd ra
  decide

/-- Settles O51: the effect on a running unit, its three writes by `readX_after_three_writes`. -/
theorem rempioCommand : Obligations.RempioCommand := by
  unfold Obligations.RempioCommand
  refine ⟨encode_rempio2, fun rd ra s hs => ?_, by decide⟩
  obtain ⟨h0, h1, h2⟩ := readX_after_three_writes rd
    (zext128 (remPio2 s.trig Config.lrr (operand .f64 s ra)).1.y0) (zext128 (remPio2 s.trig Config.lrr (operand .f64 s ra)).1.y1)
    (sext128 (remPio2 s.trig Config.lrr (operand .f64 s ra)).1.n) (setLrr (remPio2 s.trig Config.lrr (operand .f64 s ra)).2 s)
  exact ⟨_, serve_of_running hs _, h0, h1, h2, fun j hj0 hj1 hj2 =>
    (readX_writeX_ne hj2 _ _).trans ((readX_writeX_ne hj1 _ _).trans (readX_writeX_ne hj0 _ _)), rfl⟩

/-! The regimes of the default thresholds, read back to their rows (R273). -/

section Rows

variable {ix : ℕ}

theorem lt_large_of_regimeOf {r : Regime} (h : regimeOf trigDefaults ix = r) (hlarge : r ≠ .large) (hfinite : r ≠ .nonFinite) :
    ix < 0x413921FB := by
  by_contra hge
  by_cases hinf : ix < 0x7FF00000
  · exact hlarge (h.symm.trans (regimeOf_eq_large_iff.mpr ⟨not_lt.mp hge, hinf⟩))
  · exact hfinite (h.symm.trans (regimeOf_nonFinite _ (not_lt.mp hinf)))

theorem inMediumRows_of_regimeOf (h : regimeOf trigDefaults ix = .medium) : InMediumRows ix := by
  have hlt := lt_large_of_regimeOf h nofun nofun
  obtain hs | ⟨k, hk⟩ | hm := rows_exhaust hlt
  · cases h.symm.trans (regimeOf_small (T := trigDefaults) hs (hlt.trans (by decide)))
  · cases h.symm.trans (regimeOf_of_inDirectBracket hk)
  · exact hm

theorem inDirectBracket_of_regimeOf {k : ℕ} (h : regimeOf trigDefaults ix = .direct k) : InDirectBracket k ix := by
  have hlt := lt_large_of_regimeOf h nofun nofun
  obtain hs | ⟨j, hj⟩ | hm := rows_exhaust hlt
  · cases h.symm.trans (regimeOf_small (T := trigDefaults) hs (hlt.trans (by decide)))
  · cases h.symm.trans (regimeOf_of_inDirectBracket hj)
    exact hj
  · cases h.symm.trans (regimeOf_of_inMediumRows hm)

end Rows

/-! The quadrant is the nearest integer (R283). The product with the 53-bit constant for 2/π is never half-way between two
integers: the constant's significand is odd, so the operand would have to be a multiple of 2^52. -/

theorem invHalfPi_eq : invHalfPi * 2 ^ 53 = 5734161139222659 := by decide +kernel

theorem two_mul_quotientOf_ne_odd {p : Pat .f64} (hlow : 1 ≤ |val p|) (hhigh : |val p| ≤ 2 ^ (21 : ℤ)) (c : ℤ) :
    2 * quotientOf p ≠ 2 * c + 1 := by
  intro htie
  obtain ⟨m, hm⟩ := (IsBinary64.val p).onGrid_of_le (g := -52) (by norm_num; exact hlow)
  have hscale : (2 : ℚ) ^ (-52 : ℤ) * 2 ^ 52 = 1 := by norm_num
  have hproduct : m * 5734161139222659 = (2 * c + 1) * 2 ^ 104 := by
    have hq : (m : ℚ) * 5734161139222659 = (2 * c + 1) * 2 ^ 104 := by
      rw [← htie, quotientOf, hm, ← invHalfPi_eq]
      linear_combination -(m : ℚ) * invHalfPi * 2 ^ 53 * hscale
    exact_mod_cast hq
  have hcoprime : IsCoprime (2 ^ 104 : ℤ) 5734161139222659 := Int.isCoprime_iff_gcd_eq_one.mpr (by decide +kernel)
  have hdvd : (2 ^ 104 : ℤ) ∣ m := hcoprime.dvd_of_dvd_mul_right ⟨2 * c + 1, hproduct.trans (mul_comm _ _)⟩
  have hsmall : |m| < 2 ^ 104 := by
    have hle : |(m : ℚ)| ≤ 2 ^ 73 := by
      rw [hm, abs_mul, abs_of_pos (a := (2 : ℚ) ^ (-52 : ℤ)) (by positivity)] at hhigh
      have hscaled := mul_le_mul_of_nonneg_right hhigh (by positivity : (0 : ℚ) ≤ 2 ^ 52)
      rw [mul_assoc, hscale, mul_one] at hscaled
      exact hscaled.trans (by norm_num)
    have hle' : |m| ≤ 2 ^ 73 := by exact_mod_cast hle
    exact hle'.trans_lt (by norm_num)
  obtain rfl := Int.eq_zero_of_abs_lt_dvd hdvd hsmall
  omega

/-- An integer no more than half a unit from a number that is not half-way is the nearest one. -/
theorem eq_nearestEvenRat {n : ℤ} {s : ℚ} (hn : |n - s| ≤ 1 / 2) (htie : ∀ c : ℤ, 2 * s ≠ 2 * c + 1) : n = nearestEvenRat s := by
  have hnear := abs_nearestEvenRat_sub_le s
  have hstrict : |n - s| ≠ 1 / 2 := fun h => by
    obtain h | h := (abs_eq (by norm_num)).mp h
    · exact htie (n - 1) (by push_cast; linarith)
    · exact htie n (by linarith)
  have hlt : |((n - nearestEvenRat s : ℤ) : ℚ)| < 1 := by
    have hsplit := abs_sub_le (n : ℚ) s (nearestEvenRat s)
    rw [abs_sub_comm s] at hsplit
    push_cast
    linarith [lt_of_le_of_ne hn hstrict]
  exact sub_eq_zero.mp (Int.abs_lt_one_iff.mp (by exact_mod_cast hlt))

section Quadrant

variable {p : Pat .f64} (h : regimeOf trigDefaults (highWord p) = .medium)
include h

theorem abs_val_of_medium : 1 ≤ |val p| ∧ |val p| ≤ 2 ^ (21 : ℤ) := by
  obtain ⟨⟨hlow, hhigh⟩, -⟩ := medium_bounds (inMediumRows_of_regimeOf h)
  exact ⟨by linarith, hhigh.trans (by norm_num)⟩

/-- The fused quadrant rounds the exact product once. -/
theorem val_quadrant : val (quadrant trigDefaults p) = nearestEvenRat (quotientOf p) := by
  obtain ⟨hlow, hhigh⟩ := abs_val_of_medium h
  have hq : |quotientOf p| ≤ 2 ^ (22 : ℤ) := by
    obtain ⟨hlo, hhi⟩ := val_invPio2_bounds
    rw [quotientOf, abs_mul, ← mul_one (2 ^ (22 : ℤ))]
    exact mul_le_mul (hhigh.trans (two_zpow_le (by decide))) (abs_le.mpr ⟨by linarith, by linarith⟩) (abs_nonneg _)
      (by positivity)
  have hsum : |val p * invHalfPi + val (F := .f64) 0x4338000000000000| ≤ 2 ^ (53 : ℤ) := by
    rw [val_toInt]
    refine (abs_add_le _ _).trans ((add_le_add_left hq _).trans ?_)
    norm_num
  obtain ⟨n, hval, herr⟩ := round_by_toInt hq (roundsTo_fma64 _ _ _ (lt_two_zpow_1023 hsum)).rounds
  rw [quadrant_trigDefaults, hval, eq_nearestEvenRat herr (two_mul_quotientOf_ne_odd hlow hhigh)]

theorem intOfF64_quadrant : intOfF64 (quadrant trigDefaults p) = nearestEvenRat (quotientOf p) :=
  intOfF64_of_val_eq (val_quadrant h)

theorem abs_quadrant_index_le : |nearestEvenRat (quotientOf p)| ≤ 2 ^ 20 :=
  (reducible_medium (inMediumRows_of_regimeOf h) ((abs_nearestEvenRat_sub_le _).trans (by norm_num))).index_le

end Quadrant

/-- Settles O54: `val_quadrant` is the nearest integer, and `abs_quadrant_index_le` bounds it. -/
theorem quadrantIsNearestInteger : Obligations.QuadrantIsNearestInteger := by
  unfold Obligations.QuadrantIsNearestInteger
  intro p h
  rw [intOfF64_quadrant h]
  exact ⟨val_quadrant h, rfl, (abs_quadrant_index_le h).trans (by norm_num)⟩

/-! The range of n (R295). -/

theorem abs_toInt_applySign_le (s : Bool) {a : LrrResponse} (ha : a.n.toNat ≤ 7) : |(applySign s a).n.toInt| ≤ 7 := by
  have hn : a.n.toInt = a.n.toNat := BitVec.toInt_eq_toNat_of_lt (by omega)
  cases s with
  | false =>
    rw [applySign, if_neg Bool.false_ne_true, hn, Nat.abs_cast]
    exact_mod_cast ha
  | true =>
    rw [applySign, if_pos rfl, BitVec.toInt_neg, hn, Int.bmod_eq_of_le (by omega) (by omega), abs_neg, Nat.abs_cast]
    exact_mod_cast ha

/-- Settles O55: the regime's row bounds k, the quadrant is the nearest integer, and the collaborator returns 0 to 7. -/
theorem quadrantIndexRange : Obligations.QuadrantIndexRange := by
  unfold Obligations.QuadrantIndexRange
  intro f p
  refine ⟨fun h => ?_, fun k h => ?_, fun h => ?_, fun h hrange => ?_⟩
  · rw [remPio2_of_small f h]
    rfl
  · have hrow := inDirectBracket_of_regimeOf h
    have hk : 1 ≤ k ∧ k ≤ 4 := by
      unfold InDirectBracket at hrow
      omega
    obtain ⟨hpos, hneg⟩ := toInt_direct hrow
    rw [remPio2_of_direct f h]
    refine ⟨hk.1, hk.2, ?_⟩
    cases hs : signOf p with
    | false => exact (congrArg (fun r => r.n.toInt) (reduceDirect_of_nonneg _ k hs)).trans hpos
    | true => exact (congrArg (fun r => r.n.toInt) (reduceDirect_of_neg _ k hs)).trans hneg
  · rw [remPio2_of_medium f h, reduceMedium_eq, intOfF64_quadrant h]
    exact (congrArg abs (toInt_ofInt_quadrant (abs_quadrant_index_le h))).trans_le
      ((abs_quadrant_index_le h).trans (by norm_num))
  · rw [remPio2_of_large f h]
    exact abs_toInt_applySign_le _ (hrange _)

end Sys2Proof.Machine

/-! SUPPORT. Opposite values (45_rem_pio2.md section 1): rounding to nearest even is symmetric, so each operation of R118 on operands of
opposite value answers opposite values, and the regimes of R273 do not see the sign. -/

namespace Sys2Proof

/-- b has the value of a with the other sign; two zeros are opposite whatever their signs. -/
def Opposite (a b : Pat .f64) : Prop := val b = -val a

namespace Opposite

variable {a a' b b' : Pat .f64}

theorem symm (h : Opposite a a') : Opposite a' a := by rw [Opposite, show val a' = -val a from h, neg_neg]

theorem negate64 (a : Pat .f64) : Opposite a (negate64 a) := val_negate64 a

theorem signedUnits_eq (h : Opposite a a') : signedUnits a' = -signedUnits a := by
  rw [Opposite, val_eq_signedUnits, val_eq_signedUnits, ← neg_mul] at h
  exact_mod_cast mul_right_cancel₀ (unitValue_pos .f64).ne' h

theorem of_signedUnits_eq (h : signedUnits a' = -signedUnits a) : Opposite a a' := by
  rw [Opposite, val_eq_signedUnits, val_eq_signedUnits, h]
  push_cast
  ring

theorem units_eq (h : Opposite a a') : units a' = units a := by
  rw [← natAbs_signedUnits, h.signedUnits_eq, Int.natAbs_neg, natAbs_signedUnits]

/-- The signs differ unless both are zeros. -/
theorem signOf_eq (h : Opposite a a') (hne : units a ≠ 0) : signOf a' = !signOf a := by
  have hunits := h.signedUnits_eq
  simp only [signedUnits, h.units_eq] at hunits
  cases ha : signOf a <;> cases ha' : signOf a' <;> simp [ha, ha'] at hunits ⊢ <;> omega

theorem expf_eq (h : Opposite a a') : expf a' = expf a := by
  rw [← absOf_div_two_pow_sigBits, ← absOf_div_two_pow_sigBits, absOf_eq_of_units_eq h.units_eq]

/-- A rounding with the other sign. -/
theorem rne (s : Bool) (n d : ℕ) : Opposite (rne .f64 s n d) (rne .f64 (!s) n d) := by
  have habs : absOf (Sys2Proof.rne .f64 (!s) n d) = absOf (Sys2Proof.rne .f64 s n d) := by
    have hmag : min ((Nat.log2 (n / d) - Fmt.sigBits .f64) * 2 ^ Fmt.sigBits .f64 +
        nearestEven n (d * 2 ^ (Nat.log2 (n / d) - Fmt.sigBits .f64))) (infPat .f64).toNat < 2 ^ (Fmt.width .f64 - 1) :=
      (Nat.min_le_right _ _).trans_lt (toNat_infPat_lt .f64)
    rw [Sys2Proof.rne, Sys2Proof.rne, absOf_signedZero_or_ofNat _ hmag, absOf_signedZero_or_ofNat _ hmag]
  rw [Opposite, val_eq_units, val_eq_units, signOf_rne, signOf_rne, units_eq_of_absOf_eq habs]
  cases s <;> simp

theorem signedZero (s s' : Bool) : Opposite (signedZero .f64 s) (signedZero .f64 s') := by
  rw [Opposite, val_eq_units, val_eq_units, Machine.units_signedZero, Machine.units_signedZero]
  simp

/-- The sum rounds with its own sign. -/
theorem fadd64 (ha : Opposite a a') (hb : Opposite b b') : Opposite (fadd64 a b) (fadd64 a' b') := by
  have hsum : signedUnits a' + signedUnits b' = -(signedUnits a + signedUnits b) := by
    rw [ha.signedUnits_eq, hb.signedUnits_eq]
    ring
  simp only [Sys2Proof.fadd64, hsum, neg_eq_zero]
  split_ifs with hzero
  · exact signedZero _ _
  · have hsign : decide (-(signedUnits a + signedUnits b) < 0) = !decide (signedUnits a + signedUnits b < 0) := by
      rw [← decide_not, decide_eq_decide]
      omega
    rw [roundSigned, roundSigned, hsign, Int.natAbs_neg]
    exact rne _ _ _

theorem fsub64 (ha : Opposite a a') (hb : Opposite b b') : Opposite (fsub64 a b) (fsub64 a' b') :=
  ha.fadd64 (by rw [Opposite, val_negate64, val_negate64, show val b' = -val b from hb])

/-- A product has the sign of one factor. -/
theorem fmul64 (ha : Opposite a a') (b : Pat .f64) : Opposite (fmul64 a b) (fmul64 a' b) := by
  simp only [Sys2Proof.fmul64, ha.units_eq]
  split_ifs with hzero
  · exact signedZero _ _
  · rw [ha.signOf_eq (left_ne_zero_of_mul hzero), Bool.not_bne]
    exact rne _ _ _

end Opposite

end Sys2Proof

namespace Sys2Proof.Machine

theorem signOf_negate64 (p : Pat .f64) : signOf (negate64 p) = !signOf p := by
  have hset : (signMask .f64).msb = true := by decide
  rw [signOf, negate64, BitVec.msb_xor, hset, Bool.xor_true, signOf]

theorem absOf_negate64 (p : Pat .f64) : absOf (negate64 p) = absOf p := absOf_eq_of_units_eq (Opposite.negate64 p).units_eq

theorem highWord_negate64 (p : Pat .f64) : highWord (negate64 p) = highWord p := by
  rw [highWord_eq_div, highWord_eq_div, absOf_negate64]

theorem negate64_negate64 (p : Pat .f64) : negate64 (negate64 p) = p := by
  rw [negate64, negate64, BitVec.xor_assoc, BitVec.xor_self, BitVec.xor_zero]

/-- Results of opposite values. -/
structure OppositeReduction (r r' : Reduction) : Prop where
  n : r'.n = -r.n
  y0 : Opposite r.y0 r'.y0
  y1 : Opposite r.y1 r'.y1

theorem OppositeReduction.symm {r r' : Reduction} (h : OppositeReduction r r') : OppositeReduction r' r :=
  ⟨by rw [h.n, BitVec.neg_neg], h.y0.symm, h.y1.symm⟩

/-! The levels of the medium regime. -/

/-- The tests of R285 and R286 read the exponent alone. -/
theorem cancelled_eq_of_opposite {y y' : Pat .f64} (h : Opposite y y') (ex gap : ℕ) : cancelled ex gap y' = cancelled ex gap y := by
  rw [cancelled, cancelled, h.expf_eq]

/-- Working values of opposite values. -/
structure OppositeLevel (l l' : Level) : Prop where
  r : Opposite l.r l'.r
  w : Opposite l.w l'.w
  y0 : Opposite l.y0 l'.y0

section Levels

variable {T : TrigParams} {p p' fn fn' : Pat .f64} (hp : Opposite p p') (hfn : Opposite fn fn')
include hfn

theorem OppositeLevel.nextLevel {l l' : Level} (h : OppositeLevel l l') (limb tail : Pat .f64) :
    OppositeLevel (nextLevel limb tail fn l) (nextLevel limb tail fn' l') := by
  have hv := hfn.fmul64 limb
  have hr := h.r.fsub64 hv
  have hw := (hfn.fmul64 tail).fsub64 ((h.r.fsub64 hr).fsub64 hv)
  exact ⟨hr, hw, hr.fsub64 hw⟩

include hp

theorem oppositeLevel_level1 : OppositeLevel (level1 T p fn) (level1 T p' fn') := by
  have hr := hp.fsub64 (hfn.fmul64 T.pio2_1)
  have hw := hfn.fmul64 T.pio2_1t
  exact ⟨hr, hw, hr.fsub64 hw⟩

theorem oppositeLevel_level2 : OppositeLevel (level2 T p fn) (level2 T p' fn') :=
  (oppositeLevel_level1 hp hfn).nextLevel hfn _ _

theorem oppositeLevel_level3 : OppositeLevel (level3 T p fn) (level3 T p' fn') :=
  (oppositeLevel_level2 hp hfn).nextLevel hfn _ _

/-- The tests read exponents, so the same level is the last. -/
theorem oppositeLevel_lastLevel (hword : highWord p' = highWord p) :
    OppositeLevel (lastLevel T p fn) (lastLevel T p' fn') := by
  have hengaged : levelsEngaged T p' fn' = levelsEngaged T p fn := by
    rw [levelsEngaged, levelsEngaged, hword, cancelled_eq_of_opposite (oppositeLevel_level1 hp hfn).y0,
      cancelled_eq_of_opposite (oppositeLevel_level2 hp hfn).y0]
  simp only [lastLevel, hengaged]
  split
  · exact oppositeLevel_level3 hp hfn
  · exact oppositeLevel_level2 hp hfn
  · exact oppositeLevel_level1 hp hfn

end Levels

theorem OppositeLevel.reduction {l l' : Level} (h : OppositeLevel l l') {n n' : BitVec 32} (hn : n' = -n) :
    OppositeReduction (l.reduction n) (l'.reduction n') :=
  ⟨hn, h.y0, (h.r.fsub64 h.y0).fsub64 h.w⟩

/-! The regimes. -/

theorem oppositeReduction_small (p : Pat .f64) : OppositeReduction (reduceSmall p) (reduceSmall (negate64 p)) :=
  ⟨(by decide : (0 : BitVec 32) = -0), Opposite.negate64 p, Opposite.signedZero false false⟩

/-- R277: the two signs run mirrored operations. -/
theorem oppositeReduction_direct_of_nonneg (T : TrigParams) (k : ℕ) {p : Pat .f64} (hs : signOf p = false) :
    OppositeReduction (reduceDirect T k p) (reduceDirect T k (negate64 p)) := by
  have hs' : signOf (negate64 p) = true := by rw [signOf_negate64, hs, Bool.not_false]
  rw [reduceDirect_of_nonneg T k hs, reduceDirect_of_neg T k hs']
  have hk1 := (Opposite.negate64 (fmul64 (f64OfInt k) T.pio2_1)).symm
  have hk1t := (Opposite.negate64 (fmul64 (f64OfInt k) T.pio2_1t)).symm
  have hr := (Opposite.negate64 p).fadd64 hk1
  have hy0 := hr.fadd64 hk1t
  exact ⟨rfl, hy0, (hr.fsub64 hy0).fadd64 hk1t⟩

theorem oppositeReduction_direct (T : TrigParams) (k : ℕ) (p : Pat .f64) :
    OppositeReduction (reduceDirect T k p) (reduceDirect T k (negate64 p)) := by
  cases hs : signOf p with
  | false => exact oppositeReduction_direct_of_nonneg T k hs
  | true =>
    have h := oppositeReduction_direct_of_nonneg T k (p := negate64 p) (by rw [signOf_negate64, hs, Bool.not_true])
    rw [negate64_negate64] at h
    exact h.symm

/-- R283: the nearest integers of opposite quotients are opposite. -/
theorem oppositeReduction_medium {p : Pat .f64} (h : regimeOf trigDefaults (highWord p) = .medium) :
    OppositeReduction (reduceMedium trigDefaults p) (reduceMedium trigDefaults (negate64 p)) := by
  have h' : regimeOf trigDefaults (highWord (negate64 p)) = .medium := by rwa [highWord_negate64]
  have hquotient : nearestEvenRat (quotientOf (negate64 p)) = -nearestEvenRat (quotientOf p) := by
    rw [quotientOf, val_negate64, neg_mul, nearestEvenRat_neg, quotientOf]
  have hfn : Opposite (quadrant trigDefaults p) (quadrant trigDefaults (negate64 p)) := by
    rw [Opposite, val_quadrant h, val_quadrant h', hquotient]
    push_cast
    rfl
  rw [reduceMedium_eq, reduceMedium_eq]
  refine (oppositeLevel_lastLevel (Opposite.negate64 p) hfn (highWord_negate64 p)).reduction ?_
  rw [intOfF64_quadrant h, intOfF64_quadrant h', hquotient, BitVec.ofInt_neg]

/-- R293: the sign is applied to one answer. -/
theorem oppositeReduction_large (s : Bool) (a : LrrResponse) : OppositeReduction (applySign s a) (applySign (!s) a) := by
  have h : OppositeReduction (applySign false a) (applySign true a) :=
    ⟨rfl, Opposite.negate64 a.ty0, Opposite.negate64 a.ty1⟩
  cases s with
  | false => exact h
  | true => exact h.symm

/-- The digits and the exponent offset are those of the magnitude. -/
theorem lrrRequestOf_negate64 (p : Pat .f64) : lrrRequestOf (negate64 p) = lrrRequestOf p := by
  have hsig : sig (negate64 p) = sig p := by
    have habs := absOf_negate64 p
    have hexp := (Opposite.negate64 p).expf_eq
    rw [absOf_eq_fields, absOf_eq_fields, hexp] at habs
    exact Nat.add_left_cancel habs
  simp only [lrrRequestOf, fullSignificand, hsig, highWord_negate64]

/-- Settles O53: the flipped operand is in the same regime, and each regime answers opposite values. -/
theorem rempioSignSymmetry : Obligations.RempioSignSymmetry := by
  unfold Obligations.RempioSignSymmetry
  intro f p hfin
  have hpair : OppositeReduction (remPio2 trigDefaults f p).1 (remPio2 trigDefaults f (negate64 p)).1 ∧
      (remPio2 trigDefaults f (negate64 p)).2 = (remPio2 trigDefaults f p).2 := by
    obtain hbelow | hlarge := Nat.lt_or_ge (highWord p) 0x413921FB
    · obtain hs | ⟨k, hk⟩ | hm := rows_exhaust hbelow
      · have hregime := regimeOf_small (T := trigDefaults) hs (hbelow.trans (by decide))
        rw [remPio2_of_small f hregime, remPio2_of_small f (by rwa [highWord_negate64])]
        exact ⟨oppositeReduction_small p, rfl⟩
      · have hregime := regimeOf_of_inDirectBracket hk
        rw [remPio2_of_direct f hregime, remPio2_of_direct f (p := negate64 p) (by rwa [highWord_negate64])]
        exact ⟨oppositeReduction_direct _ k p, rfl⟩
      · have hregime := regimeOf_of_inMediumRows hm
        rw [remPio2_of_medium f hregime, remPio2_of_medium f (by rwa [highWord_negate64])]
        exact ⟨oppositeReduction_medium hregime, rfl⟩
    · have hregime := regimeOf_eq_large_iff.mpr ⟨hlarge, highWord_lt_inf_iff.mpr hfin⟩
      rw [remPio2_of_large f hregime, remPio2_of_large f (by rwa [highWord_negate64]), lrrRequestOf_negate64, signOf_negate64]
      exact ⟨oppositeReduction_large _ _, rfl⟩
  obtain ⟨⟨hn, hy0, hy1⟩, hcall⟩ := hpair
  exact ⟨hn, hy0, hy1, hcall⟩

end Sys2Proof.Machine

/-! SUPPORT. The default parameters of the `DIV` datapath do not compute the contract at f128 (log 8): 1.0 divided by the largest
value below 2.0, where the decrement of 13922 units takes the quotient estimate below 2^S. -/

namespace Sys2Proof.Machine

/-- 1.0 of f128. -/
def oneF128 : Pat .f128 := 0x3FFF0000000000000000000000000000

/-- The largest value below 2.0 of f128. -/
def belowTwoF128 : Pat .f128 := 0x3FFFFFFFFFFFFFFFFFFFFFFFFFFFFFFF

theorem divDatapath_oneF128 : divDatapath (divDefaults .f128) oneF128 belowTwoF128 ≠ divPat oneF128 belowTwoF128 := by
  decide +kernel

/-- Refutes O38: at f128 the datapath and the contract differ on 1.0 and the largest value below 2.0. -/
theorem not_divDatapathDefaultsRefine : ¬ Obligations.DivDatapathDefaultsRefine := by
  unfold Obligations.DivDatapathDefaultsRefine
  intro h
  have hfinite : isFinite oneF128 = true ∧ isZero oneF128 = false ∧ isFinite belowTwoF128 = true ∧ isZero belowTwoF128 = false := by
    decide
  obtain ⟨ha, ha0, hb, hb0⟩ := hfinite
  exact divDatapath_oneF128 ((h .f128 oneF128 belowTwoF128 ha ha0 hb hb0).trans (divPat_eq_divExact _ _).symm)

end Sys2Proof.Machine

/-! SUPPORT. R112 for a value given as a significand and an exponent: what the datapaths of MUL and DIV pack and round. -/

namespace Sys2Proof

section Scaled

variable {F : Fmt} {n d : ℕ}

theorem nearestEven_mul_right (n d : ℕ) {c : ℕ} (hc : 0 < c) : nearestEven (n * c) (d * c) = nearestEven n d := by
  have habove : d * c < 2 * (n % d * c) ↔ d < 2 * (n % d) := by
    rw [← Nat.mul_assoc, Nat.mul_lt_mul_right hc]
  have htie : 2 * (n % d * c) = d * c ↔ 2 * (n % d) = d := by
    rw [← Nat.mul_assoc, Nat.mul_left_inj hc.ne']
  simp only [nearestEven, Nat.mul_mod_mul_right, Nat.mul_div_mul_right _ _ hc, habove, htie]

theorem nearestEven_eq_zero (h : 2 * n ≤ d) (hn : 0 < n) : nearestEven n d = 0 := by
  have hlt : n < d := by omega
  have hlow : ¬(d < 2 * n ∨ 2 * n = d ∧ 0 % 2 = 1) := by omega
  rw [nearestEven, Nat.mod_eq_of_lt hlt, Nat.div_eq_of_lt hlt, if_neg hlow]

theorem log2_div_le {b : ℕ} (h : n < d * 2 ^ (b + 1)) : Nat.log2 (n / d) ≤ b := by
  by_cases hzero : n / d = 0
  · simp [hzero]
  · exact Nat.le_of_lt_succ ((Nat.log2_lt hzero).mpr (Nat.div_lt_of_lt_mul h))

theorem le_log2_div {b : ℕ} (hd : 0 < d) (h : d * 2 ^ b ≤ n) : b ≤ Nat.log2 (n / d) := by
  have hle : 2 ^ b ≤ n / d := (Nat.le_div_iff_mul_le hd).mpr (by rwa [Nat.mul_comm])
  exact (Nat.le_log2 (by have := Nat.two_pow_pos b; omega)).mpr hle

/-- R112 with the exponent of the last place given: at the top of its binade a value may be taken in the binade below, where it
rounds up to the same pattern. -/
theorem rne_eq_of_bounds {t : ℕ} (s : Bool) (hd : 0 < d) (hlow : t = 0 ∨ d * 2 ^ (F.sigBits + t) ≤ n)
    (hhigh : n ≤ d * 2 ^ (F.sigBits + t + 1)) :
    rne F s n d = signedZero F s ||| BitVec.ofNat F.width (min (t * 2 ^ F.sigBits + nearestEven n (d * 2 ^ t)) (infPat F).toNat) := by
  obtain hlt | rfl := hhigh.lt_or_eq
  · have hlog : Nat.log2 (n / d) - F.sigBits = t := by
      have hle := log2_div_le hlt
      obtain rfl | hge := hlow
      · omega
      · have := le_log2_div hd hge
        omega
    rw [rne, hlog]
  · have hlog : Nat.log2 (d * 2 ^ (F.sigBits + t + 1) / d) - F.sigBits = t + 1 := by
      rw [Nat.mul_div_cancel_left _ hd, Nat.log2_two_pow]
      omega
    have hround (k j : ℕ) (hk : F.sigBits + t + 1 = k + j) : nearestEven (d * 2 ^ (F.sigBits + t + 1)) (d * 2 ^ k) = 2 ^ j := by
      rw [Machine.two_pow_eq_mul hk, ← Nat.mul_assoc, nearestEven_mul (by positivity)]
    rw [rne, hlog, hround (t + 1) F.sigBits (by omega), hround t (F.sigBits + 1) (by omega), pow_succ 2 F.sigBits]
    congr 3
    ring

/-- R112 from the biased exponent e on: packing e − 1 below the rounded significand carries into the exponent field. -/
theorem rneExact_of_exponent_pos {e : ℤ} (s : Bool) (he : 0 < e) (hd : 0 < d) (hlow : d * 2 ^ F.sigBits ≤ n)
    (hhigh : n ≤ d * 2 ^ (F.sigBits + 1)) :
    rneExact F s ((n : ℚ) / d * 2 ^ (e - 1) * unitValue F) =
      signedZero F s ||| BitVec.ofNat F.width (min ((e.toNat - 1) * 2 ^ F.sigBits + nearestEven n d) (infPat F).toNat) := by
  obtain ⟨t, rfl⟩ : ∃ t : ℕ, e = t + 1 := ⟨e.toNat - 1, by omega⟩
  have hn : 0 < n := (by positivity : 0 < d * 2 ^ F.sigBits).trans_le hlow
  have hvalue : (n : ℚ) / d * 2 ^ ((t : ℤ) + 1 - 1) = (n * 2 ^ t : ℕ) / d := by
    rw [add_sub_cancel_right, zpow_natCast]
    push_cast
    ring
  have hlow' : d * 2 ^ (F.sigBits + t) ≤ n * 2 ^ t := by
    rw [pow_add, ← Nat.mul_assoc]
    gcongr
  have hhigh' : n * 2 ^ t ≤ d * 2 ^ (F.sigBits + t + 1) := by
    rw [Nat.add_right_comm, pow_add, ← Nat.mul_assoc]
    gcongr
  have htoNat : ((t : ℤ) + 1).toNat - 1 = t := by omega
  rw [hvalue, ← rne_eq_rneExact F s (by positivity) hd, rne_eq_of_bounds s hd (.inr hlow') hhigh',
    nearestEven_mul_right _ _ (by positivity), htoNat]

/-- R112 below the normal range: the significand is rounded at the subnormals' last place. -/
theorem rneExact_of_exponent_nonpos {e : ℤ} (s : Bool) (he : e ≤ 0) (hn : 0 < n) (hd : 0 < d)
    (hhigh : n ≤ d * 2 ^ (F.sigBits + 1)) :
    rneExact F s ((n : ℚ) / d * 2 ^ (e - 1) * unitValue F) =
      signedZero F s ||| BitVec.ofNat F.width (min (nearestEven n (d * 2 ^ (1 - e).toNat)) (infPat F).toNat) := by
  obtain ⟨k, rfl⟩ : ∃ k : ℕ, e = 1 - k := ⟨(1 - e).toNat, by omega⟩
  have hvalue : (n : ℚ) / d * 2 ^ ((1 : ℤ) - k - 1) = n / (d * 2 ^ k : ℕ) := by
    rw [show (1 : ℤ) - k - 1 = -k by ring, zpow_neg, zpow_natCast]
    push_cast
    field_simp
  have hhigh' : n ≤ d * 2 ^ k * 2 ^ (F.sigBits + 0 + 1) := by
    rw [Nat.mul_right_comm]
    exact hhigh.trans (Nat.le_mul_of_pos_right _ (by positivity))
  have htoNat : ((1 : ℤ) - (1 - k)).toNat = k := by omega
  rw [hvalue, ← rne_eq_rneExact F s hn (by positivity), rne_eq_of_bounds s (by positivity) (.inl rfl) hhigh', htoNat, Nat.zero_mul,
    Nat.zero_add, pow_zero, Nat.mul_one]

/-- From the saturated exponent on, R112 answers infinity. -/
theorem rneExact_of_expSat_le {e : ℤ} (s : Bool) (he : F.expSat ≤ e) (hd : 0 < d) (hlow : d * 2 ^ F.sigBits ≤ n)
    (hhigh : n ≤ d * 2 ^ (F.sigBits + 1)) :
    rneExact F s ((n : ℚ) / d * 2 ^ (e - 1) * unitValue F) = signedInf F s := by
  have hsat := expSat_pos F
  have hinf : (infPat F).toNat ≤ (e.toNat - 1) * 2 ^ F.sigBits + nearestEven n d := by
    have hround : 2 ^ F.sigBits ≤ nearestEven n d :=
      ((Nat.le_div_iff_mul_le hd).mpr (by rwa [Nat.mul_comm])).trans (div_le_nearestEven n d)
    calc (infPat F).toNat = F.expSat * 2 ^ F.sigBits := toNat_infPat F
      _ ≤ (e.toNat - 1 + 1) * 2 ^ F.sigBits := Nat.mul_le_mul_right _ (by omega)
      _ ≤ _ := by rw [Nat.add_one_mul]; omega
  rw [rneExact_of_exponent_pos s (by omega) hd hlow hhigh, Nat.min_eq_right hinf, BitVec.ofNat_toNat, BitVec.setWidth_eq, signedInf,
    BitVec.or_comm]

/-- At most half of the smallest subnormal rounds to zero. -/
theorem rneExact_of_le_half {e : ℤ} (s : Bool) (he : e ≤ 0) (hn : 0 < n) (hhalf : 2 * n ≤ d * 2 ^ (1 - e).toNat)
    (hhigh : n ≤ d * 2 ^ (F.sigBits + 1)) :
    rneExact F s ((n : ℚ) / d * 2 ^ (e - 1) * unitValue F) = signedZero F s := by
  have hd : 0 < d := Nat.pos_of_ne_zero fun h => by
    rw [h, Nat.zero_mul] at hhigh
    omega
  rw [rneExact_of_exponent_nonpos s he hn hd hhigh, nearestEven_eq_zero hhalf hn, Nat.zero_min]
  simp

end Scaled

end Sys2Proof

/-! SUPPORT. The datapath of 42_multiply.md R174 to R181 computes the contract (R182). -/

namespace Sys2Proof.Machine

section RoundLow

variable {F : Fmt}

theorem two_pow_width_eq (F : Fmt) : 2 ^ F.width = 2 * 2 ^ (F.width - 1) := by
  rw [two_pow_eq_mul (by have := width_pos F; omega : F.width = 1 + (F.width - 1)), pow_one]

/-- Step 8 on a value below the last place of exactly W bits is the nearest integer (R181). -/
theorem roundLow_eq_nearestEven (n : ℕ) : roundLow F (n / 2 ^ F.width) (n % 2 ^ F.width) = nearestEven n (2 ^ F.width) := by
  unfold roundLow nearestEven
  have hwidth := two_pow_width_eq F
  split_ifs <;> omega

/-- A multiple of the implicit bit joined above the significand does not change its parity. -/
theorem roundLow_add_mul (c h lo : ℕ) : roundLow F (h + c * 2 ^ F.sigBits) lo = c * 2 ^ F.sigBits + roundLow F h lo := by
  have heven : 2 ∣ c * 2 ^ F.sigBits := (dvd_pow_self 2 (by cases F <;> decide)).mul_left c
  unfold roundLow
  split_ifs <;> omega

/-- Joining a sticky bit only sets the last bit. -/
theorem or_one_eq (f : ℕ) : f ||| 1 = 2 * (f / 2) + 1 := by
  have hdiv : (f ||| 1) / 2 = f / 2 := by rw [Nat.or_div_two, Nat.div_eq_of_lt (by omega : 1 < 2), Nat.or_zero]
  have hmod : (f ||| 1) % 2 = 1 := Nat.or_mod_two_eq_one.mpr (.inr rfl)
  omega

/-- The sticky bit keeps what the shift discards: with it step 8 rounds as on the unshifted value (R179, R181). -/
theorem roundLow_sticky (n shift : ℕ) :
    roundLow F (n / 2 ^ (F.width + shift)) (n % 2 ^ (F.width + shift) / 2 ^ shift ||| if n % 2 ^ shift ≠ 0 then 1 else 0) =
      nearestEven n (2 ^ (F.width + shift)) := by
  generalize hf : n % 2 ^ (F.width + shift) / 2 ^ shift = f
  have hlow : n % 2 ^ (F.width + shift) % 2 ^ shift = n % 2 ^ shift :=
    Nat.mod_mod_of_dvd n (pow_dvd_pow 2 (Nat.le_add_left _ _))
  have hsplit : n % 2 ^ (F.width + shift) = f * 2 ^ shift + n % 2 ^ shift := by
    rw [← hf, ← hlow, Nat.div_add_mod']
  have hrest : n % 2 ^ shift < 2 ^ shift := Nat.mod_lt _ (by positivity)
  have hpow : 2 ^ (F.width + shift) = 2 * (2 ^ (F.width - 1) * 2 ^ shift) := by
    rw [pow_add, two_pow_width_eq, Nat.mul_assoc]
  have hhalf : 2 ∣ 2 ^ (F.width - 1) := dvd_pow_self 2 (by cases F <;> decide)
  unfold roundLow nearestEven
  rw [hsplit]
  generalize n / 2 ^ (F.width + shift) = hi
  rw [hpow]
  generalize 2 ^ (F.width - 1) = half at hhalf ⊢
  generalize n % 2 ^ shift = rest at hrest ⊢
  generalize 2 ^ shift = c at hrest ⊢
  have hbelow (h : f < half) : f * c + c ≤ half * c := by
    rw [← Nat.add_one_mul]
    exact Nat.mul_le_mul_right c h
  have habove (h : half < f) : half * c + c ≤ f * c := by
    rw [← Nat.add_one_mul]
    exact Nat.mul_le_mul_right c h
  by_cases hzero : rest = 0
  · rw [if_neg (not_not.mpr hzero), Nat.or_zero]
    obtain hlt | rfl | hgt := lt_trichotomy f half
    · have := hbelow hlt
      split_ifs <;> omega
    · split_ifs <;> omega
    · have := habove hgt
      split_ifs <;> omega
  · rw [if_pos hzero, or_one_eq]
    obtain hlt | hge := lt_or_ge f half
    · have := hbelow hlt
      split_ifs <;> omega
    · have := Nat.mul_le_mul_right c hge
      split_ifs <;> omega

end RoundLow

/-- Overflow, underflow, pack and round (R178 to R181) on the normalized product P of W fraction bits. -/
def mulRound (F : Fmt) (s : Bool) (pe : ℤ) (P : ℕ) : Pat F :=
  if (F.expSat : ℤ) ≤ pe then signedInf F s
  else if pe ≤ 0 then
    let shift := (1 - pe).toNat
    if F.width ≤ shift then signedZero F s
    else
      let sticky := if P % 2 ^ F.width % 2 ^ shift ≠ 0 then 1 else 0
      let lo := loPart F.width (P / 2 ^ F.width * 2 ^ (F.width - shift)) ||| P % 2 ^ F.width / 2 ^ shift ||| sticky
      signedZero F s ||| BitVec.ofNat F.width (roundLow F (P / 2 ^ F.width / 2 ^ shift) lo)
  else
    signedZero F s |||
      BitVec.ofNat F.width (roundLow F (P / 2 ^ F.width % 2 ^ F.sigBits + pe.toNat * 2 ^ F.sigBits) (P % 2 ^ F.width))

section MulRound

variable {F : Fmt} {P : ℕ} {pe : ℤ}

/-- Shifting the double word of significand and fraction right by less than a word (R179). -/
theorem shiftedFraction (n : ℕ) {w shift : ℕ} (h : shift ≤ w) :
    loPart w (n / 2 ^ w * 2 ^ (w - shift)) ||| n % 2 ^ w / 2 ^ shift = n % 2 ^ (w + shift) / 2 ^ shift := by
  have hw : 2 ^ w = 2 ^ shift * 2 ^ (w - shift) := two_pow_eq_mul (by omega)
  have hlow : n % 2 ^ w / 2 ^ shift < 2 ^ (w - shift) :=
    Nat.div_lt_of_lt_mul (hw ▸ Nat.mod_lt _ (Nat.two_pow_pos w))
  have hhigh : loPart w (n / 2 ^ w * 2 ^ (w - shift)) = 2 ^ (w - shift) * (n / 2 ^ w % 2 ^ shift) := by
    rw [loPart, hw, Nat.mul_mod_mul_right, Nat.mul_comm]
  rw [hhigh, ← Nat.two_pow_add_eq_or_of_lt hlow, pow_add, Nat.mod_mul]
  nth_rw 4 [hw]
  rw [Nat.mul_assoc, Nat.add_mul_div_left _ _ (Nat.two_pow_pos shift), Nat.add_comm]

variable (hlow : 2 ^ F.width * 2 ^ F.sigBits ≤ P) (hhigh : P < 2 ^ F.width * 2 ^ (F.sigBits + 1))
include hlow hhigh

/-- R179 and R181: the sticky bit keeps what the shift to the subnormals' last place discards. -/
theorem roundLow_subnormal (s : Bool) (he : pe ≤ 0) (hshift : (1 - pe).toNat < F.width) :
    (signedZero F s ||| BitVec.ofNat F.width (roundLow F (P / 2 ^ F.width / 2 ^ (1 - pe).toNat)
      (loPart F.width (P / 2 ^ F.width * 2 ^ (F.width - (1 - pe).toNat)) ||| P % 2 ^ F.width / 2 ^ (1 - pe).toNat |||
        if P % 2 ^ F.width % 2 ^ (1 - pe).toNat ≠ 0 then 1 else 0))) =
      rneExact F s ((P : ℚ) / (2 ^ F.width : ℕ) * 2 ^ (pe - 1) * unitValue F) := by
  have hpos : 0 < P := (by positivity : 0 < 2 ^ F.width * 2 ^ F.sigBits).trans_le hlow
  rw [rneExact_of_exponent_nonpos s he hpos (by positivity) hhigh.le]
  have hone : 1 ≤ (1 - pe).toNat := by omega
  generalize (1 - pe).toNat = shift at hshift hone ⊢
  have hbits : nearestEven P (2 ^ (F.width + shift)) ≤ (infPat F).toNat := by
    have hsat : 2 ≤ F.expSat := by cases F <;> decide
    have hdiv : P / 2 ^ (F.width + shift) < 2 ^ F.sigBits := by
      refine Nat.div_lt_of_lt_mul (hhigh.trans_le ?_)
      rw [← pow_add, ← pow_add]
      exact Nat.pow_le_pow_right two_pos (by omega)
    calc nearestEven P (2 ^ (F.width + shift)) ≤ P / 2 ^ (F.width + shift) + 1 := nearestEven_le _ _
      _ ≤ 1 * 2 ^ F.sigBits := by omega
      _ ≤ F.expSat * 2 ^ F.sigBits := Nat.mul_le_mul_right _ (by omega)
      _ = (infPat F).toNat := (toNat_infPat F).symm
  rw [shiftedFraction P hshift.le, Nat.mod_mod_of_dvd P (pow_dvd_pow 2 hshift.le), Nat.div_div_eq_div_mul, ← pow_add,
    roundLow_sticky, Nat.min_eq_left hbits]

/-- R180 and R181: packing the significand with its implicit bit and rounding on the fraction. -/
theorem roundLow_normal (s : Bool) (he : 0 < pe) (hsat : pe < F.expSat) :
    (signedZero F s |||
      BitVec.ofNat F.width (roundLow F (P / 2 ^ F.width % 2 ^ F.sigBits + pe.toNat * 2 ^ F.sigBits) (P % 2 ^ F.width))) =
      rneExact F s ((P : ℚ) / (2 ^ F.width : ℕ) * 2 ^ (pe - 1) * unitValue F) := by
  rw [rneExact_of_exponent_pos s he (by positivity) hlow hhigh.le]
  obtain ⟨t, rfl⟩ : ∃ t : ℕ, pe = t + 1 := ⟨pe.toNat - 1, by omega⟩
  have hge : 2 ^ F.sigBits ≤ P / 2 ^ F.width := (Nat.le_div_iff_mul_le (by positivity)).mpr (by rwa [Nat.mul_comm])
  have hlt : P / 2 ^ F.width < 2 ^ (F.sigBits + 1) := Nat.div_lt_of_lt_mul hhigh
  have hpack : P / 2 ^ F.width % 2 ^ F.sigBits + (t + 1) * 2 ^ F.sigBits = P / 2 ^ F.width + t * 2 ^ F.sigBits := by
    rw [pow_succ] at hlt
    rw [Nat.mod_eq_sub_mod hge, Nat.mod_eq_of_lt (by omega), Nat.add_one_mul]
    omega
  have hbits : t * 2 ^ F.sigBits + nearestEven P (2 ^ F.width) ≤ (infPat F).toNat := by
    have hround := nearestEven_le P (2 ^ F.width)
    calc t * 2 ^ F.sigBits + nearestEven P (2 ^ F.width) ≤ (t + 2) * 2 ^ F.sigBits := by
          rw [pow_succ] at hlt
          rw [Nat.add_mul]
          omega
      _ ≤ F.expSat * 2 ^ F.sigBits := Nat.mul_le_mul_right _ (by omega)
      _ = (infPat F).toNat := (toNat_infPat F).symm
  have htoNat : ((t : ℤ) + 1).toNat = t + 1 := by omega
  rw [htoNat, hpack, roundLow_add_mul, roundLow_eq_nearestEven, Nat.add_sub_cancel, Nat.min_eq_left hbits]

/-- R178 to R181 round the normalized product once, as R112 says. -/
theorem mulRound_eq_rneExact (s : Bool) :
    mulRound F s pe P = rneExact F s ((P : ℚ) / (2 ^ F.width : ℕ) * 2 ^ (pe - 1) * unitValue F) := by
  simp only [mulRound]
  by_cases hover : (F.expSat : ℤ) ≤ pe
  · rw [if_pos hover, rneExact_of_expSat_le s hover (by positivity) hlow hhigh.le]
  rw [if_neg hover]
  by_cases hunder : pe ≤ 0
  · rw [if_pos hunder]
    by_cases hdeep : F.width ≤ (1 - pe).toNat
    · have hpos : 0 < P := (by positivity : 0 < 2 ^ F.width * 2 ^ F.sigBits).trans_le hlow
      have hfmt : F.sigBits + 2 ≤ F.width := by cases F <;> decide
      have hhalf : 2 * P ≤ 2 ^ F.width * 2 ^ (1 - pe).toNat :=
        calc 2 * P ≤ 2 * (2 ^ F.width * 2 ^ (F.sigBits + 1)) := by gcongr
          _ = 2 ^ F.width * 2 ^ (F.sigBits + 2) := by ring
          _ ≤ 2 ^ F.width * 2 ^ (1 - pe).toNat := Nat.mul_le_mul_left _ (Nat.pow_le_pow_right two_pos (by omega))
      rw [if_pos hdeep, rneExact_of_le_half s hunder hpos hhalf hhigh.le]
    · rw [if_neg hdeep]
      exact roundLow_subnormal hlow hhigh s hunder (by omega)
  · rw [if_neg hunder]
    exact roundLow_normal hlow hhigh s (by omega) (by omega)

end MulRound

section MulDatapath

variable {F : Fmt}

/-- Step 4 (R177): the product word doubled, its high and its low part. -/
theorem doubled_parts {w P : ℕ} (hw : 0 < w) (hlt : 2 * P < 2 ^ w * 2 ^ w) :
    loPart w (P / 2 ^ w * 2 ||| loPart w P / 2 ^ (w - 1)) = 2 * P / 2 ^ w ∧ loPart w (loPart w P * 2) = 2 * P % 2 ^ w := by
  have hpow : 2 ^ w = 2 ^ (w - 1) * 2 := by rw [← pow_succ, Nat.sub_add_cancel hw]
  have hrest : P % 2 ^ w < 2 ^ w := Nat.mod_lt _ (Nat.two_pow_pos w)
  have hbit : P % 2 ^ w / 2 ^ (w - 1) < 2 ^ 1 := Nat.div_lt_of_lt_mul (by rwa [pow_one, ← hpow])
  have hdiv : 2 * P / 2 ^ w = P / 2 ^ (w - 1) := by rw [hpow, Nat.mul_comm 2 P, Nat.mul_div_mul_right _ _ two_pos]
  have hhigh : 2 ^ 1 * (P / 2 ^ w) + P % 2 ^ w / 2 ^ (w - 1) = 2 * P / 2 ^ w := by
    rw [hdiv, hpow, Nat.mod_mul_right_div_self, ← Nat.div_div_eq_div_mul, pow_one]
    omega
  have hfits : 2 * P / 2 ^ w < 2 ^ w := Nat.div_lt_of_lt_mul hlt
  have hor : P / 2 ^ w * 2 ||| P % 2 ^ w / 2 ^ (w - 1) = 2 * P / 2 ^ w := by
    rw [← hhigh, Nat.mul_comm]
    exact (Nat.two_pow_add_eq_or_of_lt hbit _).symm
  constructor
  · rw [loPart, loPart, hor, Nat.mod_eq_of_lt hfits]
  · rw [loPart, loPart, Nat.mod_mul_mod, Nat.mul_comm]

/-- Steps 1 to 4 (R174 to R177): the product with b's significand shifted by E has its leading bit at W + S or W + S − 1, and
normalizing doubles it in the second case. -/
theorem mulDatapath_eq_mulRound {a b : Pat F} {P : ℕ} {pe : ℤ} (hprod : (unpack a).2 * ((unpack b).2 * 2 ^ F.expBits) = P)
    (hpe : (unpack a).1 + (unpack b).1 - F.bias = pe) (hhigh : P < 2 ^ F.width * 2 ^ (F.sigBits + 1)) :
    mulDatapath a b = if 2 ^ F.width * 2 ^ F.sigBits ≤ P then mulRound F (signOf a != signOf b) (pe + 1) P
      else mulRound F (signOf a != signOf b) pe (2 * P) := by
  have hhi : P / 2 ^ F.width < 2 ^ (F.sigBits + 1) := Nat.div_lt_of_lt_mul hhigh
  have hfmt : 2 ^ (F.sigBits + 2) ≤ 2 ^ F.width := Nat.pow_le_pow_right two_pos (by cases F <;> decide)
  have hhi0 : hiPart F.width P = P / 2 ^ F.width := Nat.mod_eq_of_lt (hhi.trans_le (by rw [pow_succ] at hfmt; omega))
  have htop : (P / 2 ^ F.width).testBit F.sigBits = decide (2 ^ F.width * 2 ^ F.sigBits ≤ P) := by
    have hdiv : P / 2 ^ F.width / 2 ^ F.sigBits < 2 := Nat.div_lt_of_lt_mul (by rwa [← pow_succ])
    have hiff : 2 ^ F.width * 2 ^ F.sigBits ≤ P ↔ 1 ≤ P / 2 ^ F.width / 2 ^ F.sigBits := by
      rw [Nat.div_div_eq_div_mul, Nat.le_div_iff_mul_le (by positivity), Nat.one_mul]
    rw [Nat.testBit_eq_decide_div_mod_eq, decide_eq_decide, hiff]
    generalize P / 2 ^ F.width / 2 ^ F.sigBits = bit at hdiv
    omega
  have hdouble : 2 * P < 2 ^ F.width * 2 ^ F.width :=
    calc 2 * P < 2 * (2 ^ F.width * 2 ^ (F.sigBits + 1)) := by omega
      _ = 2 ^ F.width * 2 ^ (F.sigBits + 2) := by ring
      _ ≤ 2 ^ F.width * 2 ^ F.width := Nat.mul_le_mul_left _ hfmt
  obtain ⟨hhi2, hlo2⟩ := doubled_parts (width_pos F) hdouble
  simp only [mulDatapath, wmul, hprod, hpe, hhi0, htop]
  by_cases hcase : 2 ^ F.width * 2 ^ F.sigBits ≤ P
  · simp only [hcase, decide_true, if_true]
    rfl
  · simp only [hcase, decide_false, if_false, Bool.false_eq_true, hhi2, hlo2]
    rfl

/-- The exact product as the datapath's product word and exponent (R174 to R176). -/
theorem abs_val_mul_abs_val {a b : Pat F} (ha : isZero a = false) (hb : isZero b = false) :
    |val a| * |val b| = ((unpack a).2 * ((unpack b).2 * 2 ^ F.expBits) : ℕ) / (2 ^ F.width : ℕ) *
      2 ^ ((unpack a).1 + (unpack b).1 - F.bias) * unitValue F := by
  obtain ⟨-, -, hvalA⟩ := unpack_spec ha
  obtain ⟨-, -, hvalB⟩ := unpack_spec hb
  have hscale : (2 : ℚ) ^ ((unpack a).1 - F.bias - F.sigBits) * 2 ^ ((unpack b).1 - F.bias - F.sigBits) * 2 ^ F.width =
      2 ^ F.expBits * 2 ^ ((unpack a).1 + (unpack b).1 - F.bias) * unitValue F := by
    rw [unitValue, ← zpow_natCast, ← zpow_natCast]
    simp only [← zpow_add₀ (two_ne_zero (α := ℚ))]
    congr 1
    have := width_eq_sigBits_add_expBits F
    omega
  have hwidth : (2 : ℚ) ^ F.width ≠ 0 := by positivity
  rw [hvalA, hvalB]
  push_cast
  field_simp
  linear_combination ((unpack a).2 : ℚ) * (unpack b).2 * hscale

end MulDatapath

/-- Settles O34: the normalized product is the exact one (`abs_val_mul_abs_val`), and `mulRound` rounds it once. -/
theorem mulDatapathRefinesContract : Obligations.MulDatapathRefinesContract := by
  unfold Obligations.MulDatapathRefinesContract
  intro F a b _ ha _ hb
  obtain ⟨⟨hlowA, hhighA⟩, -⟩ := unpack_spec ha
  obtain ⟨⟨hlowB, hhighB⟩, -⟩ := unpack_spec hb
  have hwidth := width_eq_sigBits_add_expBits F
  have hword : 2 ^ F.width * 2 ^ F.sigBits = 2 * (2 ^ F.sigBits * (2 ^ F.sigBits * 2 ^ F.expBits)) := by
    rw [hwidth]
    ring
  have hlow : 2 ^ F.width * 2 ^ F.sigBits ≤ 2 * ((unpack a).2 * ((unpack b).2 * 2 ^ F.expBits)) := by
    rw [hword]
    gcongr
  have hhigh : (unpack a).2 * ((unpack b).2 * 2 ^ F.expBits) < 2 ^ F.width * 2 ^ (F.sigBits + 1) := by
    calc (unpack a).2 * ((unpack b).2 * 2 ^ F.expBits) < 2 ^ (F.sigBits + 1) * (2 ^ (F.sigBits + 1) * 2 ^ F.expBits) := by gcongr
      _ = 2 ^ F.width * 2 ^ (F.sigBits + 1) := by
        rw [hwidth]
        ring
  rw [mulDatapath_eq_mulRound rfl rfl hhigh, abs_val_mul_abs_val ha hb]
  generalize (unpack a).1 + (unpack b).1 - F.bias = pe
  generalize (unpack a).2 * ((unpack b).2 * 2 ^ F.expBits) = P at hlow hhigh ⊢
  split_ifs with htop
  · rw [mulRound_eq_rneExact htop hhigh, add_sub_cancel_right]
  · have hdouble : ((2 * P : ℕ) : ℚ) / (2 ^ F.width : ℕ) * 2 ^ (pe - 1) = P / (2 ^ F.width : ℕ) * 2 ^ pe := by
      rw [zpow_sub_one₀ two_ne_zero]
      push_cast
      ring
    have hhigh' : 2 * P < 2 ^ F.width * 2 ^ (F.sigBits + 1) := by
      rw [pow_succ, ← Nat.mul_assoc]
      omega
    rw [mulRound_eq_rneExact hlow hhigh', hdouble]

end Sys2Proof.Machine

/-! SUPPORT. The correction loop of 43_divide.md R212 and R213, and the stages before it, on a quotient estimate less than one and
a half below the exact quotient. -/

namespace Sys2Proof.Machine

section Correction

variable {F : Fmt} {cmp : ℤ}

theorem correct_of_settled {res : ℕ} {rem2 : ℤ} (h : ¬ cmp < rem2 + (res % 2 : ℕ)) (fuel : ℕ) :
    correct F cmp fuel res rem2 = res ∧ correctionPasses F cmp fuel res rem2 = 0 := by
  cases fuel with
  | zero => exact ⟨rfl, rfl⟩
  | succ fuel => exact ⟨if_neg fun hpass => h hpass.1, if_neg fun hpass => h hpass.1⟩

/-- A loop with room for every pass the full loop takes ends as the full loop does: the fuel of the full loop suffices, since each
pass lowers the remainder. -/
theorem correct_eq_of_passes_le (hcmp : 0 < cmp) (fuel : ℕ) : ∀ (k res : ℕ) (rem2 : ℤ), rem2.toNat < fuel →
    correctionPasses F cmp fuel res rem2 ≤ k → correct F cmp k res rem2 = correct F cmp fuel res rem2 := by
  induction fuel with
  | zero => exact fun k res rem2 hfuel => absurd hfuel (Nat.not_lt_zero _)
  | succ fuel ih =>
    intro k res rem2 hfuel hpasses
    by_cases hpass : cmp < rem2 + (res % 2 : ℕ) ∧ res < (infPat F).toNat
    · rw [correctionPasses, if_pos hpass] at hpasses
      cases k with
      | zero => omega
      | succ k =>
        rw [correct, correct, if_pos hpass, if_pos hpass]
        exact ih k (res + 1) (rem2 - 2 * cmp) (by omega) (by omega)
    · rw [correct, if_neg hpass]
      cases k with
      | zero => rfl
      | succ k => rw [correct, if_neg hpass]

/-- One pass at most takes an estimate less than one and a half low to the nearest integer, packed above an even base (R212). -/
theorem correct_eq_nearestEven {base r num den fuel : ℕ} (hbase : 2 ∣ base) (hden : 0 < den) (hle : r * den ≤ num)
    (hlt : 2 * num < (2 * r + 3) * den) (hinf : base + r ≤ (infPat F).toNat) (hfuel : 1 ≤ fuel) :
    correct F den fuel (base + r) (2 * ((num : ℤ) - (r : ℤ) * den)) = min (base + nearestEven num den) (infPat F).toNat ∧
      correctionPasses F den fuel (base + r) (2 * ((num : ℤ) - (r : ℤ) * den)) ≤ 1 := by
  obtain ⟨fuel, rfl⟩ : ∃ k, fuel = k + 1 := ⟨fuel - 1, by omega⟩
  obtain ⟨rest, rfl⟩ : ∃ rest, num = r * den + rest := ⟨num - r * den, by omega⟩
  have hrest : 2 * rest < 3 * den := by
    rw [Nat.add_mul, Nat.mul_assoc] at hlt
    omega
  have hrem : 2 * (((r * den + rest : ℕ) : ℤ) - (r : ℤ) * den) = 2 * rest := by
    push_cast
    ring
  have hround : nearestEven (r * den + rest) den = if den < 2 * rest + (base + r) % 2 then r + 1 else r := by
    obtain hless | hmore := lt_or_ge rest den
    · have hdiv : (r * den + rest) / den = r := by
        rw [Nat.mul_comm, Nat.mul_add_div hden, Nat.div_eq_of_lt hless, Nat.add_zero]
      rw [nearestEven, hdiv, Nat.mul_add_mod', Nat.mod_eq_of_lt hless]
      split_ifs <;> omega
    · obtain ⟨excess, rfl⟩ : ∃ excess, rest = den + excess := ⟨rest - den, by omega⟩
      have hexcess : excess < den := by omega
      have hdiv : (r * den + (den + excess)) / den = r + 1 := by
        rw [← Nat.add_assoc, ← Nat.add_one_mul, Nat.mul_comm, Nat.mul_add_div hden, Nat.div_eq_of_lt hexcess, Nat.add_zero]
      rw [nearestEven, hdiv, Nat.mul_add_mod', Nat.add_mod_left, Nat.mod_eq_of_lt hexcess]
      split_ifs <;> omega
  rw [hrem, hround, correct, correctionPasses]
  have hsettled : ¬ (den : ℤ) < 2 * rest - 2 * den + ((base + r + 1) % 2 : ℕ) := by omega
  obtain ⟨hnext, hnone⟩ := correct_of_settled (F := F) hsettled fuel
  rw [hnext, hnone]
  split_ifs <;> omega

end Correction

/-- Overflow, the normal range and underflow (R209 to R211) on a normalized quotient estimate. -/
def divRange (F : Fmt) (s : Bool) (sb num q : ℕ) (re : ℤ) : DivStage F :=
  if (F.expSat : ℤ) ≤ re then .done (signedInf F s)
  else if 0 < re then .loop (q % 2 ^ F.sigBits + re.toNat * 2 ^ F.sigBits) (2 * ((num : ℤ) - (q : ℤ) * sb)) sb
  else if (F.sigBits : ℤ) + re < 0 then .done (signedZero F s)
  else
    .loop (q / 2 ^ (1 - re).toNat) (2 * (num : ℤ) - ((q / 2 ^ (1 - re).toNat : ℕ) : ℤ) * sb * 2 ^ ((1 - re).toNat + 1))
      ((sb : ℤ) * 2 ^ (1 - re).toNat)

/-- A stage whose result is `v`, with one correction pass at most however far the loop is unrolled. -/
def DivStage.EndsIn {F : Fmt} (s : Bool) (v : Pat F) : DivStage F → Prop
  | .done r => r = v
  | .loop res rem2 cmp => ∀ fuel, 1 ≤ fuel →
      (signedZero F s ||| BitVec.ofNat F.width (correct F cmp fuel res rem2)) = v ∧ correctionPasses F cmp fuel res rem2 ≤ 1

section DivRange

variable {F : Fmt} {sb num q : ℕ} {re : ℤ}

/-- The loop's scale is the divisor's significand, shifted below the normal range. -/
theorem cmp_pos_of_divRange {s : Bool} {res : ℕ} {rem2 cmp : ℤ} (hsb : 0 < sb) (h : divRange F s sb num q re = .loop res rem2 cmp) :
    0 < cmp := by
  unfold divRange at h
  split_ifs at h <;> cases h <;> positivity

variable (hsb : 0 < sb) (hle : q * sb ≤ num) (hlt : 2 * num < (2 * q + 3) * sb) (hlow : 2 ^ F.sigBits ≤ q)
  (hhigh : q < 2 ^ (F.sigBits + 1)) (hnum : num ≤ sb * 2 ^ (F.sigBits + 1))
include hsb hle hlt hlow hhigh hnum

/-- R210 and R212: in the normal range the estimate is packed with its implicit bit and corrected. -/
theorem correct_normal (s : Bool) (he : 0 < re) (hsat : re < F.expSat) {fuel : ℕ} (hfuel : 1 ≤ fuel) :
    (signedZero F s ||| BitVec.ofNat F.width (correct F sb fuel (q % 2 ^ F.sigBits + re.toNat * 2 ^ F.sigBits)
      (2 * ((num : ℤ) - (q : ℤ) * sb)))) = rneExact F s ((num : ℚ) / sb * 2 ^ (re - 1) * unitValue F) ∧
    correctionPasses F sb fuel (q % 2 ^ F.sigBits + re.toNat * 2 ^ F.sigBits) (2 * ((num : ℤ) - (q : ℤ) * sb)) ≤ 1 := by
  have hnumlow : sb * 2 ^ F.sigBits ≤ num := by
    rw [Nat.mul_comm]
    exact (Nat.mul_le_mul_right sb hlow).trans hle
  rw [rneExact_of_exponent_pos s he hsb hnumlow hnum]
  obtain ⟨t, rfl⟩ : ∃ t : ℕ, re = t + 1 := ⟨re.toNat - 1, by omega⟩
  have htoNat : ((t : ℤ) + 1).toNat = t + 1 := by omega
  rw [pow_succ] at hhigh
  have hpack : q % 2 ^ F.sigBits + (t + 1) * 2 ^ F.sigBits = t * 2 ^ F.sigBits + q := by
    rw [Nat.mod_eq_sub_mod hlow, Nat.mod_eq_of_lt (by omega), Nat.add_one_mul]
    omega
  have hinf : t * 2 ^ F.sigBits + q ≤ (infPat F).toNat :=
    calc t * 2 ^ F.sigBits + q ≤ (t + 2) * 2 ^ F.sigBits := by
          rw [Nat.add_mul]
          omega
      _ ≤ F.expSat * 2 ^ F.sigBits := Nat.mul_le_mul_right _ (by omega)
      _ = (infPat F).toNat := (toNat_infPat F).symm
  have heven : 2 ∣ t * 2 ^ F.sigBits := (dvd_pow_self 2 (by cases F <;> decide)).mul_left t
  obtain ⟨hres, hpasses⟩ := correct_eq_nearestEven heven hsb hle hlt hinf hfuel
  rw [htoNat, hpack, hres, Nat.add_sub_cancel]
  exact ⟨rfl, hpasses⟩

/-- R211 and R212: below the normal range the estimate is shifted to the subnormals' last place and corrected there. -/
theorem correct_subnormal (s : Bool) (he : re ≤ 0) {fuel : ℕ} (hfuel : 1 ≤ fuel) :
    (signedZero F s ||| BitVec.ofNat F.width (correct F ((sb : ℤ) * 2 ^ (1 - re).toNat) fuel (q / 2 ^ (1 - re).toNat)
      (2 * (num : ℤ) - ((q / 2 ^ (1 - re).toNat : ℕ) : ℤ) * sb * 2 ^ ((1 - re).toNat + 1)))) =
        rneExact F s ((num : ℚ) / sb * 2 ^ (re - 1) * unitValue F) ∧
    correctionPasses F ((sb : ℤ) * 2 ^ (1 - re).toNat) fuel (q / 2 ^ (1 - re).toNat)
      (2 * (num : ℤ) - ((q / 2 ^ (1 - re).toNat : ℕ) : ℤ) * sb * 2 ^ ((1 - re).toNat + 1)) ≤ 1 := by
  have hpos : 0 < num := (Nat.mul_pos ((Nat.two_pow_pos _).trans_le hlow) hsb).trans_le hle
  rw [rneExact_of_exponent_nonpos s he hpos hsb hnum]
  generalize (1 - re).toNat = sh
  have hsplit := Nat.div_add_mod q (2 ^ sh)
  have hmod := Nat.mod_lt q (Nat.two_pow_pos sh)
  generalize hr : q / 2 ^ sh = r at hsplit ⊢
  have hle' : r * (sb * 2 ^ sh) ≤ num :=
    calc r * (sb * 2 ^ sh) = 2 ^ sh * r * sb := by ring
      _ ≤ q * sb := Nat.mul_le_mul_right sb (by omega)
      _ ≤ num := hle
  have hlt' : 2 * num < (2 * r + 3) * (sb * 2 ^ sh) :=
    calc 2 * num < (2 * q + 3) * sb := hlt
      _ ≤ (2 * (2 ^ sh * r) + 3 * 2 ^ sh) * sb := Nat.mul_le_mul_right sb (by omega)
      _ = (2 * r + 3) * (sb * 2 ^ sh) := by ring
  have hinf : 0 + r ≤ (infPat F).toNat := by
    have hsat : 2 ≤ F.expSat := by cases F <;> decide
    calc 0 + r ≤ 2 * 2 ^ F.sigBits := by
          have := Nat.div_le_self q (2 ^ sh)
          rw [pow_succ] at hhigh
          omega
      _ ≤ F.expSat * 2 ^ F.sigBits := Nat.mul_le_mul_right _ hsat
      _ = (infPat F).toNat := (toNat_infPat F).symm
  have hrem : 2 * (num : ℤ) - (r : ℤ) * sb * 2 ^ (sh + 1) = 2 * ((num : ℤ) - (r : ℤ) * (sb * 2 ^ sh : ℕ)) := by
    push_cast
    ring
  have hcmp : (sb : ℤ) * 2 ^ sh = (sb * 2 ^ sh : ℕ) := by
    push_cast
    rfl
  obtain ⟨hres, hpasses⟩ := correct_eq_nearestEven (dvd_zero 2) (by positivity) hle' hlt' hinf hfuel
  rw [Nat.zero_add, Nat.zero_add] at hres
  rw [Nat.zero_add] at hpasses
  rw [hrem, hcmp, hres]
  exact ⟨rfl, hpasses⟩

/-- R209 to R213 round the normalized quotient once, as R112 says. -/
theorem divRange_endsIn (s : Bool) :
    (divRange F s sb num q re).EndsIn s (rneExact F s ((num : ℚ) / sb * 2 ^ (re - 1) * unitValue F)) := by
  have hnumlow : sb * 2 ^ F.sigBits ≤ num := by
    rw [Nat.mul_comm]
    exact (Nat.mul_le_mul_right sb hlow).trans hle
  have hpos : 0 < num := (by positivity : 0 < sb * 2 ^ F.sigBits).trans_le hnumlow
  unfold divRange
  split_ifs with hover hnormal hdeep
  · exact (rneExact_of_expSat_le s hover hsb hnumlow hnum).symm
  · exact fun fuel hfuel => correct_normal hsb hle hlt hlow hhigh hnum s hnormal (by omega) hfuel
  · have hhalf : 2 * num ≤ sb * 2 ^ (1 - re).toNat :=
      calc 2 * num ≤ 2 * (sb * 2 ^ (F.sigBits + 1)) := Nat.mul_le_mul_left 2 hnum
        _ = sb * 2 ^ (F.sigBits + 2) := by ring
        _ ≤ sb * 2 ^ (1 - re).toNat := Nat.mul_le_mul_left _ (Nat.pow_le_pow_right two_pos (by omega))
    exact (rneExact_of_le_half s (by omega) hpos hhalf hnum).symm
  · exact fun fuel hfuel => correct_subnormal hsb hle hlt hlow hhigh hnum s (by omega) hfuel

end DivRange

section DivStage

variable {F : Fmt} {P : DivParams} {a b : Pat F}

/-- R208: the estimate and its numerator are normalized to S + 1 bits. -/
theorem divStage_eq_divRange {q0 : ℕ} (hq : quotientEstimate F P (unpack a).2 (unpack b).2 = q0) :
    divStage P a b =
      if q0 < 2 ^ (F.sigBits + 1) then
        divRange F (signOf a != signOf b) (unpack b).2 ((unpack a).2 * 2 ^ (F.sigBits + 1)) q0 ((unpack a).1 - (unpack b).1 + F.bias - 1)
      else
        divRange F (signOf a != signOf b) (unpack b).2 ((unpack a).2 * 2 ^ F.sigBits) (q0 / 2) ((unpack a).1 - (unpack b).1 + F.bias) := by
  simp only [divStage, hq]
  by_cases hcase : q0 < 2 ^ (F.sigBits + 1)
  · simp only [hcase, decide_true, if_true]
    rfl
  · simp only [hcase, decide_false, if_false, Bool.false_eq_true]
    rfl

theorem cmp_pos_of_divStage {res : ℕ} {rem2 cmp : ℤ} (hb : isZero b = false) (h : divStage P a b = .loop res rem2 cmp) : 0 < cmp := by
  obtain ⟨⟨hlowB, -⟩, -⟩ := unpack_spec hb
  have hsb : 0 < (unpack b).2 := (Nat.two_pow_pos _).trans_le hlowB
  rw [divStage_eq_divRange rfl] at h
  split_ifs at h <;> exact cmp_pos_of_divRange hsb h

/-- R213 and 00_scope.md section 4: unrolling to `DIV_K` passes changes nothing where `DIV_K` bounds the passes taken. -/
theorem divDatapathUnrolled_eq (hb : isZero b = false) (h : divPasses P a b ≤ P.passes) :
    divDatapathUnrolled P a b = divDatapath P a b := by
  unfold divPasses at h
  unfold divDatapathUnrolled divDatapath
  cases hstage : divStage P a b with
  | done r => rfl
  | loop res rem2 cmp =>
    rw [hstage] at h
    simp only
    rw [correct_eq_of_passes_le (cmp_pos_of_divStage hb hstage) _ _ _ _ (Nat.lt_succ_self _) h]

/-- What a stage that ends in v says of the three forms of the datapath. -/
theorem divDatapath_of_endsIn {v : Pat F} (h : (divStage P a b).EndsIn (signOf a != signOf b) v) :
    divDatapath P a b = v ∧ divPasses P a b ≤ 1 ∧ (1 ≤ P.passes → divDatapathUnrolled P a b = v) := by
  unfold divDatapath divPasses divDatapathUnrolled
  cases hstage : divStage P a b with
  | done r =>
    rw [hstage] at h
    exact ⟨h, Nat.zero_le 1, fun _ => h⟩
  | loop res rem2 cmp =>
    rw [hstage] at h
    obtain ⟨hres, hpasses⟩ := h _ (Nat.le_add_left 1 rem2.toNat)
    exact ⟨hres, hpasses, fun hk => (h _ hk).1⟩

end DivStage

end Sys2Proof.Machine

/-! SUPPORT. 43_divide.md sections 4 and 5: under the reciprocal bound the quotient estimate is less than one and a half below the
exact quotient, so the datapath computes the contract; and for f16 every significand meets the bound. -/

namespace Sys2Proof.Machine

section Estimate

variable {S W D x sa sb : ℕ}

/-- The decremented reciprocal x − D as a lower approximation of 2^(S+W) / sb (R206), cleared of the division. -/
theorem decremented_bounds (hx : D < x) (hbound : |(x : ℤ) * (sb : ℤ) - 2 ^ (S + W)| < (D : ℤ) * (sb : ℤ)) :
    (x - D) * sb < 2 ^ W * 2 ^ S ∧ 2 ^ W * 2 ^ S < (x - D) * sb + 2 * (D * sb) := by
  obtain ⟨hlow, hhigh⟩ := abs_lt.mp hbound
  obtain ⟨y, rfl⟩ : ∃ y, x = D + y := ⟨x - D, by omega⟩
  rw [Nat.add_sub_cancel_left]
  rw [pow_add] at hlow hhigh
  push_cast at hlow hhigh
  constructor
  · zify
    linarith
  · zify
    linarith

variable (hlowA : 2 ^ S ≤ sa) (hhighA : sa < 2 ^ (S + 1)) (hx : D < x) (hbound : |(x : ℤ) * (sb : ℤ) - 2 ^ (S + W)| < (D : ℤ) * (sb : ℤ)) (hhalf : 16 * D * 2 ^ S ≤ 2 ^ W)
include hlowA hhighA hx hbound hhalf

/-- Section 5 with δ at most 1/2: the estimate's numerator, times sb, is less than sb/2 below the exact one. -/
theorem estimate_numerator_bounds : (x - D) * (sa * 2) * sb < 2 ^ W * (sa * 2 ^ (S + 1)) ∧
    2 ^ W * (2 * (sa * 2 ^ (S + 1))) < 2 * ((x - D) * (sa * 2) * sb) + 2 ^ W * sb := by
  obtain ⟨hlow, hhigh⟩ := decremented_bounds hx hbound
  have hsa : 0 < sa := (Nat.two_pow_pos S).trans_le hlowA
  have hloss : 8 * D * sa ≤ 2 ^ W :=
    calc 8 * D * sa ≤ 8 * D * 2 ^ (S + 1) := Nat.mul_le_mul_left _ hhighA.le
      _ = 16 * D * 2 ^ S := by ring
      _ ≤ 2 ^ W := hhalf
  have hscaledLow := Nat.mul_lt_mul_of_pos_right hlow (by omega : 0 < 2 * sa)
  have hscaledHigh := Nat.mul_lt_mul_of_pos_right hhigh (by omega : 0 < 4 * sa)
  have hscaledLoss := Nat.mul_le_mul_right sb hloss
  rw [pow_succ]
  constructor <;> linarith

variable (hlowB : 2 ^ S ≤ sb) (hhighB : sb < 2 ^ (S + 1))
include hlowB hhighB

/-- R207: the estimate is at most the exact quotient and less than one and a half below it. -/
theorem estimate_bounds {q : ℕ} (hq : (x - D) * (sa * 2) / 2 ^ W = q) :
    q * sb ≤ sa * 2 ^ (S + 1) ∧ 2 * (sa * 2 ^ (S + 1)) < (2 * q + 3) * sb ∧ 2 ^ S ≤ q := by
  obtain ⟨hless, hmore⟩ := estimate_numerator_bounds hlowA hhighA hx hbound hhalf
  have hfloor : 2 ^ W * q ≤ (x - D) * (sa * 2) := hq ▸ Nat.mul_div_le _ _
  have hnext : (x - D) * (sa * 2) < 2 ^ W * (q + 1) := hq ▸ Nat.lt_mul_div_succ _ (Nat.two_pow_pos W)
  have hsb : 0 < sb := (Nat.two_pow_pos S).trans_le hlowB
  generalize (x - D) * (sa * 2) = num at *
  refine ⟨?_, ?_, ?_⟩
  · refine Nat.le_of_mul_le_mul_left (c := 2 ^ W) ?_ (by positivity)
    calc 2 ^ W * (q * sb) = 2 ^ W * q * sb := by ring
      _ ≤ num * sb := Nat.mul_le_mul_right sb hfloor
      _ ≤ _ := hless.le
  · refine Nat.lt_of_mul_lt_mul_left (a := 2 ^ W) ?_
    calc 2 ^ W * (2 * (sa * 2 ^ (S + 1))) < 2 * (num * sb) + 2 ^ W * sb := hmore
      _ ≤ 2 * (2 ^ W * (q + 1) * sb) + 2 ^ W * sb := by gcongr
      _ = _ := by ring
  · have hsmallest : (2 * 2 ^ S + 1) * sb ≤ 2 * (sa * 2 ^ (S + 1)) := by
      rw [pow_succ] at *
      nlinarith
    have hfull : 2 ^ W * 2 ^ S < num := by
      refine Nat.lt_of_mul_lt_mul_right (a := 2 * sb) ?_
      have hscaled := Nat.mul_le_mul_left (2 ^ W) hsmallest
      linarith
    rw [← hq, Nat.le_div_iff_mul_le (by positivity), Nat.mul_comm]
    exact hfull.le

/-- An estimate below 2^(S+1) comes from a quotient of at most one. -/
theorem le_of_estimate_lt {q : ℕ} (hq : (x - D) * (sa * 2) / 2 ^ W = q) (hlt : q < 2 ^ (S + 1)) : sa ≤ sb := by
  obtain ⟨-, hmore, -⟩ := estimate_bounds hlowA hhighA hx hbound hhalf hlowB hhighB hq
  by_contra hgt
  refine hmore.not_ge ?_
  calc (2 * q + 3) * sb ≤ (2 * 2 ^ (S + 1) + 1) * sb := Nat.mul_le_mul_right sb (by omega)
    _ = 2 * 2 ^ (S + 1) * sb + sb := by ring
    _ ≤ 2 * 2 ^ (S + 1) * (sb + 1) := by
      rw [Nat.mul_add]
      omega
    _ ≤ 2 * 2 ^ (S + 1) * sa := Nat.mul_le_mul_left _ (by omega)
    _ = 2 * (sa * 2 ^ (S + 1)) := by ring

end Estimate

section Contract

variable {F : Fmt} {a b : Pat F}

/-- The last row of the table of R192. -/
theorem divExact_of_finite (hfinA : isFinite a = true) (ha : isZero a = false) (hfinB : isFinite b = true) (hb : isZero b = false) :
    divExact a b = rneExact F (signOf a != signOf b) (|val a| / |val b|) := by
  have hltA : absOf a < (infPat F).toNat := of_decide_eq_true hfinA
  have hltB : absOf b < (infPat F).toNat := of_decide_eq_true hfinB
  have hneA : absOf a ≠ 0 := of_decide_eq_false ha
  have hneB : absOf b ≠ 0 := of_decide_eq_false hb
  simp only [divExact, hltA.not_gt, hltB.not_gt, hltA.ne, hltB.ne, hneA, hneB, false_and, if_false]

/-- The exact quotient as the quotient of the significands, scaled by k bits, and the biased exponent (R195, R208). -/
theorem abs_val_div_abs_val (ha : isZero a = false) (hb : isZero b = false) (k : ℕ) :
    |val a| / |val b| = ((unpack a).2 * 2 ^ k : ℕ) / (unpack b).2 *
      2 ^ ((unpack a).1 - (unpack b).1 + F.bias + F.sigBits - k - 1) * unitValue F := by
  obtain ⟨-, -, hvalA⟩ := unpack_spec ha
  obtain ⟨⟨hlowB, -⟩, -, hvalB⟩ := unpack_spec hb
  have hsb : ((unpack b).2 : ℚ) ≠ 0 := by exact_mod_cast ((Nat.two_pow_pos _).trans_le hlowB).ne'
  have hscale : (2 : ℚ) ^ ((unpack a).1 - F.bias - F.sigBits) = 2 ^ k *
      2 ^ ((unpack a).1 - (unpack b).1 + F.bias + F.sigBits - k - 1) * unitValue F * 2 ^ ((unpack b).1 - F.bias - F.sigBits) := by
    rw [unitValue, ← zpow_natCast]
    simp only [← zpow_add₀ (two_ne_zero (α := ℚ))]
    congr 1
    ring
  rw [hvalA, hvalB, hscale]
  push_cast
  field_simp

variable {P : DivParams} (ha : isZero a = false) (hb : isZero b = false) (hx : P.bound < reciprocal F P (unpack b).2)
  (hbound : |(reciprocal F P (unpack b).2 : ℤ) * ((unpack b).2 : ℤ) - 2 ^ (F.sigBits + F.width)| < (P.bound : ℤ) * ((unpack b).2 : ℤ))
  (hhalf : 16 * P.bound * 2 ^ F.sigBits ≤ 2 ^ F.width)
include ha hb hx hbound hhalf

/-- Sections 4 and 5: under the bound the stages before the loop meet what `divRange_endsIn` asks for, on both branches of the
normalization. -/
theorem divStage_endsIn : (divStage P a b).EndsIn (signOf a != signOf b)
    (rneExact F (signOf a != signOf b) (|val a| / |val b|)) := by
  obtain ⟨⟨hlowA, hhighA⟩, -⟩ := unpack_spec ha
  obtain ⟨⟨hlowB, hhighB⟩, -⟩ := unpack_spec hb
  have hsb : 0 < (unpack b).2 := (Nat.two_pow_pos _).trans_le hlowB
  generalize hq : quotientEstimate F P (unpack a).2 (unpack b).2 = q
  obtain ⟨hle, hlt, hlow⟩ := estimate_bounds hlowA hhighA hx hbound hhalf hlowB hhighB hq
  rw [divStage_eq_divRange hq]
  split_ifs with hcase
  · have hnum : (unpack a).2 * 2 ^ (F.sigBits + 1) ≤ (unpack b).2 * 2 ^ (F.sigBits + 1) :=
      Nat.mul_le_mul_right _ (le_of_estimate_lt hlowA hhighA hx hbound hhalf hlowB hhighB hq hcase)
    have hexp : (unpack a).1 - (unpack b).1 + (F.bias : ℤ) + F.sigBits - (F.sigBits + 1 : ℕ) - 1 =
        (unpack a).1 - (unpack b).1 + F.bias - 1 - 1 := by
      push_cast
      ring
    rw [abs_val_div_abs_val ha hb (F.sigBits + 1), hexp]
    exact divRange_endsIn hsb hle hlt hlow hcase hnum _
  · have hexp : (unpack a).1 - (unpack b).1 + (F.bias : ℤ) + F.sigBits - F.sigBits - 1 = (unpack a).1 - (unpack b).1 + F.bias - 1 := by
      ring
    rw [abs_val_div_abs_val ha hb F.sigBits, hexp]
    rw [pow_succ] at hcase hle hlt hhighA hhighB
    have hparts := Nat.div_add_mod q 2
    have hbit := Nat.mod_lt q two_pos
    have hnum : (unpack a).2 * 2 ^ F.sigBits < (unpack b).2 * 2 ^ (F.sigBits + 1) := by
      rw [pow_succ, ← Nat.mul_assoc, Nat.mul_right_comm]
      exact Nat.mul_lt_mul_of_pos_right (by omega) (by positivity)
    have hle' : q / 2 * (unpack b).2 ≤ (unpack a).2 * 2 ^ F.sigBits := by
      have := Nat.mul_le_mul_right (unpack b).2 (by omega : 2 * (q / 2) ≤ q)
      linarith
    have hlt' : 2 * ((unpack a).2 * 2 ^ F.sigBits) < (2 * (q / 2) + 3) * (unpack b).2 := by
      have := Nat.mul_le_mul_right (unpack b).2 (by omega : 2 * q + 3 ≤ 2 * (2 * (q / 2) + 3))
      linarith
    have hhigh : q / 2 < 2 ^ (F.sigBits + 1) := by
      refine Nat.lt_of_mul_lt_mul_right (a := (unpack b).2) ?_
      rw [Nat.mul_comm (2 ^ _)]
      exact hle'.trans_lt hnum
    exact divRange_endsIn hsb hle' hlt' (by omega) hhigh hnum.le _

end Contract

/-- Settles O36: `divStage_endsIn` under the bound, and `divDatapathUnrolled_eq` for the unrolled loop. -/
theorem divDatapathRefinesUnderBound : Obligations.DivDatapathRefinesUnderBound := by
  unfold Obligations.DivDatapathRefinesUnderBound
  intro F P a b hfinA ha hfinB hb
  refine ⟨divDatapathUnrolled_eq hb, fun hx hbound hhalf => ?_⟩
  rw [divExact_of_finite hfinA ha hfinB hb]
  exact divDatapath_of_endsIn (divStage_endsIn ha hb hx hbound hhalf)

/-- The reciprocal bound of f16 for the significand 2^10 + k, as a test the kernel runs. -/
def meetsBoundF16 (k : ℕ) : Bool :=
  let x := reciprocal .f16 (divDefaults .f16) (2 ^ 10 + k)
  decide (3 < x) && decide (2 ^ 26 < (x + 3) * (2 ^ 10 + k)) && decide (x * (2 ^ 10 + k) < 2 ^ 26 + 3 * (2 ^ 10 + k))

theorem meetsBoundF16_all : (List.range (2 ^ 10)).all meetsBoundF16 = true := by decide +kernel

theorem reciprocalBoundF16 (sb : ℕ) (hlow : 2 ^ 10 ≤ sb) (hhigh : sb < 2 ^ 11) :
    3 < reciprocal .f16 (divDefaults .f16) sb ∧ |(reciprocal .f16 (divDefaults .f16) sb : ℤ) * (sb : ℤ) - 2 ^ 26| < 3 * (sb : ℤ) := by
  obtain ⟨k, rfl⟩ := Nat.exists_eq_add_of_le hlow
  have htest := List.all_eq_true.mp meetsBoundF16_all k (List.mem_range.mpr (by omega))
  simp only [meetsBoundF16, Bool.and_eq_true, decide_eq_true_eq] at htest
  obtain ⟨⟨hpos, hmore⟩, hless⟩ := htest
  refine ⟨hpos, abs_lt.mpr ?_⟩
  generalize reciprocal .f16 (divDefaults .f16) (2 ^ 10 + k) = x at hmore hless ⊢
  zify at hmore hless
  constructor
  · push_cast
    linarith
  · push_cast
    linarith

/-- Settles O37: `reciprocalBoundF16` checks every significand, and O36 takes the bound to the contract. -/
theorem divDatapathHalfPrecision : Obligations.DivDatapathHalfPrecision := by
  unfold Obligations.DivDatapathHalfPrecision
  refine ⟨reciprocalBoundF16, fun a b hfinA ha hfinB hb => ?_⟩
  obtain ⟨⟨hlow, hhigh⟩, -⟩ := unpack_spec hb
  obtain ⟨hx, hbound⟩ := reciprocalBoundF16 _ hlow hhigh
  obtain ⟨-, hrefines⟩ := divDatapathRefinesUnderBound .f16 (divDefaults .f16) a b hfinA ha hfinB hb
  have hhalf : 16 * (divDefaults .f16).bound * 2 ^ Fmt.f16.sigBits ≤ 2 ^ Fmt.f16.width := by decide
  obtain ⟨hres, hpasses, hunrolled⟩ := hrefines hx hbound hhalf
  exact ⟨hres, hpasses, hunrolled le_rfl⟩

end Sys2Proof.Machine
